-- ==== Sys2Proof/Word.lean ====
section
/-! DEFINITION. Word.lean: the words of the block, at the widths of spec/00_scope.md rule R8
(UNIT_W = 8, VAL_W = 5, ACC_W = 16, CCNT_W = 4, OP_W = 4). All of them are unsigned (rule R10). -/

namespace Sys2Proof

/-- A code unit: a data byte, or the character code of a symbol (UNIT_W = 8, rule R8). -/
abbrev Byte := BitVec 8

/-- The 5-bit value a symbol stands for (VAL_W = 5, rule R8). -/
abbrev SymVal := BitVec 5

/-- A bit accumulator (ACC_W = 16, rule R8). -/
abbrev Acc := BitVec 16

/-- A count of significant bits (CCNT_W = 4, rule R8). -/
abbrev Cnt := BitVec 4

/-- The operation word `op[3:0]` (OP_W = 4, rule R80). -/
abbrev OpWord := BitVec 4

/-- An entry of the inverse table, `valid` in bit 5 and `value` in bits 4..0 (rule R34). -/
abbrev InvEntry := BitVec 6

end Sys2Proof
end

