-- ==== Sys2Proof/Syntax.lean ====
section
/-! DEFINITION. Syntax.lean: the operations of the block, one constructor for each of the sixteen rows of
spec/opcode_table.json, and what the caller presents with an operation. An operation word has one field, the
operation code (rule R80); operands are not part of it but stand on ports (rule R82, rule R95), so that no constructor
has an argument. -/

namespace Sys2Proof

/-- The sixteen operation codes of rule R83, in the order of the codes. -/
inductive Instr where
  | idle       -- 0x0 IDLE
  | lutFwd     -- 0x1 LUT.FWD
  | lutInv     -- 0x2 LUT.INV
  | lenEnc     -- 0x3 LEN.ENC
  | lenDec     -- 0x4 LEN.DEC
  | valInit    -- 0x5 VAL.INIT
  | valPush    -- 0x6 VAL.PUSH
  | valRes     -- 0x7 VAL.RES
  | encInit    -- 0x8 ENC.INIT
  | encCur     -- 0x9 ENC.CUR
  | encAdv     -- 0xA ENC.ADV
  | decInit    -- 0xB DEC.INIT
  | decCur     -- 0xC DEC.CUR
  | decAdv     -- 0xD DEC.ADV
  | statusRd   -- 0xE STATUS.RD
  | reserved   -- 0xF the reserved code, RESERVED in the table
  deriving DecidableEq, Repr

/-- The formats of rule R81, which say what ports an operation uses. `none` is the table's `-`, the reserved code's. -/
inductive Format where
  | n | r | v | u | c | none
  deriving DecidableEq, Repr

/-- The format column of rule R83. -/
def Instr.format : Instr → Format
  | .idle => .n
  | .lutFwd => .v
  | .lutInv => .u
  | .lenEnc => .c
  | .lenDec => .c
  | .valInit => .n
  | .valPush => .u
  | .valRes => .r
  | .encInit => .n
  | .encCur => .r
  | .encAdv => .n
  | .decInit => .n
  | .decCur => .r
  | .decAdv => .n
  | .statusRd => .r
  | .reserved => .none

/-- The unit of the block that an operation belongs to (rule R1; the housekeeping operations and the reserved code
belong to none of the five units). -/
inductive BlockUnit where
  | alphabet | length | validator | encoder | decoder | housekeeping
  deriving DecidableEq, Repr

/-- The unit prefix of an operation's name (rule R12). -/
def Instr.blockUnit : Instr → BlockUnit
  | .idle => .housekeeping
  | .lutFwd => .alphabet
  | .lutInv => .alphabet
  | .lenEnc => .length
  | .lenDec => .length
  | .valInit => .validator
  | .valPush => .validator
  | .valRes => .validator
  | .encInit => .encoder
  | .encCur => .encoder
  | .encAdv => .encoder
  | .decInit => .decoder
  | .decCur => .decoder
  | .decAdv => .decoder
  | .statusRd => .housekeeping
  | .reserved => .housekeeping

/-- The operand ports of rule R82. `val_in` and `unit_in` have fixed widths. The count ports are as wide as the open
parameter `CNT_W` says, so that they hold numbers, and WellFormed.lean says which numbers they can carry. -/
structure OperandPorts where
  /-- `val_in`, 5 bits: a symbol value, used by `LUT.FWD`. -/
  valIn  : SymVal
  /-- `unit_in`, 8 bits: a code unit, used by `LUT.INV` and `VAL.PUSH`. -/
  unitIn : Byte
  /-- `bcnt_in`, `CNT_W` bits: a byte count, used by `LEN.ENC`. -/
  bcntIn : Nat
  /-- `scnt_in`, `CNT_W + 1` bits: a symbol count, used by `LEN.DEC`. -/
  scntIn : Nat
  deriving DecidableEq, Repr

/-- What the caller presents in one step: an operation word, and the operand ports beside it (rule R80). -/
structure Issue where
  /-- The operation port `op[3:0]`. -/
  op    : OpWord
  /-- The operand ports. -/
  ports : OperandPorts
  deriving DecidableEq, Repr

end Sys2Proof
end

