-- ==== Sys2Proof/WellFormed.lean ====
section
/-! DEFINITION. WellFormed.lean: what a caller can present. An operation word has no ill-formed value (rule R83: every
4-bit value is one of the sixteen lines), so the checks are about the ports' widths. -/

namespace Sys2Proof

/-- The count ports carry numbers of their widths, `CNT_W` and `CNT_W + 1` bits (rule R82). -/
def OperandPorts.fit (cntW : Nat) (p : OperandPorts) : Bool :=
  decide (p.bcntIn < 2 ^ cntW) && decide (p.scntIn < 2 ^ (cntW + 1))

/-- An issue that the ports can carry, on a block whose parameter is legal (`CNT_W >= 1`, rule R8). -/
def Issue.wellFormed (cntW : Nat) (x : Issue) : Bool :=
  decide (1 ≤ cntW) && x.ports.fit cntW

end Sys2Proof
end

