-- ==== Sys2Proof/Decode.lean ====
section
/-! DEFINITION. Decode.lean: the operation word's decoder and encoder, both written from the map of rule R83. -/

namespace Sys2Proof

/-- The decoder of the operation word. It is total: every 4-bit value is one of the sixteen lines of rule R83. -/
def decodeWord (op : OpWord) : Instr :=
  match op.toNat with
  | 0x0 => .idle
  | 0x1 => .lutFwd
  | 0x2 => .lutInv
  | 0x3 => .lenEnc
  | 0x4 => .lenDec
  | 0x5 => .valInit
  | 0x6 => .valPush
  | 0x7 => .valRes
  | 0x8 => .encInit
  | 0x9 => .encCur
  | 0xA => .encAdv
  | 0xB => .decInit
  | 0xC => .decCur
  | 0xD => .decAdv
  | 0xE => .statusRd
  | _   => .reserved

/-- Why a list of bytes carries no operation word. -/
inductive DecodeError where
  /-- There is no byte. -/
  | noWord
  /-- A bit above bit 3 of the carrying byte is set; the operation word has the one field `op[3:0]` (rule R80). -/
  | strayBits
  deriving DecidableEq, Repr

/-- The decoder on bytes, where each operation word is carried in the low four bits of one byte (the block itself has a
4-bit port and no bytes of instructions: log entry 14). It gives the operation and the bytes after it. -/
def decodeBytes : List Byte → Except DecodeError (Instr × List Byte)
  | [] => .error .noWord
  | b :: rest =>
    if b.toNat < 16 then .ok (decodeWord (BitVec.ofNat 4 b.toNat), rest) else .error .strayBits

/-- The encoder: the operation code of rule R83. -/
def encode : Instr → OpWord
  | .idle => 0b0000#4
  | .lutFwd => 0b0001#4
  | .lutInv => 0b0010#4
  | .lenEnc => 0b0011#4
  | .lenDec => 0b0100#4
  | .valInit => 0b0101#4
  | .valPush => 0b0110#4
  | .valRes => 0b0111#4
  | .encInit => 0b1000#4
  | .encCur => 0b1001#4
  | .encAdv => 0b1010#4
  | .decInit => 0b1011#4
  | .decCur => 0b1100#4
  | .decAdv => 0b1101#4
  | .statusRd => 0b1110#4
  | .reserved => 0b1111#4

/-- The instruction the decoder reads from a word of spec/opcode_table.json, whose rows have four bits, carried in one
byte. A word that one byte cannot carry, or with bits at or above `nbits`, is refused. -/
def decodeTableWord (nbits w : Nat) : Option Instr :=
  if nbits = 0 ∨ 2 ^ 8 ≤ w ∨ 2 ^ nbits ≤ w then none
  else
    match decodeBytes [BitVec.ofNat 8 w] with
    | .ok (i, _) => some i
    | .error _ => none

end Sys2Proof
end

