-- ==== Sys2Proof/Config.lean ====
section
/-! DEFINITION. Config.lean: the open parameter's default and the FREE VALUES, which have no body: nothing in Lean
can evaluate one of them or prove what it is, so a statement about a machine that holds one is a statement about
every value it could be. -/

namespace Sys2Proof

/-- The default of the open parameter `CNT_W` (rule R8). The parameter itself is the field `cntW` of State, so that a
statement about every state is a statement about every width; only `State.reset` uses this default. -/
def Config.cntWDefault : Nat := 32

/-- The greatest admitted number of bytes of `ESRC`, `2^CNT_W - 1` (rule R53, rule R25). -/
def Config.maxBytes (cntW : Nat) : Nat := 2 ^ cntW - 1

/-- The greatest admitted number of symbols of `DSRC`, `2^(CNT_W+1) - 1` (rule R53, rule R30). -/
def Config.maxSymbols (cntW : Nat) : Nat := 2 ^ (cntW + 1) - 1

/-- What `unit_out` carries in a step that does not drive it, or that raises a fault (rule R82, U6). -/
opaque Config.freeUnitOut : Nat → Byte

/-- What `val_out` carries in a step that does not drive it (rule R82, U6). -/
opaque Config.freeValOut : Nat → SymVal

/-- What `valid_out` carries in a step that does not drive it (rule R82, U6). -/
opaque Config.freeValidOut : Nat → Bool

/-- What `scnt_out` carries in a step that does not drive it, before it is cut to the port's width (rule R82, U6). -/
opaque Config.freeScntOut : Nat → Nat

/-- What `bcnt_out` carries in a step that does not drive it, before it is cut to the port's width (rule R82, U6). -/
opaque Config.freeBcntOut : Nat → Nat

/-- What `status_out` carries in a step that does not drive it (rule R82, U6). -/
opaque Config.freeStatusOut : Nat → BitVec 8

/-- `dec_acc` after `DEC_SYM` (rule R195, U5) and after a `DEC.ADV` in a faulted run (rule R162, U7). -/
opaque Config.freeDecAcc : Nat → Acc

/-- `dec_cnt` after `DEC_SYM` (rule R195, U5) and after a `DEC.ADV` in a faulted run (rule R162, U7). -/
opaque Config.freeDecCnt : Nat → Cnt

/-- `dec_pos` after a `DEC.ADV` in a faulted run, before it is cut to the register's width (rule R162, U7). -/
opaque Config.freeDecPos : Nat → Nat

/-- The read position of `DSRC` after a `DEC.ADV` in a faulted run, before it is cut to `0..len` (rule R162, U7). -/
opaque Config.freeDsrcPos : Nat → Nat

end Sys2Proof
end

