-- ==== Sys2Proof/Machine/State.lean ====
section
/-! DEFINITION. Machine/State.lean: the state of one block (spec/10_state.md), the environment that stands beside it
(the source streams, the ports, the caller), and the reset state. The two tables are constants of the design
(rule R33, rule R34) and stand in Machine/Tables.lean, not here. -/

namespace Sys2Proof.Machine

/-- The encoder context (rule R21 to rule R25). -/
structure EncCtx where
  /-- `enc_acc`, 16 bits: the pending bits, in the low `cnt` bits. -/
  acc  : Acc
  /-- `enc_cnt`, 4 bits: the number of significant bits. -/
  cnt  : Cnt
  /-- `enc_term`: the terminal symbol has been formed. -/
  term : Bool
  /-- `enc_err`: `ENC_SEQ` is recorded. -/
  err  : Bool
  /-- `enc_pos`, `CNT_W` bits: the bytes pulled since `ENC.INIT`. -/
  pos  : Nat
  deriving DecidableEq, Repr

/-- The 2-bit field `dec_err` (rule R29), its four values by name. -/
inductive DecErr where
  /-- 0: no fault is recorded. -/
  | clear
  /-- 1: `DEC_SEQ`. -/
  | seq
  /-- 2: `DEC_SYM`. -/
  | sym
  /-- 3: `DEC_LEN`. -/
  | len
  deriving DecidableEq, Repr

/-- The decoder context (rule R27 to rule R30). -/
structure DecCtx where
  /-- `dec_acc`, 16 bits: the pending bits, in the low `cnt` bits. -/
  acc : Acc
  /-- `dec_cnt`, 4 bits: the number of significant bits. -/
  cnt : Cnt
  /-- `dec_err`, 2 bits: the recorded fault. -/
  err : DecErr
  /-- `dec_pos`, `CNT_W + 1` bits: the symbols pulled since `DEC.INIT`. -/
  pos : Nat
  deriving DecidableEq, Repr

/-- The validator context (rule R32). -/
structure ValCtx where
  /-- `val_ok`: every unit pushed since `VAL.INIT` was an alphabet unit. -/
  ok  : Bool
  /-- `val_cnt`, 3 bits: the units pushed since `VAL.INIT`, modulo 8. -/
  cnt : BitVec 3
  deriving DecidableEq, Repr

/-- A source stream, environment state (rule R53). `ended` is the end indication of rule R56: while it is not given and
every unit that has arrived was read, the head is not known yet. At transaction level `ended` holds. -/
structure Stream where
  /-- The code units, index 0 first. -/
  units : List Byte
  /-- The read position `p`. -/
  pos   : Nat
  /-- No further unit will arrive. -/
  ended : Bool
  deriving DecidableEq, Repr

/-- The answer of `SrcHead` (rule R54); `unknown` is the case in which an operation holds (rule R56). -/
inductive Head where
  | unit (u : Byte)
  | ended
  | unknown
  deriving DecidableEq, Repr

/-- The result ports (rule R82), as the last operation left them. -/
structure Results where
  /-- `unit_out`, 8 bits. -/
  unitOut   : Byte
  /-- `val_out`, 5 bits. -/
  valOut    : SymVal
  /-- `valid_out`, 1 bit. -/
  validOut  : Bool
  /-- `scnt_out`, `CNT_W + 1` bits. -/
  scntOut   : Nat
  /-- `bcnt_out`, `CNT_W + 1` bits. -/
  bcntOut   : Nat
  /-- `status_out`, 8 bits. -/
  statusOut : BitVec 8
  deriving DecidableEq, Repr

/-- The faults of rule R191. They are events of the hardware, after which it goes on (rule R190), and no outcomes of the
model's step. -/
inductive FaultCause where
  | illegalOp
  | encSeq
  | decSeq
  | decSym
  | decLen
  deriving DecidableEq, Repr

/-- What the caller does, one thing at a time (rule R3, rule R223), and the reset event (rule R220). -/
inductive CallerEvent where
  /-- Present an operation word and its operands (rule R80). -/
  | issue (x : Issue)
  /-- Set `ESRC` to a sequence, with its read position at 0 (rule R53). -/
  | setEsrc (units : List Byte) (ended : Bool)
  /-- Set `DSRC` to a sequence, with its read position at 0 (rule R53). -/
  | setDsrc (units : List Byte) (ended : Bool)
  /-- Store a byte in the storage that holds `DSRC`, as a decode in place does (rule R70). -/
  | storeDsrc (i : Nat) (b : Byte)
  /-- The reset event, which is no operation (rule R220). -/
  | reset
  deriving DecidableEq, Repr

/-- What can come while an operation holds: the supply of a head, which alone lifts the hold (rule R56), and what can
come at any time: the caller's actions on its own streams (rule R53, rule R70) and the reset event (rule R220). That the
last four come during a hold at all is DESIGN CHOICE (log entry 22): rule R56 says nothing of them. -/
inductive Arrival where
  /-- The next unit of `ESRC` arrives. -/
  | esrcUnit (b : Byte)
  /-- The end indication of `ESRC` arrives. -/
  | esrcEnd
  /-- The next unit of `DSRC` arrives. -/
  | dsrcUnit (b : Byte)
  /-- The end indication of `DSRC` arrives. -/
  | dsrcEnd
  /-- The caller sets `ESRC`. -/
  | setEsrc (units : List Byte) (ended : Bool)
  /-- The caller sets `DSRC`. -/
  | setDsrc (units : List Byte) (ended : Bool)
  /-- The caller stores a byte in the storage that holds `DSRC`. -/
  | storeDsrc (i : Nat) (b : Byte)
  /-- The reset event. The spec does not say what becomes of the operation that holds, so that both are admitted
  (log entry 22): with `withdraw` the caller no longer issues it, without it the operation stays issued. -/
  | reset (withdraw : Bool)
  deriving DecidableEq, Repr

/-- The state. The first four fields are all the mutable state of the block (rule R20). The fields after them are its
environment (rule R41) and the model's own. -/
structure State where
  /-- The encoder context. -/
  enc      : EncCtx
  /-- The decoder context. -/
  dec      : DecCtx
  /-- The validator context. -/
  val      : ValCtx
  /-- `op_err`: the reserved code was issued (rule R35). -/
  opErr    : Bool
  /-- `ESRC`, the encoder's source stream (rule R53). -/
  esrc     : Stream
  /-- `DSRC`, the decoder's source stream (rule R53). -/
  dsrc     : Stream
  /-- The model's own: an encoder run is in progress over `ESRC`, whose unread part and end are as they were (rule R227). -/
  encRun   : Bool
  /-- The model's own: a decoder run is in progress over `DSRC`, whose unread part and end are as they were (rule R227). -/
  decRun   : Bool
  /-- The operand ports, as presented with the last operation (rule R82). -/
  ports    : OperandPorts
  /-- The result ports, as the last operation left them (rule R82). -/
  out      : Results
  /-- The model's own: the fault that the last operation raised, be it recorded or not (rule R190). -/
  raised   : Option FaultCause
  /-- What the caller is going to do, first thing first. -/
  caller   : List CallerEvent
  /-- What is going to come while an operation holds, first thing first. -/
  arrivals : List Arrival
  /-- The open parameter `CNT_W` (rule R8), which no step changes. -/
  cntW     : Nat
  /-- The model's own: the counter behind the free values of the decoder's registers (U5, U7). -/
  decFree  : Nat
  /-- The model's own: the counter behind the free values of the result ports (U6). -/
  portFree : Nat
  deriving DecidableEq, Repr

/-- Why the machine stops. A fault of rule R191 is none of these: it is an event, and the machine goes on. -/
inductive Fault where
  /-- Raised by `ENC.CUR` and `ENC.ADV` in a state whose `enc_cnt` is 1, 2, 3 or 4: the five bits they take do not exist
  (rule R141: "enc_cnt >= 5 here by 10_state.md rule R38"). No run reaches such a state. Safe. -/
  | encCountBelowFive
  deriving DecidableEq, Repr

/-- Why the model gives a step no meaning. -/
inductive Refusal where
  /-- The instruction has no meaning in the model. No arm of `exec` answers this. Safe. -/
  | notModelled (mnemonic : String)
  /-- Raised by `step`: the issue is no value of the ports, which are as wide as rule R82 says. Safe. -/
  | illFormedIssue
  /-- Raised by `ENC.ADV` and `DEC.ADV` where they read the head of their stream: the caller has changed the unread part
  or the end of the stream since `INIT` (rule R227: "this spec gives such a run no meaning"; U8 `refuse`). Safe. -/
  | sourceChanged
  /-- Raised by the operations that read a stream: the run's source is longer than its position register can count
  (rule R53: "a run over a longer stream is refused by a model"; U9 `refuse`). Safe. -/
  | streamTooLong
  deriving DecidableEq, Repr

/-- The encoder context after reset (rule R42). -/
def EncCtx.reset : EncCtx := { acc := 0#16, cnt := 0#4, term := false, err := false, pos := 0 }

/-- The decoder context after reset (rule R42). -/
def DecCtx.reset : DecCtx := { acc := 0#16, cnt := 0#4, err := .clear, pos := 0 }

/-- The validator context after reset (rule R42). -/
def ValCtx.reset : ValCtx := { ok := true, cnt := 0#3 }

/-- A stream that the caller has not supplied: no unit, at its end (log entry 2). -/
def Stream.absent : Stream := { units := [], pos := 0, ended := true }

/-- The reset state of a block of parameter `CNT_W`: the block's registers as rule R42 says; the environment and the
model's own fields as log entries 1 to 4 say. -/
def State.resetOf (cntW : Nat) : State :=
  { enc := .reset, dec := .reset, val := .reset, opErr := false
    esrc := .absent, dsrc := .absent, encRun := false, decRun := false
    ports := { valIn := 0#5, unitIn := 0#8, bcntIn := 0, scntIn := 0 }
    out := { unitOut := 0#8, valOut := 0#5, validOut := false, scntOut := 0, bcntOut := 0, statusOut := 0#8 }
    raised := none, caller := [], arrivals := [], cntW := cntW, decFree := 0, portFree := 0 }

/-- The machine right after reset, at the default `CNT_W` of rule R8. -/
def State.reset : State := State.resetOf Config.cntWDefault

end Sys2Proof.Machine
end

