-- ==== Sys2Proof/Machine/Flags.lean ====
section
/-! DEFINITION. Machine/Flags.lean: the derived signals and the `STATUS` register. The block has no arithmetic
condition codes (rule R43); every flag below is a function of the registers. -/

namespace Sys2Proof.Machine

/-- `enc_done`: the encoder is exhausted exactly when `enc_cnt = 0` (rule R26). -/
def EncCtx.done (e : EncCtx) : Bool := e.cnt == 0#4

/-- `dec_done`: the decoder is exhausted exactly when `dec_cnt < 8` (rule R31). -/
def DecCtx.done (d : DecCtx) : Bool := decide (d.cnt.toNat < 8)

/-- `LenOk(c)`, for `c` in 0..7 (rule R132). -/
def lenOk (c : BitVec 3) : Bool := c != 1#3 && c != 3#3 && c != 6#3

/-- The validator's verdict on the units pushed so far (rule R132). -/
def ValCtx.verdict (v : ValCtx) : Bool := v.ok && lenOk v.cnt

/-- The two bits of `dec_err` (rule R29). -/
def DecErr.code : DecErr → BitVec 2
  | .clear => 0#2
  | .seq => 1#2
  | .sym => 2#2
  | .len => 3#2

/-- The cause codes of rule R191. The hardware does not hold this number. -/
def FaultCause.code : FaultCause → Nat
  | .illegalOp => 1
  | .encSeq => 2
  | .decSeq => 3
  | .decSym => 4
  | .decLen => 5

/-- The `STATUS` register (rule R36, rule R181), bit 7 first: `OP_ERR`, `VAL_RES`, `DEC_ERR` (two bits), `DEC_DONE`,
`ENC_ERR`, `ENC_TERM`, `ENC_DONE`. -/
def State.status (s : State) : BitVec 8 :=
  BitVec.ofBool s.opErr ++ BitVec.ofBool s.val.verdict ++ s.dec.err.code ++ BitVec.ofBool s.dec.done ++
    BitVec.ofBool s.enc.err ++ BitVec.ofBool s.enc.term ++ BitVec.ofBool s.enc.done

end Sys2Proof.Machine
end

