-- ==== Sys2Proof/Machine/Tables.lean ====
section
/-! DEFINITION. Machine/Tables.lean: the two constant tables, `FWD` (rule R86) and `INV` (rule R88, rule R89). Each is
written out from its own listing in the spec, neither from the other. -/

namespace Sys2Proof.Machine

/-- Entries 0 to 15 of `FWD` (rule R86): y b n d r f g 8 e j k m c p q x. -/
def fwdLow : List Byte :=
  [0x79#8, 0x62#8, 0x6E#8, 0x64#8, 0x72#8, 0x66#8, 0x67#8, 0x38#8,
   0x65#8, 0x6A#8, 0x6B#8, 0x6D#8, 0x63#8, 0x70#8, 0x71#8, 0x78#8]

/-- Entries 16 to 31 of `FWD` (rule R86): o t 1 u w i s z a 3 4 5 h 7 6 9. -/
def fwdHigh : List Byte :=
  [0x6F#8, 0x74#8, 0x31#8, 0x75#8, 0x77#8, 0x69#8, 0x73#8, 0x7A#8,
   0x61#8, 0x33#8, 0x34#8, 0x35#8, 0x68#8, 0x37#8, 0x36#8, 0x39#8]

/-- `MemRead(FWD, v)`: the code unit of the canonical symbol of value `v`. The index has 5 bits and the table 32 entries,
so that it is always in range (rule R51). -/
def memReadFwd (v : SymVal) : Byte := (fwdLow ++ fwdHigh).getD v.toNat 0#8

/-- The digits of rule R88: code unit, value. -/
def invDigits : List (Nat × Nat) :=
  [(0x31, 18), (0x33, 25), (0x34, 26), (0x35, 27), (0x36, 30), (0x37, 29), (0x38, 7), (0x39, 31)]

/-- The uppercase letters of rule R88: code unit, value. -/
def invUpper : List (Nat × Nat) :=
  [(0x41, 24), (0x42, 1), (0x43, 12), (0x44, 3), (0x45, 8), (0x46, 5), (0x47, 6), (0x48, 28),
   (0x49, 21), (0x4A, 9), (0x4B, 10), (0x4D, 11)] ++
  [(0x4E, 2), (0x4F, 16), (0x50, 13), (0x51, 14), (0x52, 4), (0x53, 22), (0x54, 17), (0x55, 19),
   (0x57, 20), (0x58, 15), (0x59, 0), (0x5A, 23)]

/-- The lowercase letters of rule R88: code unit, value. -/
def invLower : List (Nat × Nat) :=
  [(0x61, 24), (0x62, 1), (0x63, 12), (0x64, 3), (0x65, 8), (0x66, 5), (0x67, 6), (0x68, 28),
   (0x69, 21), (0x6A, 9), (0x6B, 10), (0x6D, 11)] ++
  [(0x6E, 2), (0x6F, 16), (0x70, 13), (0x71, 14), (0x72, 4), (0x73, 22), (0x74, 17), (0x75, 19),
   (0x77, 20), (0x78, 15), (0x79, 0), (0x7A, 23)]

/-- `MemRead(INV, u)`: `valid` and `value` of a code unit (rule R88); both are 0 for a unit that is not listed
(rule R89). -/
def memReadInv (u : Byte) : InvEntry :=
  match (invDigits ++ invUpper ++ invLower).lookup u.toNat with
  | some v => BitVec.ofNat 6 (32 + v)
  | none => 0#6

/-- The membership bit `e[5]` of an entry (rule R34). -/
def entryValid (e : InvEntry) : Bool := e.getLsbD 5

/-- The value field `e[4:0]` of an entry (rule R34). -/
def entryValue (e : InvEntry) : SymVal := e.setWidth 5

end Sys2Proof.Machine
end

