-- ==== Sys2Proof/Machine/Ops.lean ====
section
/-! DEFINITION. Machine/Ops.lean: the operations that the meanings share: reading a source stream, finishing a step,
raising a fault and leaving the faulted condition. -/

namespace Sys2Proof.Machine

/-- `low(v, n)`: `v mod 2^n` (rule R11). -/
def low (v : Acc) (n : Nat) : Acc := BitVec.ofNat 16 (v.toNat % 2 ^ n)

/-- `SrcHead(S)` (rule R54). It has no side effect. The head is unknown where the next unit has not arrived and the end
is not known either (rule R56). -/
def Stream.head (S : Stream) : Head :=
  match S.units[S.pos]? with
  | some u => .unit u
  | none => if S.ended then .ended else .unknown

/-- `SrcPop(S)` on the stream's side: `p <- p + 1` (rule R55). -/
def Stream.pop (S : Stream) : Stream := { S with pos := S.pos + 1 }

/-- The units that have arrived and were not pulled. -/
def Stream.remaining (S : Stream) : Nat := S.units.length - S.pos

/-- What every result port carries in a step that drives none: any value that its width allows (rule R82, U6). -/
def State.undriven (s : State) : Results :=
  { unitOut := Config.freeUnitOut s.portFree
    valOut := Config.freeValOut s.portFree
    validOut := Config.freeValidOut s.portFree
    scntOut := Config.freeScntOut s.portFree % 2 ^ (s.cntW + 1)
    bcntOut := Config.freeBcntOut s.portFree % 2 ^ (s.cntW + 1)
    statusOut := Config.freeStatusOut s.portFree }

/-- The end of a step that raises no fault: the result ports are `r`. -/
def State.finish (s : State) (r : Results) : State :=
  { s with out := r, raised := none, portFree := s.portFree + 1 }

/-- The end of a step of an operation that drives no result port and raises no fault. -/
def State.finishSilent (s : State) : State := s.finish s.undriven

/-- The record of a fault in the decoder's error field: it is written only where it holds none (rule R29, rule R199). -/
def DecErr.record (recorded new : DecErr) : DecErr :=
  match recorded with
  | .clear => new
  | .seq => .seq
  | .sym => .sym
  | .len => .len

/-- The record of a fault in the error field of the unit concerned (rule R191), first fault wins (rule R199). -/
def State.recordFault (c : FaultCause) (s : State) : State :=
  match c with
  | .illegalOp => { s with opErr := true }
  | .encSeq => { s with enc := { s.enc with err := true } }
  | .decSeq => { s with dec := { s.dec with err := s.dec.err.record .seq } }
  | .decSym => { s with dec := { s.dec with err := s.dec.err.record .sym } }
  | .decLen => { s with dec := { s.dec with err := s.dec.err.record .len } }

/-- Raising a fault (rule R190, rule R200): it records the fault and makes every result port of the operation
unspecified. It saves nothing, changes no mode and sends control nowhere. -/
def State.raise (c : FaultCause) (s : State) : State :=
  { s.recordFault c with out := s.undriven, raised := some c, portFree := s.portFree + 1 }

/-- The encoder leaves the faulted condition (rule R201). Only `ENC.INIT` does this. -/
def State.clearEncFault (s : State) : State := { s with enc := { s.enc with err := false } }

/-- The decoder leaves the faulted condition (rule R201). Only `DEC.INIT` does this. -/
def State.clearDecFault (s : State) : State := { s with dec := { s.dec with err := .clear } }

/-- The reset event (rule R220): every register of the block takes its reset value and a run in progress is abandoned.
The streams belong to the caller and stay as they are. -/
def State.resetBlock (s : State) : State :=
  { s with enc := .reset, dec := .reset, val := .reset, opErr := false, encRun := false, decRun := false, raised := none }

/-- What an operation that may have to hold comes to: a completed step, a hold (rule R56), or a stop. -/
inductive Attempt where
  | done (s : State)
  | hold
  | fault (f : Fault)
  | refuse (r : Refusal)
  deriving DecidableEq, Repr

/-- An operation that holds makes no state change and returns no result (rule R56). -/
def Attempt.outcome (s : State) : Attempt → Host.Outcome State Fault Refusal
  | .done t => .next t
  | .hold => .next s
  | .fault f => .fault f
  | .refuse r => .refused r

/-- Whether the operation holds. -/
def Attempt.holds : Attempt → Bool
  | .done _ => false
  | .hold => true
  | .fault _ => false
  | .refuse _ => false

end Sys2Proof.Machine
end

