-- ==== Sys2Proof/Machine/Operands.lean ====
section
/-! DEFINITION. Machine/Operands.lean: the operand ports and the result ports. Each operand is the whole of one operand
port, with no extension, scaling or shifting (rule R95); an operation drives exactly the result ports listed for it, and
every other result port is unspecified in that step (rule R82). -/

namespace Sys2Proof.Machine

/-- `val_in` (rule R82). -/
def State.valIn (s : State) : SymVal := s.ports.valIn

/-- `unit_in` (rule R82). -/
def State.unitIn (s : State) : Byte := s.ports.unitIn

/-- `bcnt_in` (rule R82). -/
def State.bcntIn (s : State) : Nat := s.ports.bcntIn

/-- `scnt_in` (rule R82). -/
def State.scntIn (s : State) : Nat := s.ports.scntIn

/-- A step that drives `unit_out` alone. -/
def State.driveUnit (s : State) (u : Byte) : State := s.finish { s.undriven with unitOut := u }

/-- A step that drives `val_out` and `valid_out`. -/
def State.driveValue (s : State) (v : SymVal) (valid : Bool) : State :=
  s.finish { s.undriven with valOut := v, validOut := valid }

/-- A step that drives `valid_out` alone. -/
def State.driveValid (s : State) (valid : Bool) : State := s.finish { s.undriven with validOut := valid }

/-- A step that drives `scnt_out` alone. -/
def State.driveSymbolCount (s : State) (k : Nat) : State := s.finish { s.undriven with scntOut := k }

/-- A step that drives `bcnt_out` and `valid_out`. -/
def State.driveByteCount (s : State) (n : Nat) (valid : Bool) : State :=
  s.finish { s.undriven with bcntOut := n, validOut := valid }

/-- A step that drives `status_out` alone. -/
def State.driveStatus (s : State) (w : BitVec 8) : State := s.finish { s.undriven with statusOut := w }

/-- The caller puts operands on the ports. -/
def State.present (s : State) (p : OperandPorts) : State := { s with ports := p }

end Sys2Proof.Machine
end

