-- ==== Sys2Proof/Machine/AlphabetLut.lean ====
section
/-! DEFINITION. Machine/AlphabetLut.lean: the alphabet_lut operations (spec/40_alphabet_lut.md). -/

namespace Sys2Proof.Machine

/-- `LUT.FWD`: the symbol of a value (rule R110). -/
def execLutFwd (s : State) : Host.Outcome State Fault Refusal :=
  .next (s.driveUnit (memReadFwd s.valIn))

/-- `LUT.INV`: the value of a code unit with its membership bit (rule R111). -/
def execLutInv (s : State) : Host.Outcome State Fault Refusal :=
  let e := memReadInv s.unitIn
  .next (s.driveValue (entryValue e) (entryValid e))

end Sys2Proof.Machine
end

