-- ==== Sys2Proof/Machine/Decoder.lean ====
section
/-! DEFINITION. Machine/Decoder.lean: the decoder's operations (spec/44_decoder.md). -/

namespace Sys2Proof.Machine

/-- What `DecRefill` comes to: it returns with the context and the stream it reached, it raises `DEC_LEN` or `DEC_SYM`
there, or it needs a head that is not known yet. -/
inductive Refill where
  | settled (d : DecCtx) (S : Stream)
  | lengthFault (d : DecCtx) (S : Stream)
  | symbolFault (d : DecCtx) (S : Stream)
  | hold
  deriving DecidableEq, Repr

/-- The bits of a symbol value appended below those held (rule R163). -/
def DecCtx.append (d : DecCtx) (v : SymVal) : DecCtx :=
  { d with acc := d.acc <<< 5 ||| v.setWidth 16, cnt := BitVec.ofNat 4 (d.cnt.toNat + 5) }

/-- `DecRefill` with at most `pulls` pulls (rule R163). Two are enough from any count. -/
def decRefill : Nat → DecCtx → Stream → Refill
  | 0, d, S => .settled d S
  | pulls + 1, d, S =>
    if 8 ≤ d.cnt.toNat then .settled d S
    else
      match S.head with
      | .ended => if 5 ≤ d.cnt.toNat then .lengthFault d S else .settled d S
      | .unknown => .hold
      | .unit u =>
        let d' := { d with pos := d.pos + 1 }
        if entryValid (memReadInv u) then decRefill pulls (d'.append (entryValue (memReadInv u))) S.pop
        else .symbolFault d' S.pop

/-- A state in which a decoder run has begun or goes on: the decoder context and its stream are replaced. -/
def State.withDec (s : State) (d : DecCtx) (S : Stream) : State := { s with dec := d, dsrc := S }

/-- After `DEC_SYM`, `dec_acc` and `dec_cnt` are unspecified until the next `DEC.INIT` or reset (rule R195, U5). -/
def State.loseDecBits (s : State) : State :=
  { s with
    dec := { s.dec with acc := Config.freeDecAcc s.decFree, cnt := Config.freeDecCnt s.decFree }
    decFree := s.decFree + 1 }

/-- The end of an operation that refills (rule R163, rule R195, rule R196). -/
def settleRefill (s : State) : Refill → Attempt
  | .settled d S => .done (s.withDec d S).finishSilent
  | .lengthFault d S => .done ((s.withDec d S).raise .decLen)
  | .symbolFault d S => .done ((s.withDec d S).loseDecBits.raise .decSym)
  | .hold => .hold

/-- Why the model gives a read of the head of `DSRC` no meaning in the middle of a run: the caller has changed what was
not read (rule R227, U8), or the run is longer than `dec_pos` can count (rule R53, U9). -/
def State.decSourceStop (s : State) : Option Refusal :=
  if s.decRun = false then some .sourceChanged
  else if Config.maxSymbols s.cntW < s.dec.pos + s.dsrc.remaining then some .streamTooLong
  else none

/-- `DEC.INIT` up to the hold (rule R160). -/
def attemptDecInit (s : State) : Attempt :=
  if Config.maxSymbols s.cntW < s.dsrc.remaining then .refuse .streamTooLong
  else
    let t := { s.clearDecFault with decRun := true }
    settleRefill t (decRefill 2 { t.dec with acc := 0#16, cnt := 0#4, pos := 0 } s.dsrc)

/-- `DEC.INIT`: seed the decoder from the head of `DSRC` (rule R160). -/
def execDecInit (s : State) : Host.Outcome State Fault Refusal := (attemptDecInit s).outcome s

/-- The current byte, `dec_acc[dec_cnt-1 : dec_cnt-8]` (rule R161). -/
def DecCtx.current (d : DecCtx) : Byte := d.acc.extractLsb' (d.cnt.toNat - 8) 8

/-- `DEC.CUR`: read the current byte (rule R161). In a faulted run `unit_out` is unspecified (U7). -/
def execDecCur (s : State) : Host.Outcome State Fault Refusal :=
  if s.dec.err ≠ .clear then .next s.finishSilent
  else if s.dec.cnt.toNat < 8 then .next (s.raise .decSeq)
  else .next (s.driveUnit s.dec.current)

/-- `DEC.ADV` in a faulted run: the effect on `dec_acc`, `dec_cnt`, `dec_pos` and `DSRC` is unspecified, and `dec_err`
stays (rule R162, U7). A position is one of its register or stream (rule R30, rule R53). -/
def State.scrambleDec (s : State) : State :=
  { s with
    dec := { s.dec with
      acc := Config.freeDecAcc s.decFree
      cnt := Config.freeDecCnt s.decFree
      pos := Config.freeDecPos s.decFree % 2 ^ (s.cntW + 1) }
    dsrc := { s.dsrc with pos := Config.freeDsrcPos s.decFree % (s.dsrc.units.length + 1) }
    decFree := s.decFree + 1 }

/-- The decoder context after the discard of the current byte's eight bits (rule R162). -/
def DecCtx.discard (d : DecCtx) : DecCtx :=
  { d with acc := low d.acc (d.cnt.toNat - 8), cnt := BitVec.ofNat 4 (d.cnt.toNat - 8) }

/-- `DEC.ADV` up to the hold (rule R162). -/
def attemptDecAdv (s : State) : Attempt :=
  if s.dec.err ≠ .clear then .done s.scrambleDec.finishSilent
  else if s.dec.cnt.toNat < 8 then .done (s.raise .decSeq)
  else
    match s.decSourceStop with
    | some r => .refuse r
    | none => settleRefill s (decRefill 2 s.dec.discard s.dsrc)

/-- `DEC.ADV`: discard the current byte's eight bits, then refill (rule R162). -/
def execDecAdv (s : State) : Host.Outcome State Fault Refusal := (attemptDecAdv s).outcome s

end Sys2Proof.Machine
end

