-- ==== Sys2Proof/Machine/Encoder.lean ====
section
/-! DEFINITION. Machine/Encoder.lean: the encoder's operations (spec/43_encoder.md). -/

namespace Sys2Proof.Machine

/-- A state in which an encoder run has begun or goes on: the encoder context and its stream are replaced. -/
def State.withEnc (s : State) (e : EncCtx) (S : Stream) : State := { s with enc := e, esrc := S }

/-- Why the model gives a read of the head of `ESRC` no meaning in the middle of a run: the caller has changed what was
not read (rule R227, U8), or the run is longer than `enc_pos` can count (rule R53, U9). -/
def State.encSourceStop (s : State) : Option Refusal :=
  if s.encRun = false then some .sourceChanged
  else if Config.maxBytes s.cntW < s.enc.pos + s.esrc.remaining then some .streamTooLong
  else none

/-- `ENC.INIT` up to the hold (rule R140). -/
def attemptEncInit (s : State) : Attempt :=
  if Config.maxBytes s.cntW < s.esrc.remaining then .refuse .streamTooLong
  else
    let t := { s.clearEncFault with encRun := true }
    match s.esrc.head with
    | .unknown => .hold
    | .unit b =>
      .done (t.withEnc { t.enc with acc := b.setWidth 16, cnt := 8#4, term := false, pos := 1 } s.esrc.pop).finishSilent
    | .ended => .done (t.withEnc { t.enc with acc := 0#16, cnt := 0#4, term := false, pos := 0 } s.esrc).finishSilent

/-- `ENC.INIT`: seed the encoder from the head of `ESRC` (rule R140). -/
def execEncInit (s : State) : Host.Outcome State Fault Refusal := (attemptEncInit s).outcome s

/-- The current symbol's value, `enc_acc[enc_cnt-1 : enc_cnt-5]` (rule R141). -/
def EncCtx.current (e : EncCtx) : SymVal := e.acc.extractLsb' (e.cnt.toNat - 5) 5

/-- `ENC.CUR`: read the current symbol (rule R141). -/
def execEncCur (s : State) : Host.Outcome State Fault Refusal :=
  if s.enc.cnt.toNat = 0 then .next (s.raise .encSeq)
  else if s.enc.cnt.toNat < 5 then .fault .encCountBelowFive
  else .next (s.driveUnit (memReadFwd s.enc.current))

/-- `ENC.ADV` after the discard, where fewer than five bits remain (rule R142): `c` bits, `a`. -/
def attemptEncRefill (s : State) (c : Nat) (a : Acc) : Attempt :=
  match s.encSourceStop with
  | some r => .refuse r
  | none =>
    match s.esrc.head with
    | .unknown => .hold
    | .unit b =>
      .done (s.withEnc { s.enc with acc := a <<< 8 ||| b.setWidth 16, cnt := BitVec.ofNat 4 (c + 8), pos := s.enc.pos + 1 }
        s.esrc.pop).finishSilent
    | .ended =>
      if 0 < c then .done (s.withEnc { s.enc with acc := a <<< (5 - c), cnt := 5#4, term := true } s.esrc).finishSilent
      else .done (s.withEnc { s.enc with acc := 0#16, cnt := 0#4 } s.esrc).finishSilent

/-- The encoder context after the discard of the current symbol's five bits (rule R142). -/
def EncCtx.discard (e : EncCtx) : EncCtx :=
  { e with acc := low e.acc (e.cnt.toNat - 5), cnt := BitVec.ofNat 4 (e.cnt.toNat - 5) }

/-- `ENC.ADV` up to the hold (rule R142). -/
def attemptEncAdv (s : State) : Attempt :=
  if s.enc.cnt.toNat = 0 then .done (s.raise .encSeq)
  else if s.enc.cnt.toNat < 5 then .fault .encCountBelowFive
  else
    if 5 ≤ s.enc.cnt.toNat - 5 then .done (s.withEnc s.enc.discard s.esrc).finishSilent
    else attemptEncRefill s (s.enc.cnt.toNat - 5) s.enc.discard.acc

/-- `ENC.ADV`: discard the current symbol's five bits and make the next symbol ready (rule R142). -/
def execEncAdv (s : State) : Host.Outcome State Fault Refusal := (attemptEncAdv s).outcome s

end Sys2Proof.Machine
end

