-- ==== Sys2Proof/Machine/Housekeeping.lean ====
section
/-! DEFINITION. Machine/Housekeeping.lean: the housekeeping operations (spec/45_system.md) and the reserved code. -/

namespace Sys2Proof.Machine

/-- `IDLE`: no operation (rule R180). -/
def execIdle (s : State) : Host.Outcome State Fault Refusal := .next s.finishSilent

/-- `STATUS.RD`: read the status register, clearing nothing (rule R181). -/
def execStatusRd (s : State) : Host.Outcome State Fault Refusal := .next (s.driveStatus s.status)

/-- The reserved code: it raises `ILLEGAL_OP` (rule R84, rule R192). -/
def execReserved (s : State) : Host.Outcome State Fault Refusal := .next (s.raise .illegalOp)

end Sys2Proof.Machine
end

