-- ==== Sys2Proof/Machine/LengthPredicates.lean ====
section
/-! DEFINITION. Machine/LengthPredicates.lean: the length_predicates operations (spec/41_length_predicates.md). All
quantities are computed exactly, with no wrap-around (rule R122). -/

namespace Sys2Proof.Machine

/-- The number of symbols that encode `n` bytes (rule R120). -/
def encodedLength (n : Nat) : Nat := (8 * n + 4) / 5

/-- The number of bytes that `k` symbols decode to, and whether any encoding has `k` symbols (rule R121). -/
def decodedLength (k : Nat) : Nat × Bool :=
  let bits := 5 * k
  if bits % 8 < 5 then (bits / 8, true) else (0, false)

/-- `LEN.ENC` (rule R120). -/
def execLenEnc (s : State) : Host.Outcome State Fault Refusal :=
  .next (s.driveSymbolCount (encodedLength s.bcntIn))

/-- `LEN.DEC` (rule R121). -/
def execLenDec (s : State) : Host.Outcome State Fault Refusal :=
  .next (s.driveByteCount (decodedLength s.scntIn).1 (decodedLength s.scntIn).2)

end Sys2Proof.Machine
end

