-- ==== Sys2Proof/Machine/Validator.lean ====
section
/-! DEFINITION. Machine/Validator.lean: the validator's operations (spec/42_validator.md). -/

namespace Sys2Proof.Machine

/-- `VAL.INIT`: begin validating a new sequence (rule R130). -/
def execValInit (s : State) : Host.Outcome State Fault Refusal :=
  .next { s with val := { ok := true, cnt := 0#3 } }.finishSilent

/-- `VAL.PUSH`: account for the next code unit (rule R131). The membership test uses the stored membership bit, never
the value, and the count wraps from 7 to 0. -/
def execValPush (s : State) : Host.Outcome State Fault Refusal :=
  let e := memReadInv s.unitIn
  .next { s with val := { ok := s.val.ok && entryValid e, cnt := s.val.cnt + 1#3 } }.finishSilent

/-- `VAL.RES`: the verdict on the units pushed so far (rule R132). -/
def execValRes (s : State) : Host.Outcome State Fault Refusal :=
  .next (s.driveValid s.val.verdict)

end Sys2Proof.Machine
end

