-- ==== Sys2Proof/Machine/Dispatch.lean ====
section
/-! DEFINITION. Machine/Dispatch.lean: one arm for each operation. -/

namespace Sys2Proof.Machine

def exec (i : Instr) (s : State) : Host.Outcome State Fault Refusal :=
  match i with
  | .idle => Sys2Proof.Machine.execIdle s
  | .lutFwd => Sys2Proof.Machine.execLutFwd s
  | .lutInv => Sys2Proof.Machine.execLutInv s
  | .lenEnc => Sys2Proof.Machine.execLenEnc s
  | .lenDec => Sys2Proof.Machine.execLenDec s
  | .valInit => Sys2Proof.Machine.execValInit s
  | .valPush => Sys2Proof.Machine.execValPush s
  | .valRes => Sys2Proof.Machine.execValRes s
  | .encInit => Sys2Proof.Machine.execEncInit s
  | .encCur => Sys2Proof.Machine.execEncCur s
  | .encAdv => Sys2Proof.Machine.execEncAdv s
  | .decInit => Sys2Proof.Machine.execDecInit s
  | .decCur => Sys2Proof.Machine.execDecCur s
  | .decAdv => Sys2Proof.Machine.execDecAdv s
  | .statusRd => Sys2Proof.Machine.execStatusRd s
  | .reserved => Sys2Proof.Machine.execReserved s

end Sys2Proof.Machine
end

