-- ==== Sys2Proof/Machine/Caller.lean ====
section
/-! DEFINITION. Machine/Caller.lean: the caller and the environment around the block: what holds an operation, what an
arrival does, and what each thing the caller does comes to (spec/20_memory.md, rule R223). -/

namespace Sys2Proof.Machine

/-- Whether an operation holds in a state: it needs the head of its stream and the environment has not supplied it
(rule R56). Only the four operations that read a stream can. -/
def holds (i : Instr) (s : State) : Bool :=
  match i with
  | .idle => false
  | .lutFwd => false
  | .lutInv => false
  | .lenEnc => false
  | .lenDec => false
  | .valInit => false
  | .valPush => false
  | .valRes => false
  | .encInit => (attemptEncInit s).holds
  | .encCur => false
  | .encAdv => (attemptEncAdv s).holds
  | .decInit => (attemptDecInit s).holds
  | .decCur => false
  | .decAdv => (attemptDecAdv s).holds
  | .statusRd => false
  | .reserved => false

/-- A unit arrives at the end of a stream. -/
def Stream.arrive (S : Stream) (b : Byte) : Stream := { S with units := S.units ++ [b] }

/-- The caller sets `ESRC` (rule R53). A run in progress over the old contents is over (rule R227). -/
def State.setEsrc (s : State) (units : List Byte) (ended : Bool) : State :=
  { s with esrc := { units := units, pos := 0, ended := ended }, encRun := false }

/-- The caller sets `DSRC` (rule R53). A run in progress over the old contents is over (rule R227). -/
def State.setDsrc (s : State) (units : List Byte) (ended : Bool) : State :=
  { s with dsrc := { units := units, pos := 0, ended := ended }, decRun := false }

/-- The caller stores a byte at position `i` of the storage that holds `DSRC`. Below the read position the store has no
effect on a run (rule R70); at or beyond it the unread part is changed (rule R227); past the end it meets no unit. -/
def State.storeDsrc (s : State) (i : Nat) (b : Byte) : State :=
  { s with
    dsrc := { s.dsrc with units := s.dsrc.units.set i b }
    decRun := s.decRun && !(decide (s.dsrc.pos ≤ i) && decide (i < s.dsrc.units.length)) }

/-- What comes while an operation holds (log entries 12 and 22). A unit after the end indication changes the end of the
stream, and a run in progress over it has no meaning from then (rule R227). The caller's actions and the reset event do
what they do between operations; a reset with `withdraw` also takes the operation that holds, the first thing the caller
was doing, away. -/
def State.deliver (s : State) : Arrival → State
  | .esrcUnit b => { s with esrc := s.esrc.arrive b, encRun := s.encRun && !s.esrc.ended }
  | .esrcEnd => { s with esrc := { s.esrc with ended := true } }
  | .dsrcUnit b => { s with dsrc := s.dsrc.arrive b, decRun := s.decRun && !s.dsrc.ended }
  | .dsrcEnd => { s with dsrc := { s.dsrc with ended := true } }
  | .setEsrc units ended => s.setEsrc units ended
  | .setDsrc units ended => s.setDsrc units ended
  | .storeDsrc i b => s.storeDsrc i b
  | .reset withdraw => { s.resetBlock with caller := if withdraw then s.caller.tail else s.caller }

/-- An issued operation whose ports carry it: while it holds it stays issued, and what is next to come comes; otherwise
it is executed and the caller goes on (rule R56, rule R66). `rest` is what the caller does afterwards. DESIGN CHOICE: one
thing comes in one step, and what comes during a hold stands in `arrivals`, not in the caller's list, whose next entry
waits for the operation to complete or to be withdrawn by a reset (log entries 12 and 22). -/
def State.runIssue (s : State) (x : Issue) (rest : List CallerEvent) : Host.Outcome State Fault Refusal :=
  let t := s.present x.ports
  if holds (decodeWord x.op) t then
    match s.arrivals with
    | [] => .next s
    | a :: as => .next (State.deliver { s with arrivals := as } a)
  else exec (decodeWord x.op) { t with caller := rest }

/-- One thing the caller does. `rest` is what it does afterwards. -/
def State.callerStep (s : State) (e : CallerEvent) (rest : List CallerEvent) : Host.Outcome State Fault Refusal :=
  match e with
  | .issue x => if x.wellFormed s.cntW then s.runIssue x rest else .refused .illFormedIssue
  | .setEsrc units ended => .next (State.setEsrc { s with caller := rest } units ended)
  | .setDsrc units ended => .next (State.setDsrc { s with caller := rest } units ended)
  | .storeDsrc i b => .next (State.storeDsrc { s with caller := rest } i b)
  | .reset => .next (State.resetBlock { s with caller := rest })

/-- The issue by which the caller presents the low four bits of `w`, with the operand ports as they stand. -/
def State.issueOf (s : State) (w : Nat) : Issue := { op := BitVec.ofNat 4 w, ports := s.ports }

end Sys2Proof.Machine
end

