-- ==== Sys2Proof/Machine/Step.lean ====
section
/-! DEFINITION. Machine/Step.lean: one step of the machine. The block fetches nothing and has no program counter
(rule R40): a step is one thing that the caller does, and where the caller does nothing, nothing happens. -/

namespace Sys2Proof.Machine

/-- One step. -/
def step (s : State) : Host.Outcome State Fault Refusal :=
  match s.caller with
  | [] => .next s
  | e :: rest => s.callerStep e rest

/-- The caller issues the operation word `w` next, with the operand ports as they stand. The row's word has `nbits`
bits of which the operation port carries the low four (rule R80); log entry 14. -/
def State.withFetchWord (s : State) (_nbits w : Nat) : State :=
  { s with caller := .issue (s.issueOf w) :: s.caller }

end Sys2Proof.Machine
end

