-- ==== Sys2Proof/Machine/Pseudo.lean ====
section
/-! DEFINITION. Machine/Pseudo.lean: the pseudo-operations of rules R100 to R104: fixed sequences of the block's
operations, which the caller issues. They call `exec` and nothing below it. -/

namespace Sys2Proof.Machine

/-- One thing after another; a stop is passed on. -/
def andThen {α β : Type} (o : Host.Outcome α Fault Refusal) (f : α → Host.Outcome β Fault Refusal) :
    Host.Outcome β Fault Refusal :=
  match o with
  | .next a => f a
  | .fault r => .fault r
  | .refused r => .refused r

/-- What an emission comes to. The second is the model's own (log entry 23). -/
inductive Emission where
  /-- `CUR` has read the unit, and `ADV` has completed. -/
  | emitted (u : Byte) (s : State)
  /-- `CUR` has read the unit, and `ADV` holds (rule R56): it is still to be completed. -/
  | held (u : Byte) (s : State)
  deriving DecidableEq, Repr

/-- `CUR` followed by `ADV` (rule R100). DESIGN CHOICE: where `ADV` holds the emission ends as `held`, with the unit read
and no advance made, since the pseudo-operation cannot wait for what the environment supplies (log entry 23). -/
def emit (cur adv : Instr) (s : State) : Host.Outcome Emission Fault Refusal :=
  andThen (exec cur s) fun a =>
    if holds adv a then .next (.held a.out.unitOut a)
    else andThen (exec adv a) fun b => .next (.emitted a.out.unitOut b)

/-- `ENC.EMIT -> s` (rule R100). -/
def encEmit (s : State) : Host.Outcome Emission Fault Refusal := emit .encCur .encAdv s

/-- `DEC.EMIT -> b` (rule R100). -/
def decEmit (s : State) : Host.Outcome Emission Fault Refusal := emit .decCur .decAdv s

/-- How a loop of the caller's ends. Two are the model's own: `held`, an emission in it holds (log entry 23; never over
a source whose end is known), and `outOfFuel`, the number of rounds given to the loop was too small. -/
inductive LoopEnd where
  | finished
  | faulted
  | held
  | outOfFuel
  deriving DecidableEq, Repr

/-- The loop of `TO_BASE32Z` (rule R101), `rounds` rounds at most. -/
def encodeLoop : Nat → List Byte → State → Host.Outcome (LoopEnd × List Byte × State) Fault Refusal
  | 0, out, s => .next (.outOfFuel, out, s)
  | rounds + 1, out, s =>
    andThen (exec .statusRd s) fun a =>
      if a.out.statusOut.getLsbD 0 then .next (.finished, out, a)
      else
        andThen (encEmit a) fun e =>
          match e with
          | .emitted u b => encodeLoop rounds (out ++ [u]) b
          | .held u b => .next (.held, out ++ [u], b)

/-- `TO_BASE32Z(B)` (rule R101). -/
def toBase32z (B : List Byte) (s : State) : Host.Outcome (LoopEnd × List Byte × State) Fault Refusal :=
  andThen (exec .encInit (s.setEsrc B true)) fun a => encodeLoop (encodedLength B.length + 1) [] a

/-- The loop of `FROM_BASE32Z` (rule R102), `rounds` rounds at most. -/
def decodeLoop : Nat → List Byte → State → Host.Outcome (LoopEnd × List Byte × State) Fault Refusal
  | 0, out, s => .next (.outOfFuel, out, s)
  | rounds + 1, out, s =>
    andThen (exec .statusRd s) fun a =>
      if a.out.statusOut.extractLsb' 4 2 ≠ 0#2 then .next (.faulted, out, a)
      else if a.out.statusOut.getLsbD 3 then .next (.finished, out, a)
      else
        andThen (decEmit a) fun e =>
          match e with
          | .emitted u b => decodeLoop rounds (out ++ [u]) b
          | .held u b => .next (.held, out ++ [u], b)

/-- `FROM_BASE32Z(S)` (rule R102). -/
def fromBase32z (S : List Byte) (s : State) : Host.Outcome (LoopEnd × List Byte × State) Fault Refusal :=
  andThen (exec .decInit (s.setDsrc S true)) fun a => decodeLoop (5 * S.length / 8 + 1) [] a

/-- `VAL.PUSH u` for each unit of a sequence, in order (rule R103). -/
def pushAll : List Byte → State → Host.Outcome State Fault Refusal
  | [], s => .next s
  | u :: us, s => andThen (exec .valPush (s.present { s.ports with unitIn := u })) fun a => pushAll us a

/-- `IS_BASE32Z(S)` (rule R103). -/
def isBase32z (S : List Byte) (s : State) : Host.Outcome (Bool × State) Fault Refusal :=
  andThen (exec .valInit s) fun a =>
    andThen (pushAll S a) fun b => andThen (exec .valRes b) fun c => .next (c.out.validOut, c)

/-- `TO_BASE32Z_SIZE n`, another name for `LEN.ENC n` (rule R104). -/
def toBase32zSize (n : Nat) (s : State) : Host.Outcome State Fault Refusal :=
  exec .lenEnc (s.present { s.ports with bcntIn := n })

/-- `FROM_BASE32Z_SIZE k`, another name for `LEN.DEC k` (rule R104). -/
def fromBase32zSize (k : Nat) (s : State) : Host.Outcome State Fault Refusal :=
  exec .lenDec (s.present { s.ports with scntIn := k })

/-- A run up to its `n`-th advance: `INIT`, then `ADV` `n` times. -/
def runTo (init adv : Instr) : Nat → State → Host.Outcome State Fault Refusal
  | 0, s => exec init s
  | n + 1, s => andThen (runTo init adv n s) (exec adv)

end Sys2Proof.Machine
end

