-- ==== Sys2Proof/Safety.lean ====
section
/-! DEFINITION. Safety.lean: the terms that claims use: what a finished run is, what two states have in common, the
bit strings of rule R13 with the sequences they spell, and the invariant. -/

namespace Sys2Proof.Machine

/-- An alphabet unit (rule R15). -/
def AlphabetUnit (u : Byte) : Bool := entryValid (memReadInv u)

/-! ### Runs (rule R231) -/

/-- An encoder run that is finished (rule R231). -/
def State.encFinished (s : State) : Prop := s.encRun = true ∧ s.enc.cnt = 0#4 ∧ s.enc.err = false

/-- A decoder run that is finished (rule R231). -/
def State.decFinished (s : State) : Prop := s.decRun = true ∧ s.dec.cnt.toNat < 8 ∧ s.dec.err = .clear

/-- The encoder can go on with its run: the unread source is as it was (rule R227), and it is not longer than admitted
(rule R53). -/
def State.encReady (s : State) : Prop :=
  s.encRun = true ∧ s.enc.pos + s.esrc.remaining ≤ Config.maxBytes s.cntW

/-- The decoder can go on with its run: the unread source is as it was, and it is not longer than admitted. -/
def State.decReady (s : State) : Prop :=
  s.decRun = true ∧ s.dec.pos + s.dsrc.remaining ≤ Config.maxSymbols s.cntW

/-- The heads that a refill from `c` bits needs are known (rule R163): it needs one where it holds fewer than 8 bits, and
a second where it holds fewer than 8 bits after the first, which is not so after a unit outside the alphabet. -/
def HeadsKnown (c : Nat) (S : Stream) : Prop :=
  match S.units.drop S.pos with
  | [] => S.ended = true
  | [u] => 3 ≤ c ∨ AlphabetUnit u = false ∨ S.ended = true
  | _ :: _ :: _ => True

/-- Every head that the operation needs in this state is known (rule R56). -/
def HeadsKnownFor (i : Instr) (s : State) : Prop :=
  match i with
  | .encInit => s.esrc.pos < s.esrc.units.length ∨ s.esrc.ended = true
  | .encAdv => s.enc.cnt.toNat < 5 ∨ 10 ≤ s.enc.cnt.toNat ∨ s.esrc.pos < s.esrc.units.length ∨ s.esrc.ended = true
  | .decInit => HeadsKnown 0 s.dsrc
  | .decAdv => s.dec.err ≠ .clear ∨ s.dec.cnt.toNat < 8 ∨ HeadsKnown (s.dec.cnt.toNat - 8) s.dsrc
  | .idle | .lutFwd | .lutInv | .lenEnc | .lenDec | .valInit | .valPush | .valRes => True
  | .encCur | .decCur | .statusRd | .reserved => True

/-! ### What two states have in common -/

/-- `t` differs from `s` in what the result ports carry, in the fault event and in the ports' free values at most: every
register of every unit, both streams and all of the environment are as in `s`. -/
def Quiet (s t : State) : Prop := t = { s with out := t.out, raised := t.raised, portFree := t.portFree }

/-- `t` differs from `s` in the encoder context, in the read position of `ESRC` and in what `Quiet` allows at most. -/
def EncOnly (s t : State) : Prop :=
  Quiet { s with enc := t.enc, esrc := { s.esrc with pos := t.esrc.pos }, encRun := t.encRun } t

/-- `t` differs from `s` in the decoder context, in the read position of `DSRC`, in the decoder's free values and in
what `Quiet` allows at most. -/
def DecOnly (s t : State) : Prop :=
  Quiet { s with dec := t.dec, dsrc := { s.dsrc with pos := t.dsrc.pos }, decRun := t.decRun, decFree := t.decFree } t

/-- `t` differs from `s` in the validator context and in what `Quiet` allows at most. -/
def ValOnly (s t : State) : Prop := Quiet { s with val := t.val } t

/-- Two states agree on everything but the ports, the fault event and the ports' free values. -/
def SameMachine (a b : State) : Prop :=
  b = { a with ports := b.ports, out := b.out, raised := b.raised, portFree := b.portFree }

/-- The operation drives its result ports in this state: it raises no fault, and the run it reads is not faulted. -/
def DrivesIn (i : Instr) (s : State) : Prop :=
  match i with
  | .encCur => s.enc.cnt ≠ 0#4
  | .decCur => s.dec.err = .clear ∧ 8 ≤ s.dec.cnt.toNat
  | .idle | .lutFwd | .lutInv | .lenEnc | .lenDec | .valInit | .valPush | .valRes => True
  | .encInit | .encAdv | .decInit | .decAdv | .statusRd => True
  | .reserved => False

/-- The result ports that rule R82 lists for an operation carry the same. -/
def SameResults (i : Instr) (a b : Results) : Prop :=
  match i with
  | .lutFwd | .encCur | .decCur => a.unitOut = b.unitOut
  | .lutInv => a.valOut = b.valOut ∧ a.validOut = b.validOut
  | .lenEnc => a.scntOut = b.scntOut
  | .lenDec => a.bcntOut = b.bcntOut ∧ a.validOut = b.validOut
  | .valRes => a.validOut = b.validOut
  | .statusRd => a.statusOut = b.statusOut
  | .idle | .valInit | .valPush | .encInit | .encAdv | .decInit | .decAdv | .reserved => True

/-- A change of a state carried through an outcome. -/
def mapNext (f : State → State) (o : Host.Outcome State Fault Refusal) : Host.Outcome State Fault Refusal :=
  andThen o fun t => .next (f t)

/-- The operation code and the format of an operation (rule R83), as its own rule repeats them. -/
def Encoded (op : OpWord) (f : Format) (i : Instr) : Prop := decodeWord op = i ∧ encode i = op ∧ i.format = f

/-! ### Sequences and bit strings -/

/-- The other case of a letter; any other unit is left as it is (rule R87). -/
def otherCase (u : Byte) : Byte :=
  if 0x41 ≤ u.toNat ∧ u.toNat ≤ 0x5A then u + 0x20#8
  else if 0x61 ≤ u.toNat ∧ u.toNat ≤ 0x7A then u - 0x20#8
  else u

/-- The canonical form of a unit: lowercase (rule R87). -/
def canonicalUnit (u : Byte) : Byte := if 0x41 ≤ u.toNat ∧ u.toNat ≤ 0x5A then u + 0x20#8 else u

/-- The alphabet as one string in index order, `ybndrfg8ejkmcpqxot1uwisza345h769` (rule R86). -/
def alphabetGlyphs : List Char :=
  ['y', 'b', 'n', 'd', 'r', 'f', 'g', '8', 'e', 'j', 'k', 'm', 'c', 'p', 'q', 'x'] ++
  ['o', 't', '1', 'u', 'w', 'i', 's', 'z', 'a', '3', '4', '5', 'h', '7', '6', '9']

/-- `FWD` holds the character codes of the alphabet in index order (rule R86). -/
def FwdIsTheAlphabet : Prop := ∀ v : SymVal, some (memReadFwd v).toNat = alphabetGlyphs[v.toNat]?.map Char.toNat

/-- `INV` holds, at a unit whose lowercase form is a glyph of the alphabet, that glyph's index with `valid = 1`
(rule R88), and 0 with `valid = 0` at every other unit (rule R89). -/
def InvIsTheInverse : Prop :=
  ∀ u : Byte, memReadInv u =
    match alphabetGlyphs.findIdx? fun c => c.toNat == (canonicalUnit u).toNat with
    | some v => 1#1 ++ BitVec.ofNat 5 v
    | none => 0#1 ++ 0#5

/-- A valid sequence: every unit is an alphabet unit and the length is achievable (rule R133). -/
def ValidSequence (S : List Byte) : Prop :=
  (∀ u ∈ S, AlphabetUnit u = true) ∧ S.length % 8 ≠ 1 ∧ S.length % 8 ≠ 3 ∧ S.length % 8 ≠ 6

/-- Bit `t` of the bit string of a byte sequence, zeros after its end (rule R13, rule R143). -/
def byteBit (B : List Byte) (t : Nat) : Bool := (B.getD (t / 8) 0#8).getLsbD (7 - t % 8)

/-- Bit `t` of the string of symbol values, zeros after its end (rule R164). -/
def symbolBit (S : List Byte) (t : Nat) : Bool :=
  (entryValue (memReadInv (S.getD (t / 5) 0x79#8))).getLsbD (4 - t % 5)

/-- The number that `n` bits of a string spell, most significant first, from position `t`. -/
def bitsNumber (W : Nat → Bool) (t : Nat) : Nat → Nat
  | 0 => 0
  | n + 1 => 2 * bitsNumber W t n + (W (t + n)).toNat

/-- The `i`-th symbol of the encoding of `B`: `FWD[v_i]` (rule R143). -/
def encodedSymbol (B : List Byte) (i : Nat) : Byte := memReadFwd (BitVec.ofNat 5 (bitsNumber (byteBit B) (5 * i) 5))

/-- The `j`-th byte that `S` decodes to (rule R164). -/
def decodedByte (S : List Byte) (j : Nat) : Byte := BitVec.ofNat 8 (bitsNumber (symbolBit S) (8 * j) 8)

/-- The encoding of `B`: `ceil(8n/5)` symbols (rule R143, rule R144). -/
def encodedSequence (B : List Byte) : List Byte := (List.range ((8 * B.length + 4) / 5)).map (encodedSymbol B)

/-- The bytes that a valid `S` decodes to: `(5k) div 8` of them (rule R164). -/
def decodedSequence (S : List Byte) : List Byte := (List.range (5 * S.length / 8)).map (decodedByte S)

/-! ### The invariant -/

/-- What every step keeps. Rule R37 (canonical accumulators), rule R38 (count ranges), rule R25 and rule R30 (the
position registers fit), rule R23, rule R26, rule R31 (an exhausted cursor has pulled all of its source), rule R53 (a
position is one of its stream). What it says of the decoder's accumulator is said where no fault is recorded. -/
structure State.Inv (s : State) : Prop where
  width      : 1 ≤ s.cntW
  portsFit   : s.ports.fit s.cntW = true
  encRange   : s.enc.cnt = 0#4 ∨ (5 ≤ s.enc.cnt.toNat ∧ s.enc.cnt.toNat ≤ 12)
  encCanon   : s.enc.acc.toNat < 2 ^ s.enc.cnt.toNat
  encPosFits : s.enc.pos < 2 ^ s.cntW
  encErrDone : s.enc.err = true → s.enc.cnt = 0#4
  encTermCnt : s.enc.term = true → s.enc.cnt = 0#4 ∨ s.enc.cnt = 5#4
  encPosRead : s.encRun = true → s.enc.pos ≤ s.esrc.pos
  encAllRead : s.encRun = true → s.enc.cnt = 0#4 ∨ s.enc.term = true → s.esrc.head = .ended
  decRange   : s.dec.err = .clear → s.dec.cnt.toNat ≤ 4 ∨ (8 ≤ s.dec.cnt.toNat ∧ s.dec.cnt.toNat ≤ 12)
  decCanon   : s.dec.err = .clear → s.dec.acc.toNat < 2 ^ s.dec.cnt.toNat
  decPosFits : s.dec.pos < 2 ^ (s.cntW + 1)
  decPosRead : s.decRun = true → s.dec.err = .clear → s.dec.pos ≤ s.dsrc.pos
  decAllRead : s.decRun = true → s.dec.err = .clear → s.dec.cnt.toNat < 8 → s.dsrc.head = .ended
  esrcPos    : s.esrc.pos ≤ s.esrc.units.length
  dsrcPos    : s.dsrc.pos ≤ s.dsrc.units.length

end Sys2Proof.Machine
end

