-- ==== Sys2Proof/Certificates/Slice0/Obligations.lean ====
section
/-! DEFINITION. Certificates/Slice0/Obligations.lean: the statements, in the order of the spec's files. Where one speaks
of a next state `t`, `Quiet`, `EncOnly`, `DecOnly` and `ValOnly` (Safety.lean) say all that may differ from `s`, so that
the rest of the state, both streams' units among it, is unchanged. -/

open Sys2Proof Sys2Proof.Machine

/-! ### The operation word, the step, reset -/

/-- Rule R83: each of the sixteen codes decodes to the operation of its line, in the format of its line, and every 4-bit
value is the code of one operation. -/
def Obligations.OperationMapHasSixteenLines : Prop :=
  (decodeWord 0b0000#4 = .idle ∧ Instr.idle.format = .n) ∧
  (decodeWord 0b0001#4 = .lutFwd ∧ Instr.lutFwd.format = .v) ∧
  (decodeWord 0b0010#4 = .lutInv ∧ Instr.lutInv.format = .u) ∧
  (decodeWord 0b0011#4 = .lenEnc ∧ Instr.lenEnc.format = .c) ∧
  (decodeWord 0b0100#4 = .lenDec ∧ Instr.lenDec.format = .c) ∧
  (decodeWord 0b0101#4 = .valInit ∧ Instr.valInit.format = .n) ∧
  (decodeWord 0b0110#4 = .valPush ∧ Instr.valPush.format = .u) ∧
  (decodeWord 0b0111#4 = .valRes ∧ Instr.valRes.format = .r) ∧
  (decodeWord 0b1000#4 = .encInit ∧ Instr.encInit.format = .n) ∧
  (decodeWord 0b1001#4 = .encCur ∧ Instr.encCur.format = .r) ∧
  (decodeWord 0b1010#4 = .encAdv ∧ Instr.encAdv.format = .n) ∧
  (decodeWord 0b1011#4 = .decInit ∧ Instr.decInit.format = .n) ∧
  (decodeWord 0b1100#4 = .decCur ∧ Instr.decCur.format = .r) ∧
  (decodeWord 0b1101#4 = .decAdv ∧ Instr.decAdv.format = .n) ∧
  (decodeWord 0b1110#4 = .statusRd ∧ Instr.statusRd.format = .r) ∧
  (decodeWord 0b1111#4 = .reserved ∧ Instr.reserved.format = .none) ∧
  (∀ w : OpWord, ∃ i : Instr, encode i = w)

/-- Decode and encode agree in both directions, and a byte carries an operation word exactly when its upper four bits
are 0 (the carrying byte is the model's choice, log entry 14). -/
def Obligations.DecodeAndEncodeAgree : Prop :=
  (∀ i : Instr, decodeWord (encode i) = i) ∧
  (∀ w : OpWord, encode (decodeWord w) = w) ∧
  (∀ (i : Instr) (rest : List Byte), decodeBytes ((encode i).setWidth 8 :: rest) = .ok (i, rest)) ∧
  (∀ (b : Byte) (rest : List Byte), 16 ≤ b.toNat → decodeBytes (b :: rest) = .error .strayBits) ∧
  (∀ i : Instr, decodeTableWord 4 (encode i).toNat = some i ∧ decodeTableWord 8 (encode i).toNat = some i)

/-- A step runs the operation that the caller issues: `step` is `exec` of the decoded word with the operands on the
ports, where the ports can carry the issue and the operation does not hold. Three clauses are the model's choice: that an
issue the ports cannot carry is refused (log entry 16), that a step changes nothing where the caller has nothing to do
(log entry 15), and that `withFetchWord` issues a word next (log entry 14). -/
def Obligations.StepRunsTheIssuedOperation : Prop :=
  (∀ (s : State) (x : Issue) (rest : List CallerEvent),
    s.caller = .issue x :: rest → x.wellFormed s.cntW = true →
    holds (decodeWord x.op) (s.present x.ports) = false →
    step s = exec (decodeWord x.op) { s.present x.ports with caller := rest }) ∧
  (∀ (s : State) (x : Issue) (rest : List CallerEvent),
    s.caller = .issue x :: rest → x.wellFormed s.cntW = false → step s = .refused .illFormedIssue) ∧
  (∀ s : State, s.caller = [] → step s = .next s) ∧
  (∀ (s : State) (i : Instr) (nbits : Nat),
    1 ≤ s.cntW → s.ports.fit s.cntW = true → holds i s = false →
    step (s.withFetchWord nbits (encode i).toNat) = exec i s)

/-- Rule R56 in the model's form: an operation that needs a head which the environment has not supplied makes no state
change and drives no result, and what comes meanwhile, the reset event apart, touches no register; a store into the read
part of `DSRC` leaves the run in progress (rule R70). An operation holds only where the end of its stream is not known.
That `exec` answers the same state, that the operation stays issued and that a step lets one thing come is the model's
choice (log entry 12), as is that the caller's own actions can come during a hold (log entry 22). -/
def Obligations.HoldChangesNoRegister : Prop :=
  (∀ (i : Instr) (s : State), holds i s = true → exec i s = .next s) ∧
  (∀ (s : State) (x : Issue) (rest : List CallerEvent),
    s.caller = .issue x :: rest → x.wellFormed s.cntW = true →
    holds (decodeWord x.op) (s.present x.ports) = true →
    (s.arrivals = [] → step s = .next s) ∧
    (∀ (a : Arrival) (as : List Arrival), s.arrivals = a :: as → (∀ w : Bool, a ≠ .reset w) → ∃ t, step s = .next t ∧
      t.caller = s.caller ∧ t.arrivals = as ∧ t.enc = s.enc ∧ t.dec = s.dec ∧ t.val = s.val ∧ t.opErr = s.opErr ∧
      t.out = s.out ∧ t.raised = s.raised ∧
      (∀ (p : Nat) (b : Byte), a = .storeDsrc p b → p < s.dsrc.pos →
        t.dsrc = { s.dsrc with units := s.dsrc.units.set p b } ∧ t.decRun = s.decRun))) ∧
  (∀ (i : Instr) (s : State), holds i s = true →
    ((i = .encInit ∨ i = .encAdv) ∧ s.esrc.head = .unknown) ∨
    ((i = .decInit ∨ i = .decAdv) ∧ s.dsrc.ended = false))

/-- Rule R42: the value of every register after reset, at every width `CNT_W`, `STATUS`, and the tables' contents. -/
def Obligations.ResetValues : Prop :=
  State.reset = State.resetOf 32 ∧
  ∀ w : Nat,
    let s := State.resetOf w
    s.enc.acc = 0#16 ∧ s.enc.cnt = 0#4 ∧ s.enc.term = false ∧ s.enc.err = false ∧ s.enc.pos = 0 ∧
    s.dec.acc = 0#16 ∧ s.dec.cnt = 0#4 ∧ s.dec.err = .clear ∧ s.dec.pos = 0 ∧
    s.val.ok = true ∧ s.val.cnt = 0#3 ∧ s.opErr = false ∧
    s.enc.done = true ∧ s.dec.done = true ∧ s.status = 0x49#8 ∧ FwdIsTheAlphabet ∧ InvIsTheInverse

/-- Rule R220: the reset event, which is no operation and can come between operations and while an operation holds, gives
every register its reset value and abandons any run, and does not touch the streams. What becomes of the operation that
holds is left open: it is withdrawn or stays issued, as the event says (the model's choice, log entry 22). -/
def Obligations.ResetEventRestoresTheBlock : Prop :=
  (∀ (s : State) (rest : List CallerEvent), s.caller = .reset :: rest →
    ∃ t, step s = .next t ∧
      t.enc = .reset ∧ t.dec = .reset ∧ t.val = .reset ∧ t.opErr = false ∧ t.status = 0x49#8 ∧
      t.encRun = false ∧ t.decRun = false ∧ t.esrc = s.esrc ∧ t.dsrc = s.dsrc ∧ t.cntW = s.cntW ∧ t.caller = rest) ∧
  (∀ (s : State) (x : Issue) (rest : List CallerEvent) (w : Bool) (as : List Arrival),
    s.caller = .issue x :: rest → x.wellFormed s.cntW = true →
    holds (decodeWord x.op) (s.present x.ports) = true → s.arrivals = .reset w :: as →
    ∃ t, step s = .next t ∧
      t.enc = .reset ∧ t.dec = .reset ∧ t.val = .reset ∧ t.opErr = false ∧ t.status = 0x49#8 ∧
      t.encRun = false ∧ t.decRun = false ∧ t.esrc = s.esrc ∧ t.dsrc = s.dsrc ∧ t.cntW = s.cntW ∧
      t.caller = (if w then rest else s.caller) ∧ t.arrivals = as)

/-! ### alphabet_lut and length_predicates -/

/-- Rules R86, R88 and R89: the contents of the two tables, from the alphabet as one string. -/
def Obligations.TableContents : Prop := FwdIsTheAlphabet ∧ InvIsTheInverse

/-- Rule R110: `LUT.FWD` drives `unit_out` with the symbol of the value on `val_in`, raises nothing and changes nothing
else, in every state. The result is one of the 32 canonical units. -/
def Obligations.LutFwdGivesTheCanonicalSymbol : Prop :=
  Encoded 0x1#4 .v .lutFwd ∧
  ∀ s : State, ∃ t, exec .lutFwd s = .next t ∧ Quiet s t ∧ t.raised = none ∧
    t.out.unitOut = memReadFwd s.ports.valIn ∧ AlphabetUnit t.out.unitOut = true ∧
    canonicalUnit t.out.unitOut = t.out.unitOut

/-- Rule R111: `LUT.INV` drives `val_out` and `valid_out` with the two fields of the inverse table's entry for
`unit_in`, raises nothing and changes nothing else, for every unit. -/
def Obligations.LutInvGivesValueAndMembership : Prop :=
  Encoded 0x2#4 .u .lutInv ∧
  ∀ s : State, ∃ t, exec .lutInv s = .next t ∧ Quiet s t ∧ t.raised = none ∧
    t.out.valOut = (memReadInv s.ports.unitIn).extractLsb' 0 5 ∧
    t.out.validOut = (memReadInv s.ports.unitIn).getLsbD 5 ∧
    (t.out.validOut = false → t.out.valOut = 0#5)

/-- Rule R90: the laws of the two tables. -/
def Obligations.TablesAreInverse : Prop :=
  (∀ v : SymVal, memReadInv (memReadFwd v) = 1#1 ++ v) ∧
  (∀ u : Byte, AlphabetUnit u = true → memReadFwd (entryValue (memReadInv u)) = canonicalUnit u) ∧
  (∀ v w : SymVal, memReadFwd v = memReadFwd w → v = w) ∧
  ((List.range 256).filter fun n => AlphabetUnit (BitVec.ofNat 8 n)).length = 56 ∧
  (∀ u : Byte, AlphabetUnit u = true ∧ entryValue (memReadInv u) = 0#5 ↔ u = 0x59#8 ∨ u = 0x79#8)

/-- Rule R112: the two operations undo each other, with the canonical form in place of the unit. -/
def Obligations.LutOperationsUndoEachOther : Prop :=
  (∀ (s a b : State) (v : SymVal),
    exec .lutFwd (s.present { s.ports with valIn := v }) = .next a →
    exec .lutInv (a.present { a.ports with unitIn := a.out.unitOut }) = .next b →
    b.out.valOut = v ∧ b.out.validOut = true) ∧
  (∀ (s a b : State) (u : Byte),
    exec .lutInv (s.present { s.ports with unitIn := u }) = .next a → a.out.validOut = true →
    exec .lutFwd (a.present { a.ports with valIn := a.out.valOut }) = .next b →
    b.out.unitOut = if 0x41 ≤ u.toNat ∧ u.toNat ≤ 0x5A then u + 0x20#8 else u)

/-- Rule R120: `LEN.ENC` drives `scnt_out` with the least number of 5-bit symbols that hold `n` bytes, exactly, in every
state, and changes nothing else; for `n = 5q + r` that is `8q` plus 0, 2, 4, 5 or 7. -/
def Obligations.LenEncGivesTheCeiling : Prop :=
  Encoded 0x3#4 .c .lenEnc ∧
  ∀ s : State, ∃ t, exec .lenEnc s = .next t ∧ Quiet s t ∧ t.raised = none ∧
    8 * s.ports.bcntIn ≤ 5 * t.out.scntOut ∧ 5 * t.out.scntOut < 8 * s.ports.bcntIn + 5 ∧
    ∀ q r : Nat, r < 5 → s.ports.bcntIn = 5 * q + r → t.out.scntOut = 8 * q + [0, 2, 4, 5, 7].getD r 0

/-- Rule R121 and rule R123: `LEN.DEC` drives `valid_out` and `bcnt_out` as the residue of the symbol count says, in
every state, raises nothing for an impossible count, and changes nothing else. -/
def Obligations.LenDecFollowsTheResidue : Prop :=
  Encoded 0x4#4 .c .lenDec ∧
  (∀ s : State, ∃ t, exec .lenDec s = .next t ∧ Quiet s t ∧ t.raised = none ∧
    (t.out.validOut = true ↔ 5 * s.ports.scntIn % 8 < 5) ∧
    (t.out.validOut = true → t.out.bcntOut = 5 * s.ports.scntIn / 8) ∧
    (t.out.validOut = false → t.out.bcntOut = 0) ∧
    ∀ q r : Nat, r < 8 → s.ports.scntIn = 8 * q + r →
      5 * s.ports.scntIn % 8 = [0, 5, 2, 7, 4, 1, 6, 3].getD r 0 ∧
      (t.out.validOut = false ↔ r = 1 ∨ r = 3 ∨ r = 6) ∧
      (t.out.validOut = true → t.out.bcntOut = 5 * q + [0, 0, 1, 0, 2, 3, 0, 4].getD r 0)) ∧
  (∀ c : Nat, lenOk (BitVec.ofNat 3 c) = true ↔ c % 8 ≠ 1 ∧ c % 8 ≠ 3 ∧ c % 8 ≠ 6)

/-- Rule R122: where the operands are numbers that the ports can carry, the results and the intermediate values fit. -/
def Obligations.SizeResultsFitTheirPorts : Prop :=
  ∀ s : State, s.ports.fit s.cntW = true →
    8 * s.ports.bcntIn + 4 < 2 ^ (s.cntW + 4) ∧ 5 * s.ports.scntIn < 2 ^ (s.cntW + 4) ∧
    (∃ t, exec .lenEnc s = .next t ∧ t.out.scntOut ≤ 2 * s.ports.bcntIn ∧ t.out.scntOut < 2 ^ (s.cntW + 1)) ∧
    (∃ t, exec .lenDec s = .next t ∧ t.out.bcntOut ≤ s.ports.scntIn ∧ t.out.bcntOut < 2 ^ (s.cntW + 1))

/-- Rule R124: `LEN.DEC` of the result of `LEN.ENC n` is `n`, valid, and `LEN.ENC` of the result of a valid `LEN.DEC k`
is `k`. -/
def Obligations.SizeOperationsAreInverse : Prop :=
  (∀ (s : State) (n : Nat), ∃ a b, toBase32zSize n s = .next a ∧ fromBase32zSize a.out.scntOut a = .next b ∧
    b.out.bcntOut = n ∧ b.out.validOut = true ∧ 5 * a.out.scntOut - 8 * n = [0, 2, 4, 1, 3].getD (n % 5) 0) ∧
  (∀ (s : State) (k : Nat), ∃ a b, fromBase32zSize k s = .next a ∧ toBase32zSize a.out.bcntOut a = .next b ∧
    (a.out.validOut = true → b.out.scntOut = k))

/-! ### The validator -/

/-- Rule R130: `VAL.INIT` sets `val_ok` to 1 and `val_cnt` to 0, in every state, and changes nothing else. -/
def Obligations.ValInitBeginsASequence : Prop :=
  Encoded 0x5#4 .n .valInit ∧
  ∀ s : State, ∃ t, exec .valInit s = .next t ∧ ValOnly s t ∧ t.raised = none ∧ t.val.ok = true ∧ t.val.cnt = 0#3

/-- Rule R131: `VAL.PUSH` takes the membership bit of the unit into `val_ok` and counts modulo 8, in every state and for
every unit, raises nothing and changes nothing else. -/
def Obligations.ValPushAccountsForOneUnit : Prop :=
  Encoded 0x6#4 .u .valPush ∧
  ∀ s : State, ∃ t, exec .valPush s = .next t ∧ ValOnly s t ∧ t.raised = none ∧
    (t.val.ok = true ↔ s.val.ok = true ∧ (memReadInv s.ports.unitIn).getLsbD 5 = true) ∧
    t.val.cnt.toNat = (s.val.cnt.toNat + 1) % 8

/-- Rule R132: `VAL.RES` drives `valid_out` with the verdict, which is also bit 6 of `STATUS`, in every state, and
changes nothing else. -/
def Obligations.ValResGivesTheVerdict : Prop :=
  Encoded 0x7#4 .r .valRes ∧
  ∀ s : State, ∃ t, exec .valRes s = .next t ∧ Quiet s t ∧ t.raised = none ∧
    (t.out.validOut = true ↔ s.val.ok = true ∧ 5 * s.val.cnt.toNat % 8 < 5) ∧
    t.out.validOut = s.status.getLsbD 6

/-- Rule R133: the validator's contract. From every state, `VAL.INIT`, one `VAL.PUSH` for each unit of `S` and `VAL.RES`
complete, and the verdict is that of the two checks on `S`. -/
def Obligations.ValidatorContract : Prop :=
  ∀ (S : List Byte) (s : State), ∃ (v : Bool) (t : State), isBase32z S s = .next (v, t) ∧
    (v = true ↔ (∀ u ∈ S, AlphabetUnit u = true) ∧ S.length % 8 ≠ 1 ∧ S.length % 8 ≠ 3 ∧ S.length % 8 ≠ 6) ∧
    t.enc = s.enc ∧ t.dec = s.dec ∧ t.opErr = s.opErr ∧ t.esrc = s.esrc ∧ t.dsrc = s.dsrc ∧
    t.val.cnt.toNat = S.length % 8

/-! ### The encoder -/

/-- Rule R140: `ENC.INIT` seeds the encoder from the head of `ESRC`, whatever its context held, where the units that
remain are an admitted number (rule R53; log entry 11), and changes nothing of another unit. Where the head is not known
it holds (rule R56), which in the model is that it answers the same state (the model's choice, log entry 12). -/
def Obligations.EncInitSeedsFromTheHead : Prop :=
  Encoded 0x8#4 .n .encInit ∧
  ∀ s : State, s.esrc.remaining ≤ 2 ^ s.cntW - 1 →
    (∀ b : Byte, s.esrc.units[s.esrc.pos]? = some b → ∃ t, exec .encInit s = .next t ∧ EncOnly s t ∧ t.raised = none ∧
      t.enc.acc.toNat = b.toNat ∧ t.enc.cnt = 8#4 ∧ t.enc.pos = 1 ∧ t.enc.term = false ∧ t.enc.err = false ∧
      t.esrc.pos = s.esrc.pos + 1 ∧ t.encRun = true) ∧
    (s.esrc.units[s.esrc.pos]? = none → s.esrc.ended = true → ∃ t, exec .encInit s = .next t ∧ EncOnly s t ∧
      t.raised = none ∧ t.enc.acc = 0#16 ∧ t.enc.cnt = 0#4 ∧ t.enc.pos = 0 ∧ t.enc.term = false ∧ t.enc.err = false ∧
      t.esrc.pos = s.esrc.pos ∧ t.encRun = true) ∧
    (s.esrc.units[s.esrc.pos]? = none → s.esrc.ended = false → exec .encInit s = .next s ∧ holds .encInit s = true)

/-- Rule R141: `ENC.CUR` drives `unit_out` with the symbol of the top five significant bits and changes nothing else,
wherever the encoder holds five bits or more; so two `ENC.CUR` in a row give the same. On an exhausted encoder it raises
`ENC_SEQ`. -/
def Obligations.EncCurReadsTheTopFiveBits : Prop :=
  Encoded 0x9#4 .r .encCur ∧
  ∀ s : State,
    (5 ≤ s.enc.cnt.toNat → ∃ t, exec .encCur s = .next t ∧ Quiet s t ∧ t.raised = none ∧
      t.out.unitOut = memReadFwd (BitVec.ofNat 5 (s.enc.acc.toNat / 2 ^ (s.enc.cnt.toNat - 5) % 32)) ∧
      ∃ u, exec .encCur t = .next u ∧ Quiet s u ∧ u.out.unitOut = t.out.unitOut) ∧
    (s.enc.cnt = 0#4 → ∃ t, exec .encCur s = .next t ∧ t.raised = some .encSeq)

/-- Rule R142: `ENC.ADV` on an encoder that holds five bits or more: the discard alone, the pull, the padding and the
exhaustion, each with every register's new value and nothing else changed. On an exhausted encoder it raises
`ENC_SEQ`. -/
def Obligations.EncAdvDiscardsAndRefills : Prop :=
  Encoded 0xA#4 .n .encAdv ∧
  (∀ s : State, s.enc.cnt = 0#4 → ∃ t, exec .encAdv s = .next t ∧ t.raised = some .encSeq ∧
    Quiet { s with enc := { s.enc with err := true } } t) ∧
  ∀ (s : State) (c : Nat), s.enc.cnt.toNat = c + 5 →
    (5 ≤ c → ∃ t, exec .encAdv s = .next t ∧ EncOnly s t ∧ t.raised = none ∧ t.esrc = s.esrc ∧ t.encRun = s.encRun ∧
      t.enc.acc.toNat = s.enc.acc.toNat % 2 ^ c ∧ t.enc.cnt.toNat = c ∧
      t.enc.term = s.enc.term ∧ t.enc.err = s.enc.err ∧ t.enc.pos = s.enc.pos) ∧
    (c < 5 → s.encReady →
      (∀ b : Byte, s.esrc.head = .unit b → ∃ t, exec .encAdv s = .next t ∧ EncOnly s t ∧ t.raised = none ∧
        t.esrc.pos = s.esrc.pos + 1 ∧ t.encRun = true ∧
        t.enc.acc.toNat = s.enc.acc.toNat % 2 ^ c * 256 + b.toNat ∧ t.enc.cnt.toNat = c + 8 ∧
        t.enc.term = s.enc.term ∧ t.enc.err = s.enc.err ∧ t.enc.pos = s.enc.pos + 1) ∧
      (s.esrc.head = .ended → 0 < c → ∃ t, exec .encAdv s = .next t ∧ EncOnly s t ∧ t.raised = none ∧
        t.esrc = s.esrc ∧ t.encRun = true ∧
        t.enc.acc.toNat = s.enc.acc.toNat % 2 ^ c * 2 ^ (5 - c) ∧ t.enc.cnt = 5#4 ∧
        t.enc.term = true ∧ t.enc.err = s.enc.err ∧ t.enc.pos = s.enc.pos) ∧
      (s.esrc.head = .ended → c = 0 → ∃ t, exec .encAdv s = .next t ∧ EncOnly s t ∧ t.raised = none ∧
        t.esrc = s.esrc ∧ t.encRun = true ∧ t.enc.acc = 0#16 ∧ t.enc.cnt = 0#4 ∧
        t.enc.term = s.enc.term ∧ t.enc.err = s.enc.err ∧ t.enc.pos = s.enc.pos))

/-- Where the encoder's operations stop, which is the model's choice in each clause. Of the two, only `ENC.ADV` with fewer
than five bits left after the discard reads the stream, and it is refused where the unread part was changed during the
run (rule R227, U8; log entry 10) or the run is longer than admitted (rule R53, U9; log entry 11), as is `ENC.INIT` over a
longer stream. A count of 1 to 4, which no run reaches (rule R38), has no effect stated, and the model's own fault stands
there (log entry 13). -/
def Obligations.EncoderStopsOutsideItsContract : Prop :=
  ∀ s : State,
    (1 ≤ s.enc.cnt.toNat → s.enc.cnt.toNat < 5 →
      exec .encCur s = .fault .encCountBelowFive ∧ exec .encAdv s = .fault .encCountBelowFive) ∧
    (5 ≤ s.enc.cnt.toNat → s.enc.cnt.toNat < 10 → s.encRun = false → exec .encAdv s = .refused .sourceChanged) ∧
    (5 ≤ s.enc.cnt.toNat → s.enc.cnt.toNat < 10 → s.encRun = true →
      2 ^ s.cntW - 1 < s.enc.pos + s.esrc.remaining → exec .encAdv s = .refused .streamTooLong) ∧
    (2 ^ s.cntW - 1 < s.esrc.remaining → exec .encInit s = .refused .streamTooLong)

/-- Rule R193: `ENC.CUR` and `ENC.ADV` on an exhausted encoder raise `ENC_SEQ`: `enc_err` is set, no other register
changes and `ESRC` is not read; issued again, they raise it again. `ENC.INIT` and reset clear it. -/
def Obligations.ExhaustedEncoderRaisesEncSeq : Prop :=
  (∀ (s : State) (i : Instr), s.enc.cnt = 0#4 → i = .encCur ∨ i = .encAdv →
    ∃ t, exec i s = .next t ∧ t.raised = some .encSeq ∧ Quiet { s with enc := { s.enc with err := true } } t ∧
      ∀ j : Instr, j = .encCur ∨ j = .encAdv → ∃ u, exec j t = .next u ∧ u.raised = some .encSeq ∧ Quiet t u) ∧
  (∀ s t : State, exec .encInit s = .next t → holds .encInit s = false → t.enc.err = false) ∧
  (∀ s : State, s.resetBlock.enc.err = false)

/-- Rules R143, R144 and R63: the encoder's contract and its consumption schedule. Over every byte sequence of an
admitted length, from every state, symbol `i` is the current symbol after `ENC.INIT` and `i` `ENC.ADV`, the bytes
pulled by then are as many as the schedule says, and after `ceil(8n/5)` `ENC.ADV` the run is finished, all `n` bytes
were pulled, and `enc_term` says whether the last symbol carries padding. -/
def Obligations.EncoderContract : Prop :=
  ∀ (s : State) (B : List Byte), B.length ≤ 2 ^ s.cntW - 1 →
    (∀ i : Nat, i < (8 * B.length + 4) / 5 →
      ∃ t u, runTo .encInit .encAdv i (s.setEsrc B true) = .next t ∧ exec .encCur t = .next u ∧
        u.raised = none ∧ u.out.unitOut = encodedSymbol B i ∧
        t.enc.err = false ∧ t.enc.pos = min B.length ((5 * (i + 1) + 7) / 8)) ∧
    (∃ t, runTo .encInit .encAdv ((8 * B.length + 4) / 5) (s.setEsrc B true) = .next t ∧ t.encFinished ∧
      t.enc.pos = B.length ∧ t.esrc.pos = B.length ∧ (t.enc.term = true ↔ B.length % 5 ≠ 0))

/-- Rule R101: `TO_BASE32Z(B)` ends with the encoding of `B`, in `ceil(8n/5)` rounds, and leaves the other units as they
were. -/
def Obligations.ToBase32zGivesTheEncoding : Prop :=
  ∀ (s : State) (B : List Byte), B.length ≤ 2 ^ s.cntW - 1 →
    ∃ t, toBase32z B s = .next (.finished, encodedSequence B, t) ∧
      t.enc.err = false ∧ t.dec = s.dec ∧ t.val = s.val ∧ t.opErr = s.opErr ∧ t.dsrc = s.dsrc

/-- Rule R59: the layout of a full group and of each partial group, bit by bit, as `TO_BASE32Z` gives it. -/
def Obligations.LayoutOfAGroup : Prop :=
  ∀ (s : State) (B0 B1 B2 B3 B4 : Byte), 5 ≤ 2 ^ s.cntW - 1 →
    let s0 := B0.extractLsb' 3 5
    let s1 := B0.extractLsb' 0 3 ++ B1.extractLsb' 6 2
    let s2 := B1.extractLsb' 1 5
    let s3 := B1.extractLsb' 0 1 ++ B2.extractLsb' 4 4
    let s4 := B2.extractLsb' 0 4 ++ B3.extractLsb' 7 1
    let s5 := B3.extractLsb' 2 5
    let s6 := B3.extractLsb' 0 2 ++ B4.extractLsb' 5 3
    let s7 := B4.extractLsb' 0 5
    (∃ t, toBase32z [B0, B1, B2, B3, B4] s = .next (.finished, [s0, s1, s2, s3, s4, s5, s6, s7].map memReadFwd, t)) ∧
    (∃ t, toBase32z [B0] s = .next (.finished, [s0, B0.extractLsb' 0 3 ++ 0#2].map memReadFwd, t)) ∧
    (∃ t, toBase32z [B0, B1] s = .next (.finished, [s0, s1, s2, B1.extractLsb' 0 1 ++ 0#4].map memReadFwd, t)) ∧
    (∃ t, toBase32z [B0, B1, B2] s = .next (.finished, [s0, s1, s2, s3, B2.extractLsb' 0 4 ++ 0#1].map memReadFwd, t)) ∧
    (∃ t, toBase32z [B0, B1, B2, B3] s =
      .next (.finished, [s0, s1, s2, s3, s4, s5, B3.extractLsb' 0 2 ++ 0#3].map memReadFwd, t))

/-! ### The decoder -/

/-- Rule R160: `DEC.INIT` seeds the decoder from the head of `DSRC`, whatever its context held: from an empty source,
from two alphabet units or more; and it raises `DEC_LEN` where there is one alphabet unit only and `DEC_SYM` where the
first or the second unit is none. -/
def Obligations.DecInitSeedsFromTheHead : Prop :=
  Encoded 0xB#4 .n .decInit ∧
  ∀ s : State, s.dsrc.remaining ≤ 2 ^ (s.cntW + 1) - 1 →
    (s.dsrc.head = .ended → ∃ t, exec .decInit s = .next t ∧ DecOnly s t ∧ t.raised = none ∧
      t.dec.acc = 0#16 ∧ t.dec.cnt = 0#4 ∧ t.dec.err = .clear ∧ t.dec.pos = 0 ∧ t.dsrc = s.dsrc ∧ t.decRun = true) ∧
    (∀ (u v : Byte) (rest : List Byte), s.dsrc.units.drop s.dsrc.pos = u :: v :: rest →
      AlphabetUnit u = true → AlphabetUnit v = true → ∃ t, exec .decInit s = .next t ∧ DecOnly s t ∧ t.raised = none ∧
      t.dec.acc.toNat = (entryValue (memReadInv u)).toNat * 32 + (entryValue (memReadInv v)).toNat ∧
      t.dec.cnt = 10#4 ∧ t.dec.err = .clear ∧ t.dec.pos = 2 ∧ t.dsrc.pos = s.dsrc.pos + 2 ∧ t.decRun = true) ∧
    (∀ u : Byte, s.dsrc.units.drop s.dsrc.pos = [u] → s.dsrc.ended = true → AlphabetUnit u = true →
      ∃ t, exec .decInit s = .next t ∧ DecOnly s t ∧ t.raised = some .decLen ∧
      t.dec.acc.toNat = (entryValue (memReadInv u)).toNat ∧ t.dec.cnt = 5#4 ∧ t.dec.err = .len ∧ t.dec.pos = 1 ∧
      t.dsrc.pos = s.dsrc.pos + 1) ∧
    (∀ (u : Byte) (rest : List Byte), s.dsrc.units.drop s.dsrc.pos = u :: rest → AlphabetUnit u = false →
      ∃ t, exec .decInit s = .next t ∧ DecOnly s t ∧ t.raised = some .decSym ∧ t.dec.err = .sym ∧ t.dec.pos = 1 ∧
      t.dsrc.pos = s.dsrc.pos + 1) ∧
    (∀ (u v : Byte) (rest : List Byte), s.dsrc.units.drop s.dsrc.pos = u :: v :: rest → AlphabetUnit u = true →
      AlphabetUnit v = false →
      ∃ t, exec .decInit s = .next t ∧ DecOnly s t ∧ t.raised = some .decSym ∧ t.dec.err = .sym ∧ t.dec.pos = 2 ∧
      t.dsrc.pos = s.dsrc.pos + 2)

/-- Rule R161: `DEC.CUR` drives `unit_out` with the top eight significant bits and changes nothing else, where no fault
is recorded and eight bits or more are held; in a faulted run it completes too, raises nothing and changes nothing, and
nothing is said of `unit_out`. On an exhausted decoder with no fault recorded it raises `DEC_SEQ`. -/
def Obligations.DecCurReadsTheTopEightBits : Prop :=
  Encoded 0xC#4 .r .decCur ∧
  ∀ s : State,
    (s.dec.err = .clear → s.dec.cnt.toNat < 8 → ∃ t, exec .decCur s = .next t ∧ t.raised = some .decSeq) ∧
    (s.dec.err = .clear → 8 ≤ s.dec.cnt.toNat → ∃ t, exec .decCur s = .next t ∧ Quiet s t ∧ t.raised = none ∧
      t.out.unitOut.toNat = s.dec.acc.toNat / 2 ^ (s.dec.cnt.toNat - 8) % 256 ∧
      ∃ u, exec .decCur t = .next u ∧ Quiet s u ∧ u.out.unitOut = t.out.unitOut) ∧
    (s.dec.err ≠ .clear → ∃ t, exec .decCur s = .next t ∧ Quiet s t ∧ t.raised = none)

/-- Rule R162 with rule R163: `DEC.ADV` where no fault is recorded and eight bits or more are held: it discards eight
bits and refills with two units from a remainder of 0 to 2 bits and with one from 3 or 4, or meets the end of the
source, with no fault where 0 to 4 bits are held there and with `DEC_LEN` where 5 to 7 are; a unit outside the alphabet
raises `DEC_SYM` when it is pulled. Only the clauses that meet the end ask that it is known. On an exhausted decoder it
raises `DEC_SEQ`. In a faulted run, where rule R162 leaves the effect unspecified, that it completes, leaves `dec_err` and
changes nothing but the decoder's registers and the read position of `DSRC` is the model's reading (log entry 9, U7, rule
R50). -/
def Obligations.DecAdvDiscardsAndRefills : Prop :=
  Encoded 0xD#4 .n .decAdv ∧
  (∀ s : State, s.dec.err ≠ .clear → ∃ t, exec .decAdv s = .next t ∧ DecOnly s t ∧ t.dec.err = s.dec.err) ∧
  (∀ s : State, s.dec.err = .clear → s.dec.cnt.toNat < 8 → ∃ t, exec .decAdv s = .next t ∧ t.raised = some .decSeq ∧
    Quiet { s with dec := { s.dec with err := .seq } } t) ∧
  ∀ (s : State) (c : Nat), s.dec.err = .clear → s.dec.cnt.toNat = c + 8 → c ≤ 4 → s.decReady →
    (∀ (u : Byte) (rest : List Byte), 3 ≤ c → s.dsrc.units.drop s.dsrc.pos = u :: rest → AlphabetUnit u = true →
      ∃ t, exec .decAdv s = .next t ∧ DecOnly s t ∧ t.raised = none ∧ t.dec.err = .clear ∧ t.decRun = true ∧
      t.dec.acc.toNat = s.dec.acc.toNat % 2 ^ c * 32 + (entryValue (memReadInv u)).toNat ∧
      t.dec.cnt.toNat = c + 5 ∧ t.dec.pos = s.dec.pos + 1 ∧ t.dsrc.pos = s.dsrc.pos + 1) ∧
    (∀ (u v : Byte) (rest : List Byte), c ≤ 2 → s.dsrc.units.drop s.dsrc.pos = u :: v :: rest →
      AlphabetUnit u = true → AlphabetUnit v = true →
      ∃ t, exec .decAdv s = .next t ∧ DecOnly s t ∧ t.raised = none ∧ t.dec.err = .clear ∧ t.decRun = true ∧
      t.dec.acc.toNat = s.dec.acc.toNat % 2 ^ c * 1024 + (entryValue (memReadInv u)).toNat * 32 +
        (entryValue (memReadInv v)).toNat ∧
      t.dec.cnt.toNat = c + 10 ∧ t.dec.pos = s.dec.pos + 2 ∧ t.dsrc.pos = s.dsrc.pos + 2) ∧
    (s.dsrc.units.drop s.dsrc.pos = [] → s.dsrc.ended = true →
      ∃ t, exec .decAdv s = .next t ∧ DecOnly s t ∧ t.raised = none ∧ t.dec.err = .clear ∧ t.decRun = true ∧
      t.dec.acc.toNat = s.dec.acc.toNat % 2 ^ c ∧ t.dec.cnt.toNat = c ∧ t.dec.pos = s.dec.pos ∧ t.dsrc = s.dsrc) ∧
    (∀ u : Byte, c ≤ 2 → s.dsrc.units.drop s.dsrc.pos = [u] → s.dsrc.ended = true → AlphabetUnit u = true →
      ∃ t, exec .decAdv s = .next t ∧ DecOnly s t ∧ t.raised = some .decLen ∧ t.dec.err = .len ∧
      t.dec.acc.toNat = s.dec.acc.toNat % 2 ^ c * 32 + (entryValue (memReadInv u)).toNat ∧
      t.dec.cnt.toNat = c + 5 ∧ t.dec.pos = s.dec.pos + 1 ∧ t.dsrc.pos = s.dsrc.pos + 1) ∧
    (∀ (u : Byte) (rest : List Byte), s.dsrc.units.drop s.dsrc.pos = u :: rest → AlphabetUnit u = false →
      ∃ t, exec .decAdv s = .next t ∧ DecOnly s t ∧ t.raised = some .decSym ∧ t.dec.err = .sym ∧
      t.dec.pos = s.dec.pos + 1 ∧ t.dsrc.pos = s.dsrc.pos + 1) ∧
    (∀ (u v : Byte) (rest : List Byte), c ≤ 2 → s.dsrc.units.drop s.dsrc.pos = u :: v :: rest →
      AlphabetUnit u = true → AlphabetUnit v = false →
      ∃ t, exec .decAdv s = .next t ∧ DecOnly s t ∧ t.raised = some .decSym ∧ t.dec.err = .sym ∧
      t.dec.pos = s.dec.pos + 2 ∧ t.dsrc.pos = s.dsrc.pos + 2)

/-- Rule R163: two pulls are enough for a refill from any context over any stream, and a refill that settles holds 8 bits
or more, or has met the end with fewer than 5. -/
def Obligations.RefillPullsAtMostTwice : Prop :=
  ∀ (n : Nat) (d : DecCtx) (S : Stream), decRefill (n + 2) d S = decRefill 2 d S ∧
    (∀ (d' : DecCtx) (S' : Stream), decRefill 2 d S = .settled d' S' →
      (8 ≤ d'.cnt.toNat ∨ (d'.cnt.toNat < 5 ∧ S'.head = .ended)) ∧ S'.pos ≤ S.pos + 2 ∧
      d'.pos - d.pos = S'.pos - S.pos ∧ (d.cnt.toNat < 8 → d'.cnt.toNat ≤ 12))

/-- Rule R194: `DEC.CUR` and `DEC.ADV` on an exhausted decoder with no fault recorded raise `DEC_SEQ`: `dec_err` becomes
1, no other register changes and `DSRC` is not read. `DEC.INIT` and reset clear it. -/
def Obligations.ExhaustedDecoderRaisesDecSeq : Prop :=
  (∀ (s : State) (i : Instr), s.dec.err = .clear → s.dec.cnt.toNat < 8 → i = .decCur ∨ i = .decAdv →
    ∃ t, exec i s = .next t ∧ t.raised = some .decSeq ∧ Quiet { s with dec := { s.dec with err := .seq } } t) ∧
  (∀ s t : State, exec .decInit s = .next t → holds .decInit s = false →
    t.dec.err = (if t.raised = some .decSym then .sym else if t.raised = some .decLen then .len else .clear)) ∧
  (∀ s : State, s.resetBlock.dec.err = .clear)

/-- Rule R195: where `DEC_SYM` is raised, `dec_err` is 2, the offending unit is the last one pulled and no alphabet unit,
every unit that the operation pulled before it is one, and nothing of another unit changes. Conversely a step of
`DEC.INIT` or `DEC.ADV` that pulls a unit outside the alphabet raises it, unless the run had already faulted. -/
def Obligations.DecSymNamesThePulledUnit : Prop :=
  ∀ (s t : State) (i : Instr), exec i s = .next t →
    (t.raised = some .decSym → holds i s = false →
      (i = .decInit ∨ i = .decAdv) ∧ DecOnly s t ∧ t.dec.err = .sym ∧ s.dsrc.pos < t.dsrc.pos ∧
      t.dsrc.pos ≤ s.dsrc.pos + 2 ∧
      (∃ u, s.dsrc.units[t.dsrc.pos - 1]? = some u ∧ AlphabetUnit u = false) ∧
      (∀ p u, s.dsrc.pos ≤ p → p < t.dsrc.pos - 1 → s.dsrc.units[p]? = some u → AlphabetUnit u = true)) ∧
    (i = .decInit ∨ (i = .decAdv ∧ s.dec.err = .clear) →
      (∃ p u, s.dsrc.pos ≤ p ∧ p < t.dsrc.pos ∧ s.dsrc.units[p]? = some u ∧ AlphabetUnit u = false) →
      t.raised = some .decSym)

/-- Rule R196: where `DEC_LEN` is raised, `dec_err` is 3, the end of `DSRC` was met, 5, 6 or 7 bits are held, and
`DEC_DONE` reads 1. -/
def Obligations.DecLenMeetsTheEnd : Prop :=
  ∀ (s t : State) (i : Instr), exec i s = .next t → holds i s = false → t.raised = some .decLen →
    (i = .decInit ∨ i = .decAdv) ∧ DecOnly s t ∧ t.dec.err = .len ∧ t.dsrc.head = .ended ∧
    5 ≤ t.dec.cnt.toNat ∧ t.dec.cnt.toNat ≤ 7 ∧ t.status.getLsbD 3 = true

/-- `DEC.ADV` in a faulted run, whose effect rule R162 leaves unspecified: `dec_err` stays (rule R199). That it completes,
where U7 equally allows a refusal, that nothing outside the decoder's registers and the read position of `DSRC` changes,
and that a position stays one of its register and stream is the model's choice (log entry 9). -/
def Obligations.DecAdvInAFaultedRunKeepsTheFault : Prop :=
  ∀ s : State, s.dec.err ≠ .clear → ∃ t, exec .decAdv s = .next t ∧ DecOnly s t ∧ t.raised = none ∧
    t.dec.err = s.dec.err ∧ t.decRun = s.decRun ∧ t.dec.pos < 2 ^ (s.cntW + 1) ∧ t.dsrc.pos ≤ s.dsrc.units.length

/-- Where `DEC.INIT` and `DEC.ADV` are refused, which is the model's choice in each clause: over a longer stream than
admitted (rule R53, U9; log entry 11), and, for `DEC.ADV` in a run that no fault is recorded of, where the unread part of
`DSRC` was changed during the run (rule R227, U8; log entry 10). -/
def Obligations.DecoderStopsOutsideItsContract : Prop :=
  ∀ s : State,
    (2 ^ (s.cntW + 1) - 1 < s.dsrc.remaining → exec .decInit s = .refused .streamTooLong) ∧
    (s.dec.err = .clear → 8 ≤ s.dec.cnt.toNat → s.decRun = false → exec .decAdv s = .refused .sourceChanged) ∧
    (s.dec.err = .clear → 8 ≤ s.dec.cnt.toNat → s.decRun = true →
      2 ^ (s.cntW + 1) - 1 < s.dec.pos + s.dsrc.remaining → exec .decAdv s = .refused .streamTooLong)

/-- Rules R164, R168 and R64: the decoder's contract on valid input and its consumption schedule. From every state, byte
`j` is the current byte after `DEC.INIT` and `j` `DEC.ADV`, the symbols pulled by then are as many as the schedule says
and at least `j + 2`, and after `(5k) div 8` `DEC.ADV` the run is finished with all `k` symbols pulled. -/
def Obligations.DecoderContract : Prop :=
  ∀ (s : State) (S : List Byte), S.length ≤ 2 ^ (s.cntW + 1) - 1 → ValidSequence S →
    (∀ j : Nat, j < 5 * S.length / 8 →
      ∃ t u, runTo .decInit .decAdv j (s.setDsrc S true) = .next t ∧ exec .decCur t = .next u ∧
        u.raised = none ∧ u.out.unitOut = decodedByte S j ∧ t.dec.err = .clear ∧
        t.dec.pos = (8 * (j + 1) + 4) / 5 ∧ j + 2 ≤ t.dec.pos) ∧
    (∃ t, runTo .decInit .decAdv (5 * S.length / 8) (s.setDsrc S true) = .next t ∧ t.decFinished ∧
      t.dec.pos = S.length ∧ t.dsrc.pos = S.length ∧ t.dec.cnt.toNat = 5 * S.length % 8)

/-- Rule R169 with rule R196: a run over a valid sequence raises no fault. A run over any other faults after at most
`(5k) div 8` `DEC.ADV`, with no fault before it: with `DEC_SYM` at the pull of the first unit outside the alphabet where
there is one; and with `DEC_LEN` where there is none, at the end of the source and with `(5k) mod 8` bits held. -/
def Obligations.InvalidInputFaults : Prop :=
  ∀ (s : State) (S : List Byte), S.length ≤ 2 ^ (s.cntW + 1) - 1 →
    (ValidSequence S → ∀ j : Nat, j ≤ 5 * S.length / 8 →
      ∃ t, runTo .decInit .decAdv j (s.setDsrc S true) = .next t ∧ t.dec.err = .clear ∧ t.raised = none) ∧
    (¬ ValidSequence S →
      ∃ (j : Nat) (t : State), j ≤ 5 * S.length / 8 ∧ runTo .decInit .decAdv j (s.setDsrc S true) = .next t ∧
        (∀ j' : Nat, j' < j → ∃ t', runTo .decInit .decAdv j' (s.setDsrc S true) = .next t' ∧ t'.dec.err = .clear) ∧
        ((∀ u ∈ S, AlphabetUnit u = true) → t.raised = some .decLen ∧ t.dec.err = .len ∧ t.dec.pos = S.length ∧
          t.dec.cnt.toNat = 5 * S.length % 8) ∧
        (∀ (good bad : List Byte) (u : Byte), S = good ++ u :: bad → AlphabetUnit u = false →
          (∀ g ∈ good, AlphabetUnit g = true) →
          t.raised = some .decSym ∧ t.dec.err = .sym ∧ t.dec.pos = good.length + 1))

/-- Rules R102 and R168: `FROM_BASE32Z(S)` ends; on valid input it finishes with the decoded bytes, and on any other
input it ends faulted, with at most `(5k) div 8` bytes read. The other units are as they were. -/
def Obligations.FromBase32zGivesTheDecoding : Prop :=
  ∀ (s : State) (S : List Byte), S.length ≤ 2 ^ (s.cntW + 1) - 1 →
    ∃ (e : LoopEnd) (out : List Byte) (t : State), fromBase32z S s = .next (e, out, t) ∧
      (ValidSequence S → e = .finished ∧ out = decodedSequence S ∧ out.length = 5 * S.length / 8 ∧
        t.dec.err = .clear ∧ t.dec.cnt.toNat < 8 ∧ t.dec.pos = S.length) ∧
      (¬ ValidSequence S → e = .faulted ∧ out.length ≤ 5 * S.length / 8 ∧ t.dec.err ≠ .clear) ∧
      t.enc = s.enc ∧ t.val = s.val ∧ t.opErr = s.opErr ∧ t.esrc = s.esrc

/-- Rule R165: two valid sequences of one length whose bit strings agree up to bit `8 * ((5k) div 8)` decode to the same
bytes, whatever the bits after it: the decoder ignores the padding bits. -/
def Obligations.PaddingBitsAreIgnored : Prop :=
  ∀ (s : State) (S S' : List Byte), S.length ≤ 2 ^ (s.cntW + 1) - 1 → ValidSequence S → ValidSequence S' →
    S.length = S'.length → (∀ t : Nat, t < 8 * (5 * S.length / 8) → symbolBit S t = symbolBit S' t) →
    ∃ (out : List Byte) (a b : State),
      fromBase32z S s = .next (.finished, out, a) ∧ fromBase32z S' s = .next (.finished, out, b)

/-- Rule R166: replacing any letters by their other case changes neither the verdict nor any decoded byte. -/
def Obligations.DecodingIsCaseInsensitive : Prop :=
  ∀ (s : State) (S S' : List Byte), S.length ≤ 2 ^ (s.cntW + 1) - 1 → ValidSequence S →
    List.Forall₂ (fun u v => v = u ∨ v = otherCase u) S S' →
    (∃ t, isBase32z S' s = .next (true, t)) ∧
    ∃ (out : List Byte) (a b : State),
      fromBase32z S s = .next (.finished, out, a) ∧ fromBase32z S' s = .next (.finished, out, b)

/-- Rule R167: the round trip. From every state, every byte sequence of an admitted length encodes to a sequence that the
validator accepts and that decodes to the very bytes, with no fault. -/
def Obligations.DecodingUndoesEncoding : Prop :=
  ∀ (s : State) (B : List Byte), B.length ≤ 2 ^ s.cntW - 1 →
    ∃ (S : List Byte) (a b c : State), toBase32z B s = .next (.finished, S, a) ∧ isBase32z S a = .next (true, b) ∧
      fromBase32z S b = .next (.finished, B, c) ∧ c.enc.err = false ∧ c.dec.err = .clear

/-! ### Housekeeping, faults, the whole block -/

/-- Rule R180: `IDLE` completes in every state and changes nothing. Before or after another operation it leaves that
operation's effect and results as they are. -/
def Obligations.IdleChangesNothing : Prop :=
  Encoded 0x0#4 .n .idle ∧
  (∀ s : State, ∃ t, exec .idle s = .next t ∧ Quiet s t ∧ t.raised = none) ∧
  (∀ (i : Instr) (s a b : State), exec i s = .next a → exec .idle s = .next b → holds i s = false →
    ∃ c, exec i b = .next c ∧ Quiet a c ∧ c.raised = a.raised ∧ (DrivesIn i s → SameResults i a.out c.out))

/-- Rule R181 with rule R36: `STATUS.RD` drives `status_out` with the eight bits as listed, in every state, clears
nothing and changes nothing. -/
def Obligations.StatusRdReportsEveryField : Prop :=
  Encoded 0xE#4 .r .statusRd ∧
  ∀ s : State, ∃ t, exec .statusRd s = .next t ∧ Quiet s t ∧ t.raised = none ∧
    (t.out.statusOut.getLsbD 0 = true ↔ s.enc.cnt = 0#4) ∧
    t.out.statusOut.getLsbD 1 = s.enc.term ∧
    t.out.statusOut.getLsbD 2 = s.enc.err ∧
    (t.out.statusOut.getLsbD 3 = true ↔ s.dec.cnt.toNat < 8) ∧
    t.out.statusOut.extractLsb' 4 2 = (match s.dec.err with | .clear => 0#2 | .seq => 1#2 | .sym => 2#2 | .len => 3#2) ∧
    (t.out.statusOut.getLsbD 6 = true ↔
      s.val.ok = true ∧ s.val.cnt ≠ 1#3 ∧ s.val.cnt ≠ 3#3 ∧ s.val.cnt ≠ 6#3) ∧
    t.out.statusOut.getLsbD 7 = s.opErr

/-- Rules R192 and R84: the reserved code raises `ILLEGAL_OP` in every state: `op_err` is set and no other register and
no source stream changes. -/
def Obligations.ReservedCodeRaisesIllegalOp : Prop :=
  ∀ s : State, ∃ t, exec .reserved s = .next t ∧ t.raised = some .illegalOp ∧ Quiet { s with opErr := true } t

/-- Rules R199 and R201, over all operations: a recorded fault stays until the `INIT` of its unit, and `op_err` through
every operation; an operation that finds a decoder fault recorded records no other. -/
def Obligations.OnlyInitLeavesAFault : Prop :=
  ∀ (i : Instr) (s t : State), exec i s = .next t →
    (s.enc.err = true → i ≠ .encInit → t.enc.err = true) ∧
    (s.dec.err ≠ .clear → i ≠ .decInit → t.dec.err = s.dec.err) ∧
    (s.opErr = true → t.opErr = true) ∧
    (t.enc.err = true → s.enc.err = true ∨ ((i = .encCur ∨ i = .encAdv) ∧ t.raised = some .encSeq)) ∧
    (t.opErr = true → s.opErr = true ∨ i = .reserved)

/-- Rule R191, over all operations: exactly when `ILLEGAL_OP`, `ENC_SEQ` and `DEC_SEQ` are raised, and that only
`DEC.INIT` and `DEC.ADV` raise the other two; so ten operations raise none. -/
def Obligations.OnlyTheListedOperationsRaise : Prop :=
  ∀ (i : Instr) (s t : State), exec i s = .next t → holds i s = false →
    (t.raised = some .illegalOp ↔ i = .reserved) ∧
    (t.raised = some .encSeq ↔ (i = .encCur ∨ i = .encAdv) ∧ s.enc.cnt = 0#4) ∧
    (t.raised = some .decSeq ↔ (i = .decCur ∨ i = .decAdv) ∧ s.dec.cnt.toNat < 8 ∧ s.dec.err = .clear) ∧
    (t.raised = some .decSym → i = .decInit ∨ (i = .decAdv ∧ s.dec.err = .clear)) ∧
    (t.raised = some .decLen → i = .decInit ∨ (i = .decAdv ∧ s.dec.err = .clear))

/-- Rule R45, over all operations: an operation changes no context but its own unit's, and no stream but its own
unit's; only the reserved code writes `op_err`; the width, the operand ports and the caller's side are untouched. -/
def Obligations.UnitsShareNoMutableState : Prop :=
  ∀ (i : Instr) (s t : State), exec i s = .next t →
    (i.blockUnit ≠ .encoder → t.enc = s.enc ∧ t.esrc = s.esrc) ∧
    (i.blockUnit ≠ .decoder → t.dec = s.dec ∧ t.dsrc = s.dsrc) ∧
    (i.blockUnit ≠ .validator → t.val = s.val) ∧
    (i ≠ .reserved → t.opErr = s.opErr) ∧
    t.esrc.units = s.esrc.units ∧ t.dsrc.units = s.dsrc.units ∧
    t.cntW = s.cntW ∧ t.ports = s.ports ∧ t.caller = s.caller ∧ t.arrivals = s.arrivals

/-- Rule R66: two operations of different units commute: in either order they give the same final state, with the same
results and the same faults. `STATUS.RD` is the exception that the rule names. -/
def Obligations.OperationsOfDifferentUnitsCommute : Prop :=
  ∀ (i j : Instr) (s a b : State) (p q : OperandPorts),
    i.blockUnit ≠ j.blockUnit → i ≠ .statusRd → j ≠ .statusRd →
    holds i (s.present p) = false → holds j (s.present q) = false →
    exec i (s.present p) = .next a → exec j (a.present q) = .next b →
    ∃ c d, exec j (s.present q) = .next c ∧ exec i (c.present p) = .next d ∧ SameMachine b d ∧
      a.raised = d.raised ∧ b.raised = c.raised ∧
      (DrivesIn i s → SameResults i a.out d.out) ∧ (DrivesIn j s → SameResults j b.out c.out)

/-- Rule R70: a store into the part of `DSRC` that was read changes nothing of any operation: it gives what it gives
without the store, with the stored byte in the storage. -/
def Obligations.StoreBelowTheReadPositionIsInvisible : Prop :=
  ∀ (i : Instr) (s : State) (p : Nat) (b : Byte), p < s.dsrc.pos →
    exec i (s.storeDsrc p b) =
      mapNext (fun t => { t with dsrc := { t.dsrc with units := s.dsrc.units.set p b } }) (exec i s)

/-- Rule R62, over all operations: how many units an operation pulls at most, that a position register moves with its
stream, and that no operation but the four pulls any. A `DEC.ADV` in a faulted run is left out (rule R162). -/
def Obligations.PullsAreBounded : Prop :=
  ∀ (i : Instr) (s t : State), exec i s = .next t →
    (s.esrc.pos ≤ t.esrc.pos ∧ t.esrc.pos ≤ s.esrc.pos + 1) ∧
    (i = .encAdv → t.enc.pos + s.esrc.pos = s.enc.pos + t.esrc.pos) ∧
    (i ≠ .encInit → i ≠ .encAdv → t.esrc.pos = s.esrc.pos) ∧
    (i = .decInit ∨ s.dec.err = .clear → s.dsrc.pos ≤ t.dsrc.pos ∧ t.dsrc.pos ≤ s.dsrc.pos + 2) ∧
    (i = .decAdv → s.dec.err = .clear → t.dec.pos + s.dsrc.pos = s.dec.pos + t.dsrc.pos) ∧
    (i ≠ .decInit → i ≠ .decAdv → t.dsrc.pos = s.dsrc.pos)

/-- Rules R37 and R38: after an `INIT` or an `ADV` that raises no fault, the count is in the range that the rule gives and
the accumulator is canonical, from any count before it. -/
def Obligations.CountsStayInRange : Prop :=
  ∀ (i : Instr) (s t : State), exec i s = .next t → holds i s = false → t.raised = none →
    (i = .encInit ∨ i = .encAdv →
      (t.enc.cnt.toNat = 0 ∨ (5 ≤ t.enc.cnt.toNat ∧ t.enc.cnt.toNat ≤ 12)) ∧
      t.enc.acc.toNat < 2 ^ t.enc.cnt.toNat) ∧
    (i = .decInit ∨ (i = .decAdv ∧ s.dec.err = .clear) →
      (t.dec.cnt.toNat ≤ 4 ∨ (8 ≤ t.dec.cnt.toNat ∧ t.dec.cnt.toNat ≤ 12)) ∧
      t.dec.acc.toNat < 2 ^ t.dec.cnt.toNat)

/-- The invariant holds at reset, at every legal width `CNT_W`. -/
def Obligations.InvariantAtReset : Prop := ∀ w : Nat, 1 ≤ w → (State.resetOf w).Inv

/-- The invariant is kept by every step from every state that meets it: an operation of any kind, one that holds and
meets what comes meanwhile, a change of a stream by the caller, the reset event (what a step is, is the model's choice: log
entries 12, 15, 20 and 22). -/
def Obligations.InvariantIsKeptByEveryStep : Prop :=
  ∀ s t : State, s.Inv → step s = .next t → t.Inv

/-- Every operation answers a next state where the invariant holds and the run that it advances is over an unchanged
source of an admitted length; it holds exactly where a head that it needs is not known, and so completes wherever the
heads it needs are known, be the end of the stream known or not. No step from a state that meets the invariant ends in a
fault of the model. That a hold is a next state is the model's choice (log entry 12). -/
def Obligations.EveryOperationCompletes : Prop :=
  (∀ (i : Instr) (s : State), s.Inv →
    (i = .encInit → s.esrc.remaining ≤ 2 ^ s.cntW - 1) → (i = .decInit → s.dsrc.remaining ≤ 2 ^ (s.cntW + 1) - 1) →
    (i = .encAdv → 5 ≤ s.enc.cnt.toNat → s.enc.cnt.toNat < 10 → s.encReady) →
    (i = .decAdv → s.dec.err = .clear → 8 ≤ s.dec.cnt.toNat → s.decReady) →
    (∃ t, exec i s = .next t) ∧ (holds i s = false ↔ HeadsKnownFor i s)) ∧
  (∀ (s : State) (f : Fault), s.Inv → step s ≠ .fault f)

/-- What the caller does to its streams changes no register of the block, and a stream that is set is at position 0
(rule R53). That a set, or a store into the unread part of `DSRC`, is a step in the middle of a run, where rules R223 and
R227 assume that it never comes, and that from then the run in progress is no longer one is the model's choice (log
entries 10 and 20). -/
def Obligations.CallerActionsChangeNoRegister : Prop :=
  ∀ (s : State) (rest : List CallerEvent),
    (∀ (B : List Byte) (e : Bool), s.caller = .setEsrc B e :: rest → ∃ t, step s = .next t ∧
      t.esrc = { units := B, pos := 0, ended := e } ∧ t.encRun = false ∧ t.decRun = s.decRun ∧ t.dsrc = s.dsrc ∧
      t.enc = s.enc ∧ t.dec = s.dec ∧ t.val = s.val ∧ t.opErr = s.opErr ∧ t.caller = rest) ∧
    (∀ (B : List Byte) (e : Bool), s.caller = .setDsrc B e :: rest → ∃ t, step s = .next t ∧
      t.dsrc = { units := B, pos := 0, ended := e } ∧ t.decRun = false ∧ t.encRun = s.encRun ∧ t.esrc = s.esrc ∧
      t.enc = s.enc ∧ t.dec = s.dec ∧ t.val = s.val ∧ t.opErr = s.opErr ∧ t.caller = rest) ∧
    (∀ (p : Nat) (b : Byte), s.caller = .storeDsrc p b :: rest → ∃ t, step s = .next t ∧
      t.dsrc = { s.dsrc with units := s.dsrc.units.set p b } ∧ t.esrc = s.esrc ∧ t.encRun = s.encRun ∧
      (p < s.dsrc.pos → t.decRun = s.decRun) ∧
      (s.dsrc.pos ≤ p → p < s.dsrc.units.length → t.decRun = false) ∧
      t.enc = s.enc ∧ t.dec = s.dec ∧ t.val = s.val ∧ t.opErr = s.opErr ∧ t.caller = rest)
end

