-- ==== Sys2Proof/Laws/State.lean ====
section
/-! SUPPORT. Laws/State.lean: one lemma for each field of State under each of the shared updates, each true by `rfl`, so
that no proof unfolds a record update. -/

namespace Sys2Proof.Machine

variable (s : State)

/-! `State.finish` -/

@[simp] theorem State.finish_enc (r : Results) : (s.finish r).enc = s.enc := rfl
@[simp] theorem State.finish_dec (r : Results) : (s.finish r).dec = s.dec := rfl
@[simp] theorem State.finish_val (r : Results) : (s.finish r).val = s.val := rfl
@[simp] theorem State.finish_opErr (r : Results) : (s.finish r).opErr = s.opErr := rfl
@[simp] theorem State.finish_esrc (r : Results) : (s.finish r).esrc = s.esrc := rfl
@[simp] theorem State.finish_dsrc (r : Results) : (s.finish r).dsrc = s.dsrc := rfl
@[simp] theorem State.finish_encRun (r : Results) : (s.finish r).encRun = s.encRun := rfl
@[simp] theorem State.finish_decRun (r : Results) : (s.finish r).decRun = s.decRun := rfl
@[simp] theorem State.finish_ports (r : Results) : (s.finish r).ports = s.ports := rfl
@[simp] theorem State.finish_out (r : Results) : (s.finish r).out = r := rfl
@[simp] theorem State.finish_raised (r : Results) : (s.finish r).raised = none := rfl
@[simp] theorem State.finish_caller (r : Results) : (s.finish r).caller = s.caller := rfl
@[simp] theorem State.finish_arrivals (r : Results) : (s.finish r).arrivals = s.arrivals := rfl
@[simp] theorem State.finish_cntW (r : Results) : (s.finish r).cntW = s.cntW := rfl
@[simp] theorem State.finish_decFree (r : Results) : (s.finish r).decFree = s.decFree := rfl
@[simp] theorem State.finish_portFree (r : Results) : (s.finish r).portFree = s.portFree + 1 := rfl

/-! `State.raise` -/

@[simp] theorem State.raise_enc (c : FaultCause) : (s.raise c).enc = (s.recordFault c).enc := rfl
@[simp] theorem State.raise_dec (c : FaultCause) : (s.raise c).dec = (s.recordFault c).dec := rfl
@[simp] theorem State.raise_val (c : FaultCause) : (s.raise c).val = s.val := by cases c <;> rfl
@[simp] theorem State.raise_opErr (c : FaultCause) : (s.raise c).opErr = (s.recordFault c).opErr := rfl
@[simp] theorem State.raise_esrc (c : FaultCause) : (s.raise c).esrc = s.esrc := by cases c <;> rfl
@[simp] theorem State.raise_dsrc (c : FaultCause) : (s.raise c).dsrc = s.dsrc := by cases c <;> rfl
@[simp] theorem State.raise_encRun (c : FaultCause) : (s.raise c).encRun = s.encRun := by cases c <;> rfl
@[simp] theorem State.raise_decRun (c : FaultCause) : (s.raise c).decRun = s.decRun := by cases c <;> rfl
@[simp] theorem State.raise_ports (c : FaultCause) : (s.raise c).ports = s.ports := by cases c <;> rfl
@[simp] theorem State.raise_out (c : FaultCause) : (s.raise c).out = s.undriven := rfl
@[simp] theorem State.raise_raised (c : FaultCause) : (s.raise c).raised = some c := rfl
@[simp] theorem State.raise_caller (c : FaultCause) : (s.raise c).caller = s.caller := by cases c <;> rfl
@[simp] theorem State.raise_arrivals (c : FaultCause) : (s.raise c).arrivals = s.arrivals := by cases c <;> rfl
@[simp] theorem State.raise_cntW (c : FaultCause) : (s.raise c).cntW = s.cntW := by cases c <;> rfl
@[simp] theorem State.raise_decFree (c : FaultCause) : (s.raise c).decFree = s.decFree := by cases c <;> rfl
@[simp] theorem State.raise_portFree (c : FaultCause) : (s.raise c).portFree = s.portFree + 1 := rfl

/-! `State.present` -/

@[simp] theorem State.present_enc (p : OperandPorts) : (s.present p).enc = s.enc := rfl
@[simp] theorem State.present_dec (p : OperandPorts) : (s.present p).dec = s.dec := rfl
@[simp] theorem State.present_val (p : OperandPorts) : (s.present p).val = s.val := rfl
@[simp] theorem State.present_opErr (p : OperandPorts) : (s.present p).opErr = s.opErr := rfl
@[simp] theorem State.present_esrc (p : OperandPorts) : (s.present p).esrc = s.esrc := rfl
@[simp] theorem State.present_dsrc (p : OperandPorts) : (s.present p).dsrc = s.dsrc := rfl
@[simp] theorem State.present_encRun (p : OperandPorts) : (s.present p).encRun = s.encRun := rfl
@[simp] theorem State.present_decRun (p : OperandPorts) : (s.present p).decRun = s.decRun := rfl
@[simp] theorem State.present_ports (p : OperandPorts) : (s.present p).ports = p := rfl
@[simp] theorem State.present_out (p : OperandPorts) : (s.present p).out = s.out := rfl
@[simp] theorem State.present_raised (p : OperandPorts) : (s.present p).raised = s.raised := rfl
@[simp] theorem State.present_caller (p : OperandPorts) : (s.present p).caller = s.caller := rfl
@[simp] theorem State.present_arrivals (p : OperandPorts) : (s.present p).arrivals = s.arrivals := rfl
@[simp] theorem State.present_cntW (p : OperandPorts) : (s.present p).cntW = s.cntW := rfl
@[simp] theorem State.present_decFree (p : OperandPorts) : (s.present p).decFree = s.decFree := rfl
@[simp] theorem State.present_portFree (p : OperandPorts) : (s.present p).portFree = s.portFree := rfl

/-! `State.withEnc` -/

@[simp] theorem State.withEnc_enc (e : EncCtx) (S : Stream) : (s.withEnc e S).enc = e := rfl
@[simp] theorem State.withEnc_dec (e : EncCtx) (S : Stream) : (s.withEnc e S).dec = s.dec := rfl
@[simp] theorem State.withEnc_val (e : EncCtx) (S : Stream) : (s.withEnc e S).val = s.val := rfl
@[simp] theorem State.withEnc_opErr (e : EncCtx) (S : Stream) : (s.withEnc e S).opErr = s.opErr := rfl
@[simp] theorem State.withEnc_esrc (e : EncCtx) (S : Stream) : (s.withEnc e S).esrc = S := rfl
@[simp] theorem State.withEnc_dsrc (e : EncCtx) (S : Stream) : (s.withEnc e S).dsrc = s.dsrc := rfl
@[simp] theorem State.withEnc_encRun (e : EncCtx) (S : Stream) : (s.withEnc e S).encRun = s.encRun := rfl
@[simp] theorem State.withEnc_decRun (e : EncCtx) (S : Stream) : (s.withEnc e S).decRun = s.decRun := rfl
@[simp] theorem State.withEnc_ports (e : EncCtx) (S : Stream) : (s.withEnc e S).ports = s.ports := rfl
@[simp] theorem State.withEnc_out (e : EncCtx) (S : Stream) : (s.withEnc e S).out = s.out := rfl
@[simp] theorem State.withEnc_raised (e : EncCtx) (S : Stream) : (s.withEnc e S).raised = s.raised := rfl
@[simp] theorem State.withEnc_caller (e : EncCtx) (S : Stream) : (s.withEnc e S).caller = s.caller := rfl
@[simp] theorem State.withEnc_arrivals (e : EncCtx) (S : Stream) : (s.withEnc e S).arrivals = s.arrivals := rfl
@[simp] theorem State.withEnc_cntW (e : EncCtx) (S : Stream) : (s.withEnc e S).cntW = s.cntW := rfl
@[simp] theorem State.withEnc_decFree (e : EncCtx) (S : Stream) : (s.withEnc e S).decFree = s.decFree := rfl
@[simp] theorem State.withEnc_portFree (e : EncCtx) (S : Stream) : (s.withEnc e S).portFree = s.portFree := rfl

/-! `State.withDec` -/

@[simp] theorem State.withDec_enc (d : DecCtx) (S : Stream) : (s.withDec d S).enc = s.enc := rfl
@[simp] theorem State.withDec_dec (d : DecCtx) (S : Stream) : (s.withDec d S).dec = d := rfl
@[simp] theorem State.withDec_val (d : DecCtx) (S : Stream) : (s.withDec d S).val = s.val := rfl
@[simp] theorem State.withDec_opErr (d : DecCtx) (S : Stream) : (s.withDec d S).opErr = s.opErr := rfl
@[simp] theorem State.withDec_esrc (d : DecCtx) (S : Stream) : (s.withDec d S).esrc = s.esrc := rfl
@[simp] theorem State.withDec_dsrc (d : DecCtx) (S : Stream) : (s.withDec d S).dsrc = S := rfl
@[simp] theorem State.withDec_encRun (d : DecCtx) (S : Stream) : (s.withDec d S).encRun = s.encRun := rfl
@[simp] theorem State.withDec_decRun (d : DecCtx) (S : Stream) : (s.withDec d S).decRun = s.decRun := rfl
@[simp] theorem State.withDec_ports (d : DecCtx) (S : Stream) : (s.withDec d S).ports = s.ports := rfl
@[simp] theorem State.withDec_out (d : DecCtx) (S : Stream) : (s.withDec d S).out = s.out := rfl
@[simp] theorem State.withDec_raised (d : DecCtx) (S : Stream) : (s.withDec d S).raised = s.raised := rfl
@[simp] theorem State.withDec_caller (d : DecCtx) (S : Stream) : (s.withDec d S).caller = s.caller := rfl
@[simp] theorem State.withDec_arrivals (d : DecCtx) (S : Stream) : (s.withDec d S).arrivals = s.arrivals := rfl
@[simp] theorem State.withDec_cntW (d : DecCtx) (S : Stream) : (s.withDec d S).cntW = s.cntW := rfl
@[simp] theorem State.withDec_decFree (d : DecCtx) (S : Stream) : (s.withDec d S).decFree = s.decFree := rfl
@[simp] theorem State.withDec_portFree (d : DecCtx) (S : Stream) : (s.withDec d S).portFree = s.portFree := rfl

/-! `State.clearEncFault` -/

@[simp] theorem State.clearEncFault_enc : (s.clearEncFault).enc = { s.enc with err := false } := rfl
@[simp] theorem State.clearEncFault_dec : (s.clearEncFault).dec = s.dec := rfl
@[simp] theorem State.clearEncFault_val : (s.clearEncFault).val = s.val := rfl
@[simp] theorem State.clearEncFault_opErr : (s.clearEncFault).opErr = s.opErr := rfl
@[simp] theorem State.clearEncFault_esrc : (s.clearEncFault).esrc = s.esrc := rfl
@[simp] theorem State.clearEncFault_dsrc : (s.clearEncFault).dsrc = s.dsrc := rfl
@[simp] theorem State.clearEncFault_encRun : (s.clearEncFault).encRun = s.encRun := rfl
@[simp] theorem State.clearEncFault_decRun : (s.clearEncFault).decRun = s.decRun := rfl
@[simp] theorem State.clearEncFault_ports : (s.clearEncFault).ports = s.ports := rfl
@[simp] theorem State.clearEncFault_out : (s.clearEncFault).out = s.out := rfl
@[simp] theorem State.clearEncFault_raised : (s.clearEncFault).raised = s.raised := rfl
@[simp] theorem State.clearEncFault_caller : (s.clearEncFault).caller = s.caller := rfl
@[simp] theorem State.clearEncFault_arrivals : (s.clearEncFault).arrivals = s.arrivals := rfl
@[simp] theorem State.clearEncFault_cntW : (s.clearEncFault).cntW = s.cntW := rfl
@[simp] theorem State.clearEncFault_decFree : (s.clearEncFault).decFree = s.decFree := rfl
@[simp] theorem State.clearEncFault_portFree : (s.clearEncFault).portFree = s.portFree := rfl

/-! `State.clearDecFault` -/

@[simp] theorem State.clearDecFault_enc : (s.clearDecFault).enc = s.enc := rfl
@[simp] theorem State.clearDecFault_dec : (s.clearDecFault).dec = { s.dec with err := .clear } := rfl
@[simp] theorem State.clearDecFault_val : (s.clearDecFault).val = s.val := rfl
@[simp] theorem State.clearDecFault_opErr : (s.clearDecFault).opErr = s.opErr := rfl
@[simp] theorem State.clearDecFault_esrc : (s.clearDecFault).esrc = s.esrc := rfl
@[simp] theorem State.clearDecFault_dsrc : (s.clearDecFault).dsrc = s.dsrc := rfl
@[simp] theorem State.clearDecFault_encRun : (s.clearDecFault).encRun = s.encRun := rfl
@[simp] theorem State.clearDecFault_decRun : (s.clearDecFault).decRun = s.decRun := rfl
@[simp] theorem State.clearDecFault_ports : (s.clearDecFault).ports = s.ports := rfl
@[simp] theorem State.clearDecFault_out : (s.clearDecFault).out = s.out := rfl
@[simp] theorem State.clearDecFault_raised : (s.clearDecFault).raised = s.raised := rfl
@[simp] theorem State.clearDecFault_caller : (s.clearDecFault).caller = s.caller := rfl
@[simp] theorem State.clearDecFault_arrivals : (s.clearDecFault).arrivals = s.arrivals := rfl
@[simp] theorem State.clearDecFault_cntW : (s.clearDecFault).cntW = s.cntW := rfl
@[simp] theorem State.clearDecFault_decFree : (s.clearDecFault).decFree = s.decFree := rfl
@[simp] theorem State.clearDecFault_portFree : (s.clearDecFault).portFree = s.portFree := rfl

/-! `State.resetBlock` -/

@[simp] theorem State.resetBlock_enc : (s.resetBlock).enc = .reset := rfl
@[simp] theorem State.resetBlock_dec : (s.resetBlock).dec = .reset := rfl
@[simp] theorem State.resetBlock_val : (s.resetBlock).val = .reset := rfl
@[simp] theorem State.resetBlock_opErr : (s.resetBlock).opErr = false := rfl
@[simp] theorem State.resetBlock_esrc : (s.resetBlock).esrc = s.esrc := rfl
@[simp] theorem State.resetBlock_dsrc : (s.resetBlock).dsrc = s.dsrc := rfl
@[simp] theorem State.resetBlock_encRun : (s.resetBlock).encRun = false := rfl
@[simp] theorem State.resetBlock_decRun : (s.resetBlock).decRun = false := rfl
@[simp] theorem State.resetBlock_ports : (s.resetBlock).ports = s.ports := rfl
@[simp] theorem State.resetBlock_out : (s.resetBlock).out = s.out := rfl
@[simp] theorem State.resetBlock_raised : (s.resetBlock).raised = none := rfl
@[simp] theorem State.resetBlock_caller : (s.resetBlock).caller = s.caller := rfl
@[simp] theorem State.resetBlock_arrivals : (s.resetBlock).arrivals = s.arrivals := rfl
@[simp] theorem State.resetBlock_cntW : (s.resetBlock).cntW = s.cntW := rfl
@[simp] theorem State.resetBlock_decFree : (s.resetBlock).decFree = s.decFree := rfl
@[simp] theorem State.resetBlock_portFree : (s.resetBlock).portFree = s.portFree := rfl

/-! `State.loseDecBits` -/

@[simp] theorem State.loseDecBits_enc : (s.loseDecBits).enc = s.enc := rfl
@[simp] theorem State.loseDecBits_dec : (s.loseDecBits).dec = { s.dec with acc := Config.freeDecAcc s.decFree, cnt := Config.freeDecCnt s.decFree } := rfl
@[simp] theorem State.loseDecBits_val : (s.loseDecBits).val = s.val := rfl
@[simp] theorem State.loseDecBits_opErr : (s.loseDecBits).opErr = s.opErr := rfl
@[simp] theorem State.loseDecBits_esrc : (s.loseDecBits).esrc = s.esrc := rfl
@[simp] theorem State.loseDecBits_dsrc : (s.loseDecBits).dsrc = s.dsrc := rfl
@[simp] theorem State.loseDecBits_encRun : (s.loseDecBits).encRun = s.encRun := rfl
@[simp] theorem State.loseDecBits_decRun : (s.loseDecBits).decRun = s.decRun := rfl
@[simp] theorem State.loseDecBits_ports : (s.loseDecBits).ports = s.ports := rfl
@[simp] theorem State.loseDecBits_out : (s.loseDecBits).out = s.out := rfl
@[simp] theorem State.loseDecBits_raised : (s.loseDecBits).raised = s.raised := rfl
@[simp] theorem State.loseDecBits_caller : (s.loseDecBits).caller = s.caller := rfl
@[simp] theorem State.loseDecBits_arrivals : (s.loseDecBits).arrivals = s.arrivals := rfl
@[simp] theorem State.loseDecBits_cntW : (s.loseDecBits).cntW = s.cntW := rfl
@[simp] theorem State.loseDecBits_decFree : (s.loseDecBits).decFree = s.decFree + 1 := rfl
@[simp] theorem State.loseDecBits_portFree : (s.loseDecBits).portFree = s.portFree := rfl

/-! `State.setEsrc` -/

@[simp] theorem State.setEsrc_enc (B : List Byte) (e : Bool) : (s.setEsrc B e).enc = s.enc := rfl
@[simp] theorem State.setEsrc_dec (B : List Byte) (e : Bool) : (s.setEsrc B e).dec = s.dec := rfl
@[simp] theorem State.setEsrc_val (B : List Byte) (e : Bool) : (s.setEsrc B e).val = s.val := rfl
@[simp] theorem State.setEsrc_opErr (B : List Byte) (e : Bool) : (s.setEsrc B e).opErr = s.opErr := rfl
@[simp] theorem State.setEsrc_esrc (B : List Byte) (e : Bool) : (s.setEsrc B e).esrc = { units := B, pos := 0, ended := e } := rfl
@[simp] theorem State.setEsrc_dsrc (B : List Byte) (e : Bool) : (s.setEsrc B e).dsrc = s.dsrc := rfl
@[simp] theorem State.setEsrc_encRun (B : List Byte) (e : Bool) : (s.setEsrc B e).encRun = false := rfl
@[simp] theorem State.setEsrc_decRun (B : List Byte) (e : Bool) : (s.setEsrc B e).decRun = s.decRun := rfl
@[simp] theorem State.setEsrc_ports (B : List Byte) (e : Bool) : (s.setEsrc B e).ports = s.ports := rfl
@[simp] theorem State.setEsrc_out (B : List Byte) (e : Bool) : (s.setEsrc B e).out = s.out := rfl
@[simp] theorem State.setEsrc_raised (B : List Byte) (e : Bool) : (s.setEsrc B e).raised = s.raised := rfl
@[simp] theorem State.setEsrc_caller (B : List Byte) (e : Bool) : (s.setEsrc B e).caller = s.caller := rfl
@[simp] theorem State.setEsrc_arrivals (B : List Byte) (e : Bool) : (s.setEsrc B e).arrivals = s.arrivals := rfl
@[simp] theorem State.setEsrc_cntW (B : List Byte) (e : Bool) : (s.setEsrc B e).cntW = s.cntW := rfl
@[simp] theorem State.setEsrc_decFree (B : List Byte) (e : Bool) : (s.setEsrc B e).decFree = s.decFree := rfl
@[simp] theorem State.setEsrc_portFree (B : List Byte) (e : Bool) : (s.setEsrc B e).portFree = s.portFree := rfl

/-! `State.setDsrc` -/

@[simp] theorem State.setDsrc_enc (B : List Byte) (e : Bool) : (s.setDsrc B e).enc = s.enc := rfl
@[simp] theorem State.setDsrc_dec (B : List Byte) (e : Bool) : (s.setDsrc B e).dec = s.dec := rfl
@[simp] theorem State.setDsrc_val (B : List Byte) (e : Bool) : (s.setDsrc B e).val = s.val := rfl
@[simp] theorem State.setDsrc_opErr (B : List Byte) (e : Bool) : (s.setDsrc B e).opErr = s.opErr := rfl
@[simp] theorem State.setDsrc_esrc (B : List Byte) (e : Bool) : (s.setDsrc B e).esrc = s.esrc := rfl
@[simp] theorem State.setDsrc_dsrc (B : List Byte) (e : Bool) : (s.setDsrc B e).dsrc = { units := B, pos := 0, ended := e } := rfl
@[simp] theorem State.setDsrc_encRun (B : List Byte) (e : Bool) : (s.setDsrc B e).encRun = s.encRun := rfl
@[simp] theorem State.setDsrc_decRun (B : List Byte) (e : Bool) : (s.setDsrc B e).decRun = false := rfl
@[simp] theorem State.setDsrc_ports (B : List Byte) (e : Bool) : (s.setDsrc B e).ports = s.ports := rfl
@[simp] theorem State.setDsrc_out (B : List Byte) (e : Bool) : (s.setDsrc B e).out = s.out := rfl
@[simp] theorem State.setDsrc_raised (B : List Byte) (e : Bool) : (s.setDsrc B e).raised = s.raised := rfl
@[simp] theorem State.setDsrc_caller (B : List Byte) (e : Bool) : (s.setDsrc B e).caller = s.caller := rfl
@[simp] theorem State.setDsrc_arrivals (B : List Byte) (e : Bool) : (s.setDsrc B e).arrivals = s.arrivals := rfl
@[simp] theorem State.setDsrc_cntW (B : List Byte) (e : Bool) : (s.setDsrc B e).cntW = s.cntW := rfl
@[simp] theorem State.setDsrc_decFree (B : List Byte) (e : Bool) : (s.setDsrc B e).decFree = s.decFree := rfl
@[simp] theorem State.setDsrc_portFree (B : List Byte) (e : Bool) : (s.setDsrc B e).portFree = s.portFree := rfl

/-! `State.recordFault`: the field it writes, and the two that it does not. -/

theorem State.recordFault_enc (c : FaultCause) :
    (s.recordFault c).enc = if c = .encSeq then { s.enc with err := true } else s.enc := by cases c <;> rfl

theorem State.recordFault_opErr (c : FaultCause) :
    (s.recordFault c).opErr = if c = .illegalOp then true else s.opErr := by cases c <;> rfl

theorem State.recordFault_dec_of_recorded (c : FaultCause) (h : s.dec.err ≠ .clear) :
    (s.recordFault c).dec = s.dec := by
  obtain ⟨enc, ⟨acc, cnt, err, pos⟩⟩ := s
  cases c <;> cases err <;> first | rfl | exact absurd rfl h

theorem State.recordFault_dec_acc (c : FaultCause) : (s.recordFault c).dec.acc = s.dec.acc := by cases c <;> rfl

theorem State.recordFault_dec_cnt (c : FaultCause) : (s.recordFault c).dec.cnt = s.dec.cnt := by cases c <;> rfl

theorem State.recordFault_dec_pos (c : FaultCause) : (s.recordFault c).dec.pos = s.dec.pos := by cases c <;> rfl

/-! `State.scrambleDec`: what it keeps. -/

@[simp] theorem State.scrambleDec_err : s.scrambleDec.dec.err = s.dec.err := rfl

@[simp] theorem State.scrambleDec_units : s.scrambleDec.dsrc.units = s.dsrc.units := rfl

@[simp] theorem State.scrambleDec_ended : s.scrambleDec.dsrc.ended = s.dsrc.ended := rfl

theorem State.scrambleDec_pos_lt : s.scrambleDec.dec.pos < 2 ^ (s.cntW + 1) :=
  Nat.mod_lt _ (Nat.two_pow_pos _)

theorem State.scrambleDec_dsrc_pos_le : s.scrambleDec.dsrc.pos ≤ s.dsrc.units.length :=
  Nat.lt_succ_iff.mp (Nat.mod_lt _ (Nat.succ_pos _))

end Sys2Proof.Machine
end

