-- ==== Sys2Proof/Laws/Ops.lean ====
section
/-! SUPPORT. Laws/Ops.lean: what each shared operation can do, said once. Proofs cite these lemmas instead of unfolding
the operations. -/

namespace Sys2Proof.Machine

/-! ### Bits -/

theorem low_toNat (v : Acc) {n : Nat} (h : n ≤ 16) : (low v n).toNat = v.toNat % 2 ^ n := by
  have hp : (2 : Nat) ^ n ≤ 2 ^ 16 := Nat.pow_le_pow_right (by decide) h
  have hm : v.toNat % 2 ^ n < 2 ^ n := Nat.mod_lt _ (Nat.two_pow_pos n)
  simp only [low, BitVec.toNat_ofNat]
  exact Nat.mod_eq_of_lt (lt_of_lt_of_le hm hp)

theorem low_lt (v : Acc) {n : Nat} (h : n ≤ 16) : (low v n).toNat < 2 ^ n := by
  rw [low_toNat v h]
  exact Nat.mod_lt _ (Nat.two_pow_pos n)

/-- Appending `w` bits below an accumulator: where nothing is lost, the shift and the OR are a sum (rule R142 (e),
rule R163). -/
theorem append_bits_toNat (a : Acc) {k w : Nat} (v : BitVec w) (hw : w ≤ 16) (ha : a.toNat < 2 ^ k) (hk : k + w ≤ 16) :
    (a <<< w ||| v.setWidth 16).toNat = a.toNat * 2 ^ w + v.toNat := by
  have hv : v.toNat < 2 ^ w := v.isLt
  have hp : (2 : Nat) ^ (k + w) ≤ 2 ^ 16 := Nat.pow_le_pow_right (by decide) hk
  have hlt : a.toNat * 2 ^ w < 2 ^ 16 := by
    refine lt_of_lt_of_le ?_ hp
    rw [Nat.pow_add]
    exact Nat.mul_lt_mul_of_pos_right ha (Nat.two_pow_pos w)
  have hv16 : v.toNat < 2 ^ 16 := lt_of_lt_of_le hv (Nat.pow_le_pow_right (by decide) hw)
  rw [BitVec.toNat_or, BitVec.toNat_shiftLeft, BitVec.toNat_setWidth, Nat.mod_eq_of_lt hv16,
    Nat.shiftLeft_eq, Nat.mod_eq_of_lt hlt, Nat.mul_comm, Nat.two_pow_add_eq_or_of_lt hv]

/-- The padding shift loses nothing (rule R142 (e)). -/
theorem pad_toNat (a : Acc) {c : Nat} (ha : a.toNat < 2 ^ c) (hc : c ≤ 5) :
    (a <<< (5 - c)).toNat = a.toNat * 2 ^ (5 - c) := by
  have h5 : a.toNat * 2 ^ (5 - c) < 2 ^ 5 := by
    calc a.toNat * 2 ^ (5 - c) < 2 ^ c * 2 ^ (5 - c) := Nat.mul_lt_mul_of_pos_right ha (Nat.two_pow_pos _)
      _ = 2 ^ 5 := by rw [← Nat.pow_add]; congr 1; omega
  rw [BitVec.toNat_shiftLeft, Nat.shiftLeft_eq]
  exact Nat.mod_eq_of_lt (lt_trans h5 (by decide))

theorem cnt_ofNat_toNat {n : Nat} (h : n < 16) : (BitVec.ofNat 4 n).toNat = n := by
  rw [BitVec.toNat_ofNat]
  exact Nat.mod_eq_of_lt h

/-! ### Streams -/

theorem Stream.head_eq_unit_iff (S : Stream) (u : Byte) : S.head = .unit u ↔ S.units[S.pos]? = some u := by
  unfold Stream.head
  cases S.units[S.pos]? with
  | some v => simp
  | none => cases S.ended <;> simp

theorem Stream.head_eq_ended_iff (S : Stream) : S.head = .ended ↔ S.units[S.pos]? = none ∧ S.ended = true := by
  unfold Stream.head
  cases S.units[S.pos]? with
  | some v => simp
  | none => cases S.ended <;> simp

theorem Stream.head_eq_unknown_iff (S : Stream) : S.head = .unknown ↔ S.units[S.pos]? = none ∧ S.ended = false := by
  unfold Stream.head
  cases S.units[S.pos]? with
  | some v => simp
  | none => cases S.ended <;> simp

@[simp] theorem Stream.pop_units (S : Stream) : S.pop.units = S.units := rfl

@[simp] theorem Stream.pop_pos (S : Stream) : S.pop.pos = S.pos + 1 := rfl

@[simp] theorem Stream.pop_ended (S : Stream) : S.pop.ended = S.ended := rfl

/-- A unit at the head is in the sequence, so that one more is among those that remain. -/
theorem Stream.pos_lt_of_head_unit {S : Stream} {u : Byte} (h : S.head = .unit u) : S.pos < S.units.length := by
  rw [Stream.head_eq_unit_iff] at h
  exact (List.getElem?_eq_some_iff.mp h).1

theorem Stream.remaining_pop {S : Stream} {u : Byte} (h : S.head = .unit u) :
    S.pop.remaining + 1 = S.remaining := by
  have := Stream.pos_lt_of_head_unit h
  simp only [Stream.remaining, Stream.pop_units, Stream.pop_pos]
  omega

/-! ### The end of a step -/

theorem quiet_finish (s : State) (r : Results) : Quiet s (s.finish r) := rfl

theorem quiet_finishSilent (s : State) : Quiet s s.finishSilent := rfl

/-- Raising a fault records it and changes nothing else that is state (rule R190). -/
theorem quiet_raise (s : State) (c : FaultCause) : Quiet (s.recordFault c) (s.raise c) := rfl

/-- What an attempt comes to: it goes on in the state it completed in, or in the same state where it holds. -/
theorem Attempt.outcome_eq_next_iff (a : Attempt) (s t : State) :
    a.outcome s = .next t ↔ a = .done t ∨ (a = .hold ∧ t = s) := by
  cases a <;> simp [Attempt.outcome, eq_comm]

theorem Attempt.holds_iff (a : Attempt) : a.holds = true ↔ a = .hold := by cases a <;> simp [Attempt.holds]

theorem andThen_eq_next_iff {α β : Type} (o : Host.Outcome α Fault Refusal) (f : α → Host.Outcome β Fault Refusal) (b : β) :
    andThen o f = .next b ↔ ∃ a, o = .next a ∧ f a = .next b := by
  cases o <;> simp [andThen]

@[simp] theorem andThen_next {α β : Type} (a : α) (f : α → Host.Outcome β Fault Refusal) : andThen (.next a) f = f a := rfl

end Sys2Proof.Machine
end

