-- ==== Sys2Proof/Laws/Decoder.lean ====
section
/-! SUPPORT. Laws/Decoder.lean: what the decoder's operations can come to. -/

namespace Sys2Proof.Machine

/-- Where the source of a decoder run can be read. -/
theorem decSourceStop_eq_none_iff (s : State) :
    s.decSourceStop = none ↔ s.decRun = true ∧ s.dec.pos + s.dsrc.remaining ≤ Config.maxSymbols s.cntW := by
  unfold State.decSourceStop
  cases s.decRun <;> simp

/-! ### The refill, one round at a time (rule R163) -/

theorem decRefill_of_enough (n : Nat) (d : DecCtx) (S : Stream) (h : 8 ≤ d.cnt.toNat) :
    decRefill n d S = .settled d S := by
  cases n with
  | zero => rfl
  | succ n => simp [decRefill, h]

theorem decRefill_of_unknown (n : Nat) {d : DecCtx} {S : Stream} (h : d.cnt.toNat < 8) (hh : S.head = .unknown) :
    decRefill (n + 1) d S = .hold := by
  simp [decRefill, Nat.not_le.mpr h, hh]

theorem decRefill_of_ended (n : Nat) {d : DecCtx} {S : Stream} (h : d.cnt.toNat < 8) (hh : S.head = .ended) :
    decRefill (n + 1) d S = if 5 ≤ d.cnt.toNat then .lengthFault d S else .settled d S := by
  simp [decRefill, Nat.not_le.mpr h, hh]

theorem decRefill_of_member (n : Nat) {d : DecCtx} {S : Stream} {u : Byte} (h : d.cnt.toNat < 8)
    (hh : S.head = .unit u) (hu : AlphabetUnit u = true) :
    decRefill (n + 1) d S =
      decRefill n ({ d with pos := d.pos + 1 }.append (entryValue (memReadInv u))) S.pop := by
  have hu' : entryValid (memReadInv u) = true := hu
  simp [decRefill, Nat.not_le.mpr h, hh, hu']

theorem decRefill_of_stranger (n : Nat) {d : DecCtx} {S : Stream} {u : Byte} (h : d.cnt.toNat < 8)
    (hh : S.head = .unit u) (hu : AlphabetUnit u = false) :
    decRefill (n + 1) d S = .symbolFault { d with pos := d.pos + 1 } S.pop := by
  have hu' : entryValid (memReadInv u) = false := hu
  simp [decRefill, Nat.not_le.mpr h, hh, hu']

/-- The count after an append, from a count that the refill can have. -/
theorem append_cnt_toNat {d : DecCtx} (v : SymVal) (h : d.cnt.toNat < 11) :
    (d.append v).cnt.toNat = d.cnt.toNat + 5 :=
  cnt_ofNat_toNat (by omega)

@[simp] theorem append_pos (d : DecCtx) (v : SymVal) : (d.append v).pos = d.pos := rfl

@[simp] theorem append_err (d : DecCtx) (v : SymVal) : (d.append v).err = d.err := rfl

theorem append_acc_toNat {d : DecCtx} (v : SymVal) {k : Nat} (hk : k ≤ 11) (h : d.acc.toNat < 2 ^ k) :
    (d.append v).acc.toNat = d.acc.toNat * 32 + v.toNat :=
  append_bits_toNat d.acc v (by omega) h (by omega)

/-- What a refill keeps, in every way it can end: the error field, the stream's units and its end, and the difference of
the two positions. -/
theorem decRefill_frame (n : Nat) : ∀ (d : DecCtx) (S : Stream) (d' : DecCtx) (S' : Stream),
    decRefill n d S = .settled d' S' ∨ decRefill n d S = .lengthFault d' S' ∨ decRefill n d S = .symbolFault d' S' →
    d'.err = d.err ∧ S'.units = S.units ∧ S'.ended = S.ended ∧ S.pos ≤ S'.pos ∧ S'.pos ≤ S.pos + n ∧
      d'.pos + S.pos = d.pos + S'.pos ∧ (S.pos ≤ S.units.length → S'.pos ≤ S.units.length) := by
  induction n with
  | zero =>
    intro d S d' S' h
    rcases h with h | h | h <;> simp only [decRefill, Refill.settled.injEq, reduceCtorEq] at h
    obtain ⟨rfl, rfl⟩ := h
    exact ⟨rfl, rfl, rfl, le_refl _, le_refl _, rfl, id⟩
  | succ n ih =>
    intro d S d' S' h
    by_cases hc : 8 ≤ d.cnt.toNat
    · rw [decRefill_of_enough _ _ _ hc] at h
      rcases h with h | h | h <;> simp only [Refill.settled.injEq, reduceCtorEq] at h
      obtain ⟨rfl, rfl⟩ := h
      exact ⟨rfl, rfl, rfl, le_refl _, by omega, rfl, id⟩
    · have hc' : d.cnt.toNat < 8 := by omega
      cases hh : S.head with
      | unknown =>
        rw [decRefill_of_unknown n hc' hh] at h
        rcases h with h | h | h <;> cases h
      | ended =>
        rw [decRefill_of_ended n hc' hh] at h
        split at h <;> rcases h with h | h | h <;> cases h <;>
          exact ⟨rfl, rfl, rfl, le_refl _, by omega, rfl, id⟩
      | unit u =>
        have hp := Stream.pos_lt_of_head_unit hh
        cases hu : AlphabetUnit u with
        | false =>
          rw [decRefill_of_stranger n hc' hh hu] at h
          rcases h with h | h | h <;> cases h
          refine ⟨rfl, rfl, rfl, ?_, ?_, ?_, fun _ => ?_⟩ <;> simp only [Stream.pop_pos] <;> omega
        | true =>
          rw [decRefill_of_member n hc' hh hu] at h
          obtain ⟨h1, h2, h3, h4, h5, h6, h7⟩ := ih _ _ _ _ h
          simp only [append_pos, append_err, Stream.pop_units, Stream.pop_pos, Stream.pop_ended] at h1 h2 h3 h4 h5 h6 h7
          exact ⟨h1, h2, h3, by omega, by omega, by omega, fun _ => h7 (by omega)⟩

/-- What the end of a refilling operation can be. -/
theorem settleRefill_done {s t : State} {R : Refill} (h : settleRefill s R = .done t) :
    (∃ d S, R = .settled d S ∧ t = (s.withDec d S).finishSilent) ∨
    (∃ d S, R = .lengthFault d S ∧ t = (s.withDec d S).raise .decLen) ∨
    (∃ d S, R = .symbolFault d S ∧ t = (s.withDec d S).loseDecBits.raise .decSym) := by
  cases R with
  | settled d S => simp only [settleRefill, Attempt.done.injEq] at h; exact .inl ⟨d, S, rfl, h.symm⟩
  | lengthFault d S => simp only [settleRefill, Attempt.done.injEq] at h; exact .inr (.inl ⟨d, S, rfl, h.symm⟩)
  | symbolFault d S => simp only [settleRefill, Attempt.done.injEq] at h; exact .inr (.inr ⟨d, S, rfl, h.symm⟩)
  | hold => cases h

/-- What `DEC.INIT` can come to. -/
theorem attemptDecInit_done {s t : State} (h : attemptDecInit s = .done t) :
    s.dsrc.remaining ≤ Config.maxSymbols s.cntW ∧
    settleRefill { s.clearDecFault with decRun := true }
      (decRefill 2 { acc := 0#16, cnt := 0#4, err := .clear, pos := 0 } s.dsrc) = .done t := by
  unfold attemptDecInit at h
  split at h
  · cases h
  · exact ⟨by omega, h⟩

/-- What `DEC.ADV` can come to: the faulted run, the fault, or the discard and the refill. -/
theorem attemptDecAdv_done {s t : State} (h : attemptDecAdv s = .done t) :
    (s.dec.err ≠ .clear ∧ t = s.scrambleDec.finishSilent) ∨
    (s.dec.err = .clear ∧ s.dec.cnt.toNat < 8 ∧ t = s.raise .decSeq) ∨
    (s.dec.err = .clear ∧ 8 ≤ s.dec.cnt.toNat ∧ s.decRun = true ∧
      s.dec.pos + s.dsrc.remaining ≤ Config.maxSymbols s.cntW ∧
      settleRefill s (decRefill 2 s.dec.discard s.dsrc) = .done t) := by
  unfold attemptDecAdv at h
  split at h
  · simp only [Attempt.done.injEq] at h
    exact .inl ⟨‹_›, h.symm⟩
  · rename_i he
    have he' : s.dec.err = .clear := not_not.mp he
    split at h
    · simp only [Attempt.done.injEq] at h
      exact .inr (.inl ⟨he', ‹_›, h.symm⟩)
    · cases hs : s.decSourceStop with
      | some r => simp only [hs] at h; cases h
      | none =>
        obtain ⟨hr, hl⟩ := (decSourceStop_eq_none_iff s).mp hs
        simp only [hs] at h
        exact .inr (.inr ⟨he', by omega, hr, hl, h⟩)

end Sys2Proof.Machine
end

