-- ==== Sys2Proof/Laws/Encoder.lean ====
section
/-! SUPPORT. Laws/Encoder.lean: what the encoder's operations can come to. -/

namespace Sys2Proof.Machine

/-- Where the source of an encoder run can be read. -/
theorem encSourceStop_eq_none_iff (s : State) :
    s.encSourceStop = none ↔ s.encRun = true ∧ s.enc.pos + s.esrc.remaining ≤ Config.maxBytes s.cntW := by
  unfold State.encSourceStop
  cases s.encRun <;> simp

/-- What `ENC.INIT` can come to. -/
theorem attemptEncInit_done {s t : State} (h : attemptEncInit s = .done t) :
    s.esrc.remaining ≤ Config.maxBytes s.cntW ∧
    ((∃ b, s.esrc.head = .unit b ∧
        t = State.finishSilent { s with
          enc := { acc := b.setWidth 16, cnt := 8#4, term := false, err := false, pos := 1 }
          esrc := s.esrc.pop, encRun := true }) ∨
      (s.esrc.head = .ended ∧
        t = State.finishSilent { s with
          enc := { acc := 0#16, cnt := 0#4, term := false, err := false, pos := 0 }, encRun := true })) := by
  unfold attemptEncInit at h
  split at h
  · cases h
  · refine ⟨by omega, ?_⟩
    cases hh : s.esrc.head with
    | unknown => simp only [hh] at h; cases h
    | unit b =>
      simp only [hh, Attempt.done.injEq] at h
      exact .inl ⟨b, rfl, h.symm⟩
    | ended =>
      simp only [hh, Attempt.done.injEq] at h
      exact .inr ⟨rfl, h.symm⟩

/-- What `ENC.ADV` can come to: the fault, the discard alone, the pull, the padding, or the exhaustion. -/
theorem attemptEncAdv_done {s t : State} (h : attemptEncAdv s = .done t) :
    (s.enc.cnt.toNat = 0 ∧ t = s.raise .encSeq) ∨
    ∃ c, s.enc.cnt.toNat = c + 5 ∧
      ((5 ≤ c ∧ t = State.finishSilent { s with enc := { s.enc with acc := low s.enc.acc c, cnt := BitVec.ofNat 4 c } }) ∨
       (c < 5 ∧ s.encRun = true ∧ s.enc.pos + s.esrc.remaining ≤ Config.maxBytes s.cntW ∧
        ((∃ b, s.esrc.head = .unit b ∧
            t = State.finishSilent { s with
              enc := { s.enc with
                acc := low s.enc.acc c <<< 8 ||| b.setWidth 16, cnt := BitVec.ofNat 4 (c + 8), pos := s.enc.pos + 1 }
              esrc := s.esrc.pop }) ∨
         (s.esrc.head = .ended ∧ 0 < c ∧
            t = State.finishSilent { s with
              enc := { s.enc with acc := low s.enc.acc c <<< (5 - c), cnt := 5#4, term := true } }) ∨
         (s.esrc.head = .ended ∧ c = 0 ∧
            t = State.finishSilent { s with enc := { s.enc with acc := 0#16, cnt := 0#4 } })))) := by
  unfold attemptEncAdv at h
  split at h
  · simp only [Attempt.done.injEq] at h
    exact .inl ⟨‹_›, h.symm⟩
  · split at h
    · cases h
    · refine .inr ⟨s.enc.cnt.toNat - 5, by omega, ?_⟩
      split at h
      · simp only [Attempt.done.injEq] at h
        exact .inl ⟨‹_›, h.symm⟩
      · refine .inr ⟨by omega, ?_⟩
        unfold attemptEncRefill at h
        cases hs : s.encSourceStop with
        | some r => simp only [hs] at h; cases h
        | none =>
          obtain ⟨hr, hl⟩ := (encSourceStop_eq_none_iff s).mp hs
          refine ⟨hr, hl, ?_⟩
          cases hh : s.esrc.head with
          | unknown => simp only [hs, hh] at h; cases h
          | unit b =>
            simp only [hs, hh, Attempt.done.injEq] at h
            exact .inl ⟨b, rfl, h.symm⟩
          | ended =>
            simp only [hs, hh] at h
            split at h
            · simp only [Attempt.done.injEq] at h
              exact .inr (.inl ⟨rfl, ‹_›, h.symm⟩)
            · simp only [Attempt.done.injEq] at h
              exact .inr (.inr ⟨rfl, by omega, h.symm⟩)

end Sys2Proof.Machine
end

