-- ==== Sys2Proof/Laws/Holds.lean ====
section
/-! SUPPORT. Laws/Holds.lean: when an operation holds (rule R56), in terms of its own unit's registers and stream; what
an arrival keeps. -/

namespace Sys2Proof.Machine

theorem attemptEncInit_hold_iff (s : State) :
    attemptEncInit s = .hold ↔ s.esrc.remaining ≤ Config.maxBytes s.cntW ∧ s.esrc.head = .unknown := by
  unfold attemptEncInit
  split
  · simp only [reduceCtorEq, false_iff, not_and]
    intro h
    omega
  · cases s.esrc.head <;> simp
    omega

theorem attemptEncAdv_hold_iff (s : State) :
    attemptEncAdv s = .hold ↔
      5 ≤ s.enc.cnt.toNat ∧ s.enc.cnt.toNat < 10 ∧ s.encSourceStop = none ∧ s.esrc.head = .unknown := by
  unfold attemptEncAdv attemptEncRefill
  split
  · simp only [reduceCtorEq, false_iff, not_and]
    intro h
    omega
  · split
    · simp only [reduceCtorEq, false_iff, not_and]
      intro h
      omega
    · split
      · simp only [reduceCtorEq, false_iff, not_and]
        intro _ h
        omega
      · have h1 : 5 ≤ s.enc.cnt.toNat := by omega
        have h2 : s.enc.cnt.toNat < 10 := by omega
        cases s.encSourceStop with
        | some r => simp
        | none =>
          cases s.esrc.head with
          | unknown => simp [h1, h2]
          | unit b => simp
          | ended => simp only; split <;> simp

theorem settleRefill_hold_iff (s : State) (R : Refill) : settleRefill s R = .hold ↔ R = .hold := by
  cases R <;> simp [settleRefill]

theorem attemptDecInit_hold_iff (s : State) :
    attemptDecInit s = .hold ↔ s.dsrc.remaining ≤ Config.maxSymbols s.cntW ∧
      decRefill 2 { acc := 0#16, cnt := 0#4, err := .clear, pos := 0 } s.dsrc = .hold := by
  unfold attemptDecInit
  split
  · simp only [reduceCtorEq, false_iff, not_and]
    intro h
    omega
  · have h : s.dsrc.remaining ≤ Config.maxSymbols s.cntW := by omega
    simp only [settleRefill_hold_iff, h, true_and]
    rfl

theorem attemptDecAdv_hold_iff (s : State) :
    attemptDecAdv s = .hold ↔ s.dec.err = .clear ∧ 8 ≤ s.dec.cnt.toNat ∧ s.decSourceStop = none ∧
      decRefill 2 s.dec.discard s.dsrc = .hold := by
  unfold attemptDecAdv
  split
  · rename_i h
    simp [h]
  · rename_i h
    have h' : s.dec.err = .clear := not_not.mp h
    split
    · simp only [reduceCtorEq, false_iff, not_and]
      intro _ h
      omega
    · have h8 : 8 ≤ s.dec.cnt.toNat := by omega
      cases s.decSourceStop with
      | some r => simp
      | none => simp [settleRefill_hold_iff, h', h8]

/-- A refill over a stream whose end is known does not hold. -/
theorem decRefill_ne_hold_of_ended (n : Nat) : ∀ (d : DecCtx) (S : Stream), S.ended = true → decRefill n d S ≠ .hold := by
  induction n with
  | zero => intro d S _ h; cases h
  | succ n ih =>
    intro d S he
    by_cases hc : 8 ≤ d.cnt.toNat
    · rw [decRefill_of_enough _ _ _ hc]
      intro h
      cases h
    · have hc' : d.cnt.toNat < 8 := by omega
      cases hh : S.head with
      | unknown => exact absurd ((Stream.head_eq_unknown_iff S).mp hh).2 (by simp [he])
      | ended => rw [decRefill_of_ended n hc' hh]; split <;> intro h <;> cases h
      | unit u =>
        cases hu : AlphabetUnit u with
        | false => rw [decRefill_of_stranger n hc' hh hu]; intro h; cases h
        | true => rw [decRefill_of_member n hc' hh hu]; exact ih _ _ (by simpa using he)

/-- What comes during a hold, the reset event apart, changes no register of the block, no port and nothing of the
caller's list. -/
theorem deliver_frame (s : State) (a : Arrival) (h : ∀ w, a ≠ .reset w) :
    (s.deliver a).enc = s.enc ∧ (s.deliver a).dec = s.dec ∧ (s.deliver a).val = s.val ∧ (s.deliver a).opErr = s.opErr ∧
      (s.deliver a).out = s.out ∧ (s.deliver a).raised = s.raised ∧ (s.deliver a).caller = s.caller ∧
      (s.deliver a).arrivals = s.arrivals ∧ (s.deliver a).cntW = s.cntW ∧ (s.deliver a).ports = s.ports := by
  cases a with
  | reset w => exact absurd rfl (h w)
  | _ => exact ⟨rfl, rfl, rfl, rfl, rfl, rfl, rfl, rfl, rfl, rfl⟩

/-- The reset event during a hold is the reset event, with the operation that holds withdrawn or not. -/
theorem deliver_reset (s : State) (withdraw : Bool) :
    s.deliver (.reset withdraw) =
      { s.resetBlock with caller := if withdraw then s.caller.tail else s.caller } := rfl

/-- A step of an operation that holds, where nothing comes: nothing happens. -/
theorem step_of_hold_nil {s : State} {x : Issue} {rest : List CallerEvent} (hc : s.caller = .issue x :: rest)
    (hw : x.wellFormed s.cntW = true) (hh : holds (decodeWord x.op) (s.present x.ports) = true) (ha : s.arrivals = []) :
    step s = .next s := by
  have h1 : step s = s.callerStep (.issue x) rest := by unfold step; rw [hc]
  rw [h1]
  simp only [State.callerStep, hw, if_true, State.runIssue, hh, ha]

/-- A step of an operation that holds, where something comes: it comes. -/
theorem step_of_hold_cons {s : State} {x : Issue} {rest : List CallerEvent} {a : Arrival} {as : List Arrival}
    (hc : s.caller = .issue x :: rest) (hw : x.wellFormed s.cntW = true)
    (hh : holds (decodeWord x.op) (s.present x.ports) = true) (ha : s.arrivals = a :: as) :
    step s = .next (State.deliver { s with arrivals := as } a) := by
  have h1 : step s = s.callerStep (.issue x) rest := by unfold step; rw [hc]
  rw [h1]
  simp only [State.callerStep, hw, if_true, State.runIssue, hh, ha]

end Sys2Proof.Machine
end

