-- ==== Sys2Proof/Laws/PerInstr.lean ====
section
/-! SUPPORT. Laws/PerInstr.lean: the statements about every operation as syntax, one lemma for each. -/

namespace Sys2Proof.Laws.Distinct

/-- No other operation has this operation's code (rule R83). -/
def Statement (i : Instr) : Prop := ∀ j : Instr, encode j = encode i → j = i

theorem idle : Statement .idle := by intro j h; cases j <;> first | rfl | (revert h; decide)
theorem lutFwd : Statement .lutFwd := by intro j h; cases j <;> first | rfl | (revert h; decide)
theorem lutInv : Statement .lutInv := by intro j h; cases j <;> first | rfl | (revert h; decide)
theorem lenEnc : Statement .lenEnc := by intro j h; cases j <;> first | rfl | (revert h; decide)
theorem lenDec : Statement .lenDec := by intro j h; cases j <;> first | rfl | (revert h; decide)
theorem valInit : Statement .valInit := by intro j h; cases j <;> first | rfl | (revert h; decide)
theorem valPush : Statement .valPush := by intro j h; cases j <;> first | rfl | (revert h; decide)
theorem valRes : Statement .valRes := by intro j h; cases j <;> first | rfl | (revert h; decide)
theorem encInit : Statement .encInit := by intro j h; cases j <;> first | rfl | (revert h; decide)
theorem encCur : Statement .encCur := by intro j h; cases j <;> first | rfl | (revert h; decide)
theorem encAdv : Statement .encAdv := by intro j h; cases j <;> first | rfl | (revert h; decide)
theorem decInit : Statement .decInit := by intro j h; cases j <;> first | rfl | (revert h; decide)
theorem decCur : Statement .decCur := by intro j h; cases j <;> first | rfl | (revert h; decide)
theorem decAdv : Statement .decAdv := by intro j h; cases j <;> first | rfl | (revert h; decide)
theorem statusRd : Statement .statusRd := by intro j h; cases j <;> first | rfl | (revert h; decide)
theorem reserved : Statement .reserved := by intro j h; cases j <;> first | rfl | (revert h; decide)

end Sys2Proof.Laws.Distinct
end

