-- ==== Sys2Proof/Laws/Tables.lean ====
section
/-! SUPPORT. Laws/Tables.lean: the shape of the inverse table's entries. -/

namespace Sys2Proof.Machine

theorem memReadInv_lookup_values : ∀ p ∈ invDigits ++ invUpper ++ invLower, p.1 < 256 ∧ p.2 < 32 := by decide

/-- The zero-value sharp edge (rule R113): both cases of `y` are members with value 0. -/
theorem memReadInv_y : memReadInv 0x79#8 = 0b100000#6 ∧ memReadInv 0x59#8 = 0b100000#6 := by decide

end Sys2Proof.Machine
end

