-- ==== Sys2Proof/Tests/Slice0.lean ====
section
/-! SUPPORT. Tests/Slice0.lean: what the ports cannot carry is refused; the operation words written out from rule R83;
at most two single steps for each operation, with the results that spec/95_test_vectors.md or a rule's example gives
(its id stands in the comment); and, for each statement that has hypotheses, a concrete state that meets them. -/

namespace Sys2Proof.Machine.Tests

open Sys2Proof Sys2Proof.Machine

/-! ### Helpers -/

/-- The outcome is a next state with this property. -/
def answers (o : Host.Outcome State Fault Refusal) (p : State → Bool) : Bool :=
  match o with
  | .next t => p t
  | .fault _ => false
  | .refused _ => false

/-- The block after reset, with these operands on its ports. -/
def withPorts (v : SymVal) (u : Byte) (n k : Nat) : State :=
  State.reset.present { valIn := v, unitIn := u, bcntIn := n, scntIn := k }

/-- The block after reset with `ESRC` supplied. -/
def withEsrc (B : List Byte) : State := State.reset.setEsrc B true

/-- The block after reset with `DSRC` supplied. -/
def withDsrc (S : List Byte) : State := State.reset.setDsrc S true

/-- An encoder in the middle of a run over `B`. -/
def encAt (B : List Byte) (acc : Acc) (cnt : Cnt) (term : Bool) (pos : Nat) : State :=
  { State.reset with
    enc := { acc := acc, cnt := cnt, term := term, err := false, pos := pos }
    esrc := { units := B, pos := pos, ended := true }
    encRun := true }

/-- A decoder in the middle of a run over `S`. -/
def decAt (S : List Byte) (acc : Acc) (cnt : Cnt) (pos : Nat) : State :=
  { State.reset with
    dec := { acc := acc, cnt := cnt, err := .clear, pos := pos }
    dsrc := { units := S, pos := pos, ended := true }
    decRun := true }

/-- A decoder that holds `c + 8` bits, with these units still to come. -/
def decBefore (c : Cnt) (rest : List Byte) : State := decAt (0x79#8 :: 0x79#8 :: rest) 0#16 (c + 8#4) 2

/-- A decoder run in which a fault is recorded. -/
def decFaulted (e : DecErr) : State :=
  { decAt [0x39#8, 0x21#8] 0#16 0#4 2 with dec := { acc := 0#16, cnt := 0#4, err := e, pos := 2 } }

/-- The block after reset, about to see one thing that the caller does. -/
def caller (e : CallerEvent) : State := { State.reset with caller := [e] }

/-- An operation with no operand of interest. -/
def plain (op : OpWord) : Issue := { op := op, ports := { valIn := 0#5, unitIn := 0#8, bcntIn := 0, scntIn := 0 } }

/-! ### What the ports cannot carry -/

theorem test_wellFormed_width_zero : (plain 0#4).wellFormed 0 = false := by decide

theorem test_wellFormed_width_one : (plain 0#4).wellFormed 1 = true := by decide

theorem test_wellFormed_bcnt_too_wide :
    (Issue.mk 3#4 { valIn := 0#5, unitIn := 0#8, bcntIn := 2 ^ 32, scntIn := 0 }).wellFormed 32 = false ∧
    (Issue.mk 3#4 { valIn := 0#5, unitIn := 0#8, bcntIn := 2 ^ 32 - 1, scntIn := 0 }).wellFormed 32 = true := by decide

theorem test_wellFormed_scnt_too_wide :
    (Issue.mk 4#4 { valIn := 0#5, unitIn := 0#8, bcntIn := 0, scntIn := 2 ^ 33 }).wellFormed 32 = false ∧
    (Issue.mk 4#4 { valIn := 0#5, unitIn := 0#8, bcntIn := 0, scntIn := 2 ^ 33 - 1 }).wellFormed 32 = true := by decide

theorem test_step_refuses_ill_formed :
    step (caller (.issue (Issue.mk 3#4 { valIn := 0#5, unitIn := 0#8, bcntIn := 2 ^ 32, scntIn := 0 }))) =
      .refused .illFormedIssue := by rfl

/-! ### The operation words (rule R83) -/

theorem test_decode_housekeeping :
    decodeWord 0b0000#4 = .idle ∧ decodeWord 0b1110#4 = .statusRd ∧ decodeWord 0b1111#4 = .reserved := by decide

theorem test_decode_alphabet : decodeWord 0b0001#4 = .lutFwd ∧ decodeWord 0b0010#4 = .lutInv := by decide

theorem test_decode_length : decodeWord 0b0011#4 = .lenEnc ∧ decodeWord 0b0100#4 = .lenDec := by decide

theorem test_decode_validator :
    decodeWord 0b0101#4 = .valInit ∧ decodeWord 0b0110#4 = .valPush ∧ decodeWord 0b0111#4 = .valRes := by decide

theorem test_decode_encoder :
    decodeWord 0b1000#4 = .encInit ∧ decodeWord 0b1001#4 = .encCur ∧ decodeWord 0b1010#4 = .encAdv := by decide

theorem test_decode_decoder :
    decodeWord 0b1011#4 = .decInit ∧ decodeWord 0b1100#4 = .decCur ∧ decodeWord 0b1101#4 = .decAdv := by decide

theorem test_decode_bytes :
    decodeBytes [0x0A#8, 0x0E#8] = .ok (.encAdv, [0x0E#8]) ∧ decodeBytes [0x1A#8] = .error .strayBits ∧
    decodeBytes [] = .error .noWord := by decide

theorem test_decode_table_word :
    decodeTableWord 4 0xD = some .decAdv ∧ decodeTableWord 8 0xD = some .decAdv ∧ decodeTableWord 4 0x10 = none := by
  decide

theorem test_step_runs_the_fetched_word :
    answers (step (State.reset.withFetchWord 4 0xF)) (fun t => t.opErr && decide (t.status = 0xC9#8)) = true := by
  decide

/-! ### Reset -/

-- T-SYS-1
theorem test_reset_status : State.reset.status = 0x49#8 := by decide

-- rule R40: nothing runs unless the caller issues it
theorem test_reset_step : step State.reset = .next State.reset := by rfl

-- P5's last state, and the reset event
theorem test_reset_event :
    answers (step { caller .reset with opErr := true, enc := { EncCtx.reset with cnt := 8#4, pos := 1 }, encRun := true })
      (fun t => decide (t.status = 0x49#8) && !t.encRun) = true := by decide

/-! ### alphabet_lut -/

-- T-LUT-1, S8: 17 is t, 31 is 9
theorem test_lutFwd :
    answers (exec .lutFwd (withPorts 17#5 0#8 0 0)) (fun t => decide (t.out.unitOut = 0x74#8)) = true ∧
    answers (exec .lutFwd (withPorts 31#5 0#8 0 0)) (fun t => decide (t.out.unitOut = 0x39#8)) = true := by decide

-- T-LUT-1, all operands
theorem test_lutFwd_all :
    ((List.range 32).map fun v => memReadFwd (BitVec.ofNat 5 v)) =
      [0x79#8, 0x62#8, 0x6E#8, 0x64#8, 0x72#8, 0x66#8, 0x67#8, 0x38#8, 0x65#8, 0x6A#8, 0x6B#8, 0x6D#8, 0x63#8, 0x70#8,
       0x71#8, 0x78#8] ++
      [0x6F#8, 0x74#8, 0x31#8, 0x75#8, 0x77#8, 0x69#8, 0x73#8, 0x7A#8, 0x61#8, 0x33#8, 0x34#8, 0x35#8, 0x68#8, 0x37#8,
       0x36#8, 0x39#8] := by decide

-- T-LUT-2, S16: both cases of t, and the symbol of value 0
theorem test_lutInv_member :
    answers (exec .lutInv (withPorts 0#5 0x54#8 0 0)) (fun t => decide (t.out.valOut = 17#5) && t.out.validOut) = true ∧
    answers (exec .lutInv (withPorts 0#5 0x79#8 0 0)) (fun t => decide (t.out.valOut = 0#5) && t.out.validOut) = true := by
  decide

-- T-LUT-3: units that are in no alphabet
theorem test_lutInv_stranger :
    ([0x00#8, 0x20#8, 0x21#8, 0x2F#8, 0x30#8, 0x32#8, 0x3A#8, 0x40#8, 0x4C#8, 0x56#8] ++
      [0x5B#8, 0x60#8, 0x6C#8, 0x76#8, 0x7B#8, 0x7F#8, 0x80#8, 0xB9#8, 0xF9#8, 0xFF#8]).all (fun u =>
      answers (exec .lutInv (withPorts 0#5 u 0 0)) (fun t => decide (t.out.valOut = 0#5) && !t.out.validOut)) = true := by
  decide

/-! ### length_predicates -/

-- T-LEN-1
theorem test_lenEnc : (List.range 16).map encodedLength = [0, 2, 4, 5, 7, 8, 10, 12, 13, 15, 16, 18, 20, 21, 23, 24] := by
  decide

-- T-LEN-5: the largest operand at CNT_W = 32
theorem test_lenEnc_largest :
    answers (exec .lenEnc (withPorts 0#5 0#8 4294967295 0)) (fun t => decide (t.out.scntOut = 6871947672)) = true := by
  decide

-- T-LEN-2
theorem test_lenDec :
    (List.range 20).map decodedLength =
      [(0, true), (0, false), (1, true), (0, false), (2, true), (3, true), (0, false), (4, true), (5, true), (0, false)] ++
      [(6, true), (0, false), (7, true), (8, true), (0, false), (9, true), (10, true), (0, false), (11, true),
       (0, false)] := by decide

-- T-LEN-5
theorem test_lenDec_largest :
    answers (exec .lenDec (withPorts 0#5 0#8 0 8589934591))
      (fun t => decide (t.out.bcntOut = 5368709119) && t.out.validOut) = true := by decide

/-! ### The validator -/

-- rule R130 in the middle of a sequence that had failed
theorem test_valInit :
    answers (exec .valInit { State.reset with val := { ok := false, cnt := 5#3 } })
      (fun t => decide (t.val = { ok := true, cnt := 0#3 })) = true := by decide

-- rule R131's example: a stranger
theorem test_valPush_stranger :
    answers (exec .valPush { withPorts 0#5 0x21#8 0 0 with val := { ok := true, cnt := 4#3 } })
      (fun t => decide (t.val = { ok := false, cnt := 5#3 })) = true := by decide

-- T-VAL-2: the eighth push wraps; the symbol of value 0 is a member
theorem test_valPush_wraps :
    answers (exec .valPush { withPorts 0#5 0x59#8 0 0 with val := { ok := true, cnt := 7#3 } })
      (fun t => decide (t.val = { ok := true, cnt := 0#3 })) = true := by decide

-- T-VAL-3: the verdict for the counts 0 to 7
theorem test_valRes :
    ((List.range 8).map fun c =>
      answers (exec .valRes { State.reset with val := { ok := true, cnt := BitVec.ofNat 3 c } }) (·.out.validOut)) =
      [true, false, true, false, true, true, false, true] := by decide

-- T-VAL-4: "99 9" and its like: the length is fine and the verdict is not
theorem test_valRes_stranger :
    answers (exec .valRes { State.reset with val := { ok := false, cnt := 4#3 } }) (fun t => !t.out.validOut) = true := by
  decide

/-! ### The encoder -/

-- T-ENC-18
theorem test_encInit :
    answers (exec .encInit (withEsrc [0xDE#8, 0xAD#8, 0xBE#8, 0xEF#8]))
      (fun t => decide (t.enc = { acc := 0xDE#16, cnt := 8#4, term := false, err := false, pos := 1 }) &&
        decide (t.esrc.pos = 1) && t.encRun) = true := by decide

-- T-ENC-22, after an earlier run and a fault
theorem test_encInit_empty :
    answers (exec .encInit { withEsrc [] with enc := { acc := 1#16, cnt := 5#4, term := true, err := true, pos := 3 } })
      (fun t => decide (t.enc = EncCtx.reset)) = true := by decide

-- rule R141's example
theorem test_encCur :
    answers (exec .encCur (encAt [0xFF#8, 0xFF#8] 0x07FF#16 11#4 false 2))
      (fun t => decide (t.out.unitOut = 0x39#8) && decide (t.raised = none)) = true := by decide

-- T-FLT-3
theorem test_encCur_exhausted :
    answers (exec .encCur State.reset) (fun t => decide (t.raised = some .encSeq) && decide (t.status = 0x4D#8)) = true := by
  decide

-- T-ENC-18: a pull and a step that needs none
theorem test_encAdv_bits :
    answers (exec .encAdv (encAt [0xDE#8, 0xAD#8, 0xBE#8, 0xEF#8] 0xDE#16 8#4 false 1))
      (fun t => decide (t.enc = { acc := 0x06AD#16, cnt := 11#4, term := false, err := false, pos := 2 }) &&
        decide (t.esrc.pos = 2)) = true ∧
    answers (exec .encAdv (encAt [0xDE#8, 0xAD#8, 0xBE#8, 0xEF#8] 0x0EEF#16 12#4 false 4))
      (fun t => decide (t.enc = { acc := 0x006F#16, cnt := 7#4, term := false, err := false, pos := 4 })) = true := by decide

-- T-ENC-18: the terminal symbol (S7) and the exhaustion
theorem test_encAdv_end :
    answers (exec .encAdv (encAt [0xDE#8, 0xAD#8, 0xBE#8, 0xEF#8] 0x006F#16 7#4 false 4))
      (fun t => decide (t.enc = { acc := 0x0018#16, cnt := 5#4, term := true, err := false, pos := 4 })) = true ∧
    answers (exec .encAdv (encAt [0xDE#8, 0xAD#8, 0xBE#8, 0xEF#8] 0x0018#16 5#4 true 4))
      (fun t => decide (t.enc = { acc := 0x0000#16, cnt := 0#4, term := true, err := false, pos := 4 })) = true := by decide

/-! ### The decoder -/

-- T-DEC-20
theorem test_decInit :
    answers (exec .decInit (withDsrc [0x35#8, 0x34#8, 0x73#8, 0x35#8, 0x37#8, 0x35#8, 0x61#8]))
      (fun t => decide (t.dec = { acc := 0x037A#16, cnt := 10#4, err := .clear, pos := 2 }) &&
        decide (t.dsrc.pos = 2) && t.decRun) = true := by decide

-- T-FLT-12 and T-FLT-9
theorem test_decInit_faults :
    answers (exec .decInit (withDsrc [0x79#8]))
      (fun t => decide (t.dec = { acc := 0#16, cnt := 5#4, err := .len, pos := 1 }) &&
        decide (t.raised = some .decLen) && decide (t.status = 0x79#8)) = true ∧
    answers (exec .decInit (withDsrc [0x39#8, 0x21#8]))
      (fun t => decide (t.dec.err = .sym) && decide (t.dec.pos = 2) && decide (t.raised = some .decSym)) = true := by decide

-- rule R161's example
theorem test_decCur :
    answers (exec .decCur (decAt [0x39#8, 0x39#8, 0x39#8, 0x6F#8] 0x03FF#16 10#4 2))
      (fun t => decide (t.out.unitOut = 0xFF#8)) = true := by decide

-- T-FLT-6
theorem test_decCur_exhausted :
    answers (exec .decCur State.reset) (fun t => decide (t.raised = some .decSeq) && decide (t.status = 0x59#8)) = true := by
  decide

-- T-DEC-20: two pulls from a remainder of two bits, one from four
theorem test_decAdv_bits :
    answers (exec .decAdv (decAt [0x35#8, 0x34#8, 0x73#8, 0x35#8, 0x37#8, 0x35#8, 0x61#8] 0x037A#16 10#4 2))
      (fun t => decide (t.dec = { acc := 0x0ADB#16, cnt := 12#4, err := .clear, pos := 4 }) &&
        decide (t.dsrc.pos = 4)) = true ∧
    answers (exec .decAdv (decAt [0x35#8, 0x34#8, 0x73#8, 0x35#8, 0x37#8, 0x35#8, 0x61#8] 0x0ADB#16 12#4 4))
      (fun t => decide (t.dec = { acc := 0x017D#16, cnt := 9#4, err := .clear, pos := 5 })) = true := by decide

-- P2: the padding bits stay; T-FLT-13: five bits or more at the end
theorem test_decAdv_end :
    answers (exec .decAdv (decAt [0x39#8, 0x39#8, 0x39#8, 0x7A#8] 0x0FF7#16 12#4 4))
      (fun t => decide (t.dec = { acc := 0x0007#16, cnt := 4#4, err := .clear, pos := 4 }) &&
        decide (t.status = 0x49#8)) = true ∧
    answers (exec .decAdv (decAt [0x79#8, 0x79#8, 0x79#8] 0#16 10#4 2))
      (fun t => decide (t.dec = { acc := 0#16, cnt := 7#4, err := .len, pos := 3 })) = true := by decide

/-! ### Housekeeping -/

-- T-SYS-11
theorem test_idle : answers (exec .idle State.reset) (fun t => decide (t.status = 0x49#8)) = true := by decide

-- T-SYS-2 and the example of rule R181
theorem test_statusRd :
    answers (exec .statusRd (encAt [0xFF#8, 0xFF#8] 0x00FF#16 8#4 false 1))
      (fun t => decide (t.out.statusOut = 0x48#8)) = true := by decide

-- P5: three faults recorded
theorem test_statusRd_faults :
    answers (exec .statusRd { State.reset with
        opErr := true, enc := { EncCtx.reset with err := true }
        dec := { acc := 0#16, cnt := 5#4, err := .len, pos := 1 } })
      (fun t => decide (t.out.statusOut = 0xFD#8)) = true := by decide

-- T-FLT-1
theorem test_reserved :
    answers (exec .reserved State.reset)
      (fun t => decide (t.raised = some .illegalOp) && decide (t.status = 0xC9#8)) = true := by decide

/-! ### The hold (rule R56) -/

/-- `ENC.INIT` issued before the first byte has arrived. -/
def holding (as : List Arrival) : State :=
  { caller (.issue (plain 8#4)) with esrc := { units := [], pos := 0, ended := false }, arrivals := as }

theorem test_hold_waits : step (holding []) = .next (holding []) := by rfl

-- rule R220: the reset event comes while an operation holds, which is withdrawn or stays issued (log entry 22)
theorem test_hold_meets_a_reset :
    answers (step { holding [.reset true] with opErr := true })
      (fun t => decide (t.status = 0x49#8) && decide (t.caller = [])) = true ∧
    answers (step { holding [.reset false] with opErr := true })
      (fun t => decide (t.status = 0x49#8) && decide (t.caller = [.issue (plain 8#4)])) = true := by decide

-- log entry 23: the unit is read and the advance is still to be made
theorem test_emit_holds :
    (match encEmit { encAt [0xFF#8] 0x00FF#16 8#4 false 1 with esrc := { units := [0xFF#8], pos := 1, ended := false } } with
      | .next (.held u t) => decide (u = 0x39#8) && decide (t.enc.cnt = 8#4)
      | _ => false) = true := by decide

theorem test_hold_meets_an_arrival :
    answers (step (holding [.esrcUnit 0xFF#8])) (fun t => decide (t.esrc.units = [0xFF#8]) && decide (t.enc = EncCtx.reset) &&
      decide (t.caller = [.issue (plain 8#4)])) = true := by decide

/-! ### Witnesses: a state that meets the hypotheses of each statement, clause by clause -/

theorem witness_StepRunsTheIssuedOperation :
    ((caller (.issue (plain 8#4))).caller = .issue (plain 8#4) :: [] ∧
      (plain 8#4).wellFormed (caller (.issue (plain 8#4))).cntW = true ∧
      holds (decodeWord (plain 8#4).op) ((caller (.issue (plain 8#4))).present (plain 8#4).ports) = false) ∧
    ((Issue.mk 3#4 { valIn := 0#5, unitIn := 0#8, bcntIn := 2 ^ 32, scntIn := 0 }).wellFormed
      (caller (.issue (Issue.mk 3#4 { valIn := 0#5, unitIn := 0#8, bcntIn := 2 ^ 32, scntIn := 0 }))).cntW = false) ∧
    State.reset.caller = [] ∧
    (1 ≤ State.reset.cntW ∧ State.reset.ports.fit State.reset.cntW = true ∧ holds .encAdv State.reset = false) := by decide

theorem witness_HoldChangesNoRegister :
    holds .encInit (holding []) = true ∧
    ((holding [.esrcEnd]).caller = .issue (plain 8#4) :: [] ∧ (plain 8#4).wellFormed (holding [.esrcEnd]).cntW = true ∧
      holds (decodeWord (plain 8#4).op) ((holding [.esrcEnd]).present (plain 8#4).ports) = true ∧
      (holding []).arrivals = [] ∧ (holding [.esrcEnd]).arrivals = .esrcEnd :: [] ∧
      (∀ w : Bool, Arrival.esrcEnd ≠ .reset w)) ∧
    (holds .encInit { decBefore 0#4 [] with esrc := { units := [], pos := 0, ended := false } } = true ∧
      1 < (decBefore 0#4 []).dsrc.pos) ∧
    holds .decAdv { decAt [0x79#8, 0x79#8, 0x79#8] 0#16 10#4 2 with
      dsrc := { units := [0x79#8, 0x79#8, 0x79#8], pos := 2, ended := false } } = true := by decide

theorem witness_ResetEventRestoresTheBlock :
    (caller .reset).caller = .reset :: [] ∧
    (∀ w : Bool, (holding [.reset w]).caller = .issue (plain 8#4) :: [] ∧
      (plain 8#4).wellFormed (holding [.reset w]).cntW = true ∧
      holds (decodeWord (plain 8#4).op) ((holding [.reset w]).present (plain 8#4).ports) = true ∧
      (holding [.reset w]).arrivals = .reset w :: []) := by decide

theorem witness_TablesAreInverse : AlphabetUnit 0x79#8 = true ∧ AlphabetUnit 0x5A#8 = true := by decide

theorem witness_LutOperationsUndoEachOther :
    (∃ a b, exec .lutFwd (State.reset.present { State.reset.ports with valIn := 31#5 }) = .next a ∧
      exec .lutInv (a.present { a.ports with unitIn := a.out.unitOut }) = .next b) ∧
    (∃ a b, exec .lutInv (State.reset.present { State.reset.ports with unitIn := 0x59#8 }) = .next a ∧
      a.out.validOut = true ∧ exec .lutFwd (a.present { a.ports with valIn := a.out.valOut }) = .next b) :=
  ⟨⟨_, _, rfl, rfl⟩, ⟨_, _, rfl, by decide, rfl⟩⟩

theorem witness_LenEncGivesTheCeiling :
    (0 < 5 ∧ (withPorts 0#5 0#8 5 0).ports.bcntIn = 5 * 1 + 0) ∧
    (4 < 5 ∧ (withPorts 0#5 0#8 4 0).ports.bcntIn = 5 * 0 + 4) := by decide

theorem witness_LenDecFollowsTheResidue :
    (0 < 8 ∧ (withPorts 0#5 0#8 0 8).ports.scntIn = 8 * 1 + 0) ∧
    (7 < 8 ∧ (withPorts 0#5 0#8 0 7).ports.scntIn = 8 * 0 + 7) ∧
    answers (exec .lenDec (withPorts 0#5 0#8 0 7)) (·.out.validOut) = true ∧
    answers (exec .lenDec (withPorts 0#5 0#8 0 6)) (!·.out.validOut) = true := by decide

theorem witness_SizeResultsFitTheirPorts :
    (withPorts 0#5 0#8 (2 ^ 32 - 1) (2 ^ 33 - 1)).ports.fit (withPorts 0#5 0#8 (2 ^ 32 - 1) (2 ^ 33 - 1)).cntW = true := by
  decide

theorem witness_SizeOperationsAreInverse :
    answers (fromBase32zSize 4 State.reset) (·.out.validOut) = true := by decide

/-- A block with `CNT_W = 1`, so that one byte or three symbols are the most that a run admits. -/
def narrow : State := State.resetOf 1

theorem witness_EncInitSeedsFromTheHead :
    ((narrow.setEsrc [0xFF#8] true).esrc.remaining ≤ 2 ^ (narrow.setEsrc [0xFF#8] true).cntW - 1 ∧
      (narrow.setEsrc [0xFF#8] true).esrc.units[(narrow.setEsrc [0xFF#8] true).esrc.pos]? = some 0xFF#8) ∧
    ((narrow.setEsrc [] true).esrc.remaining ≤ 2 ^ (narrow.setEsrc [] true).cntW - 1 ∧
      (narrow.setEsrc [] true).esrc.units[(narrow.setEsrc [] true).esrc.pos]? = none ∧
      (narrow.setEsrc [] true).esrc.ended = true) ∧
    ((narrow.setEsrc [] false).esrc.remaining ≤ 2 ^ (narrow.setEsrc [] false).cntW - 1 ∧
      (narrow.setEsrc [] false).esrc.units[(narrow.setEsrc [] false).esrc.pos]? = none ∧
      (narrow.setEsrc [] false).esrc.ended = false) := by decide

theorem witness_EncCurReadsTheTopFiveBits :
    State.reset.enc.cnt = 0#4 ∧ 5 ≤ (encAt [0x80#8] 0x0010#16 5#4 true 1).enc.cnt.toNat ∧ 5 ≤ (encAt [] 0xFFFF#16 15#4 false 0).enc.cnt.toNat := by
  decide

theorem witness_EncAdvDiscardsAndRefills :
    State.reset.enc.cnt = 0#4 ∧
    ((encAt [0#8] 0x03FF#16 10#4 false 1).enc.cnt.toNat = 5 + 5 ∧ 5 ≤ 5) ∧
    ((encAt [0#8, 1#8] 0x01FF#16 9#4 false 1).enc.cnt.toNat = 4 + 5 ∧ 4 < 5 ∧
      (encAt [0#8, 1#8] 0x01FF#16 9#4 false 1).encReady ∧
      (encAt [0#8, 1#8] 0x01FF#16 9#4 false 1).esrc.head = .unit 1#8) ∧
    ((encAt [0#8] 0x003F#16 6#4 false 1).enc.cnt.toNat = 1 + 5 ∧ 1 < 5 ∧ (encAt [0#8] 0x003F#16 6#4 false 1).encReady ∧
      (encAt [0#8] 0x003F#16 6#4 false 1).esrc.head = .ended ∧ 0 < 1) ∧
    ((encAt [0#8] 0x001F#16 5#4 true 1).enc.cnt.toNat = 0 + 5 ∧ 0 < 5 ∧ (encAt [0#8] 0x001F#16 5#4 true 1).encReady ∧
      (encAt [0#8] 0x001F#16 5#4 true 1).esrc.head = .ended) := by unfold State.encReady; decide

theorem witness_EncoderStopsOutsideItsContract :
    (1 ≤ (encAt [] 0#16 1#4 false 0).enc.cnt.toNat ∧ (encAt [] 0#16 4#4 false 0).enc.cnt.toNat < 5) ∧
    (5 ≤ ({ encAt [] 0#16 9#4 false 0 with encRun := false } : State).enc.cnt.toNat ∧
      ({ encAt [] 0#16 9#4 false 0 with encRun := false } : State).enc.cnt.toNat < 10 ∧
      ({ encAt [] 0#16 9#4 false 0 with encRun := false } : State).encRun = false) ∧
    (5 ≤ ({ encAt [0#8, 1#8] 0#16 8#4 false 1 with cntW := 1 } : State).enc.cnt.toNat ∧
      ({ encAt [0#8, 1#8] 0#16 8#4 false 1 with cntW := 1 } : State).encRun = true ∧
      2 ^ 1 - 1 < 1 + ({ encAt [0#8, 1#8] 0#16 8#4 false 1 with cntW := 1 } : State).esrc.remaining) ∧
    2 ^ narrow.cntW - 1 < (narrow.setEsrc [0#8, 0#8] true).esrc.remaining := by decide

theorem witness_ExhaustedEncoderRaisesEncSeq :
    State.reset.enc.cnt = 0#4 ∧ (∃ t, exec .encInit (withEsrc [0xFF#8]) = .next t) ∧
      holds .encInit (withEsrc [0xFF#8]) = false := ⟨by decide, ⟨_, rfl⟩, by decide⟩

theorem witness_EncoderContract :
    [0xFF#8].length ≤ 2 ^ narrow.cntW - 1 ∧ 1 < (8 * [0xFF#8].length + 4) / 5 := by decide

theorem witness_ToBase32zGivesTheEncoding :
    [0xFF#8].length ≤ 2 ^ narrow.cntW - 1 ∧ ([] : List Byte).length ≤ 2 ^ narrow.cntW - 1 := by decide

theorem witness_LayoutOfAGroup : 5 ≤ 2 ^ (State.resetOf 3).cntW - 1 := by decide

theorem witness_DecInitSeedsFromTheHead :
    ((narrow.setDsrc [] true).dsrc.remaining ≤ 2 ^ (narrow.cntW + 1) - 1 ∧ (narrow.setDsrc [] true).dsrc.head = .ended) ∧
    ((narrow.setDsrc [0x79#8, 0x59#8, 0x39#8] true).dsrc.remaining ≤ 2 ^ (narrow.cntW + 1) - 1 ∧
      (narrow.setDsrc [0x79#8, 0x59#8, 0x39#8] true).dsrc.units.drop 0 = 0x79#8 :: 0x59#8 :: [0x39#8] ∧
      AlphabetUnit 0x79#8 = true ∧ AlphabetUnit 0x59#8 = true) ∧
    ((narrow.setDsrc [0x79#8] true).dsrc.units.drop 0 = [0x79#8] ∧ (narrow.setDsrc [0x79#8] true).dsrc.ended = true) ∧
    ((narrow.setDsrc [0x21#8] true).dsrc.units.drop 0 = 0x21#8 :: [] ∧ AlphabetUnit 0x21#8 = false) ∧
    ((narrow.setDsrc [0x39#8, 0x21#8] true).dsrc.units.drop 0 = 0x39#8 :: 0x21#8 :: [] ∧
      AlphabetUnit 0x39#8 = true ∧ AlphabetUnit 0x21#8 = false) := by decide

theorem witness_DecCurReadsTheTopEightBits :
    ((decAt [0x79#8, 0x79#8] 0#16 8#4 2).dec.err = .clear ∧ 8 ≤ (decAt [0x79#8, 0x79#8] 0#16 8#4 2).dec.cnt.toNat) ∧
    (decFaulted .seq).dec.err ≠ .clear ∧ (State.reset.dec.err = .clear ∧ State.reset.dec.cnt.toNat < 8) := by decide

theorem witness_DecAdvDiscardsAndRefills :
    (decFaulted .len).dec.err ≠ .clear ∧ (State.reset.dec.err = .clear ∧ State.reset.dec.cnt.toNat < 8) ∧
    (∀ c ∈ [0, 1, 2, 3, 4], ∀ rest ∈ [[], [0x79#8], [0x21#8], [0x79#8, 0x79#8], [0x79#8, 0x21#8]],
      (decBefore (BitVec.ofNat 4 c) rest).dec.err = .clear ∧
      (decBefore (BitVec.ofNat 4 c) rest).dec.cnt.toNat = c + 8 ∧ c ≤ 4 ∧ (decBefore (BitVec.ofNat 4 c) rest).decReady ∧
      (decBefore (BitVec.ofNat 4 c) rest).dsrc.units.drop (decBefore (BitVec.ofNat 4 c) rest).dsrc.pos = rest ∧
      (decBefore (BitVec.ofNat 4 c) rest).dsrc.ended = true) ∧
    ({ decBefore 2#4 [] with
      dsrc := { units := [0x79#8, 0x79#8, 0x79#8, 0x79#8], pos := 2, ended := false } } : State).decReady ∧
    AlphabetUnit 0x79#8 = true ∧ AlphabetUnit 0x21#8 = false := by unfold State.decReady; decide

theorem witness_RefillPullsAtMostTwice :
    ∃ d' S', decRefill 2 DecCtx.reset (withDsrc [0x79#8, 0x79#8]).dsrc = .settled d' S' ∧
      DecCtx.reset.cnt.toNat < 8 := ⟨_, _, rfl, by decide⟩

theorem witness_ExhaustedDecoderRaisesDecSeq :
    ((decAt [] 0#16 0#4 0).dec.err = .clear ∧ (decAt [] 0#16 0#4 0).dec.cnt.toNat < 8) ∧
    ((decAt [] 0#16 7#4 0).dec.err = .clear ∧ (decAt [] 0#16 7#4 0).dec.cnt.toNat < 8) ∧
    (∃ t, exec .decInit (withDsrc [0x79#8]) = .next t) ∧ holds .decInit (withDsrc [0x79#8]) = false :=
  ⟨by decide, by decide, ⟨_, rfl⟩, by decide⟩

theorem witness_DecSymNamesThePulledUnit :
    ∃ t, exec .decInit (withDsrc [0x39#8, 0x21#8]) = .next t ∧ t.raised = some .decSym ∧
      holds .decInit (withDsrc [0x39#8, 0x21#8]) = false ∧ (withDsrc [0x39#8, 0x21#8]).dsrc.pos ≤ 1 ∧ 1 < t.dsrc.pos ∧
      (withDsrc [0x39#8, 0x21#8]).dsrc.units[1]? = some 0x21#8 ∧ AlphabetUnit 0x21#8 = false :=
  ⟨_, rfl, by decide, by decide, by decide, by decide, by decide, by decide⟩

theorem witness_DecLenMeetsTheEnd :
    ∃ t, exec .decInit (withDsrc [0x79#8]) = .next t ∧ holds .decInit (withDsrc [0x79#8]) = false ∧
      t.raised = some .decLen := ⟨_, rfl, by decide, by decide⟩

theorem witness_DecAdvInAFaultedRunKeepsTheFault :
    (decFaulted .seq).dec.err ≠ .clear ∧ (decFaulted .sym).dec.err ≠ .clear ∧ (decFaulted .len).dec.err ≠ .clear := by decide

theorem witness_DecoderStopsOutsideItsContract :
    2 ^ (narrow.cntW + 1) - 1 < (narrow.setDsrc [0x79#8, 0x79#8, 0x79#8, 0x79#8] true).dsrc.remaining ∧
    (({ decBefore 0#4 [] with decRun := false } : State).dec.err = .clear ∧
      8 ≤ ({ decBefore 0#4 [] with decRun := false } : State).dec.cnt.toNat ∧
      ({ decBefore 0#4 [] with decRun := false } : State).decRun = false) ∧
    (({ decBefore 0#4 [0x79#8, 0x79#8] with cntW := 1 } : State).decRun = true ∧
      2 ^ (1 + 1) - 1 < 2 + ({ decBefore 0#4 [0x79#8, 0x79#8] with cntW := 1 } : State).dsrc.remaining) := by decide

theorem witness_DecoderContract :
    [0x79#8, 0x59#8].length ≤ 2 ^ (narrow.cntW + 1) - 1 ∧ ValidSequence [0x79#8, 0x59#8] ∧
      0 < 5 * [0x79#8, 0x59#8].length / 8 := by unfold ValidSequence; decide

theorem witness_InvalidInputFaults :
    (ValidSequence [0x79#8, 0x79#8] ∧ 1 ≤ 5 * [0x79#8, 0x79#8].length / 8) ∧
    ([0x79#8, 0x79#8, 0x79#8].length ≤ 2 ^ (narrow.cntW + 1) - 1 ∧ ¬ ValidSequence [0x79#8, 0x79#8, 0x79#8] ∧
      (∀ u ∈ [0x79#8, 0x79#8, 0x79#8], AlphabetUnit u = true)) ∧
    (¬ ValidSequence [0x39#8, 0x21#8] ∧ [0x39#8, 0x21#8] = [0x39#8] ++ 0x21#8 :: [] ∧ AlphabetUnit 0x21#8 = false ∧
      (∀ g ∈ [0x39#8], AlphabetUnit g = true)) := by unfold ValidSequence; decide

theorem witness_FromBase32zGivesTheDecoding :
    [0x79#8, 0x59#8].length ≤ 2 ^ (narrow.cntW + 1) - 1 ∧ ValidSequence [0x79#8, 0x59#8] ∧
      ¬ ValidSequence [0x79#8, 0x6C#8] := by unfold ValidSequence; decide

-- T-DEC-8 and T-DEC-10: "99" and "9h" give the same byte
theorem witness_PaddingBitsAreIgnored :
    [0x39#8, 0x39#8].length ≤ 2 ^ (narrow.cntW + 1) - 1 ∧ ValidSequence [0x39#8, 0x39#8] ∧
      ValidSequence [0x39#8, 0x68#8] ∧ [0x39#8, 0x39#8].length = [0x39#8, 0x68#8].length ∧
      (∀ t < 8 * (5 * [0x39#8, 0x39#8].length / 8),
        symbolBit [0x39#8, 0x39#8] t = symbolBit [0x39#8, 0x68#8] t) := by unfold ValidSequence; decide

theorem witness_DecodingIsCaseInsensitive :
    [0x61#8, 0x62#8].length ≤ 2 ^ (narrow.cntW + 1) - 1 ∧ ValidSequence [0x61#8, 0x62#8] ∧
      List.Forall₂ (fun u v => v = u ∨ v = otherCase u) [0x61#8, 0x62#8] [0x41#8, 0x62#8] :=
  ⟨by decide, by unfold ValidSequence; decide, by simp only [List.forall₂_cons, List.forall₂_nil_left_iff]; decide⟩

theorem witness_DecodingUndoesEncoding : [0xFF#8].length ≤ 2 ^ narrow.cntW - 1 := by decide

theorem witness_IdleChangesNothing :
    (∃ a b, exec .encCur (encAt [0xFF#8] 0x00FF#16 8#4 false 1) = .next a ∧
      exec .idle (encAt [0xFF#8] 0x00FF#16 8#4 false 1) = .next b) ∧
    holds .encCur (encAt [0xFF#8] 0x00FF#16 8#4 false 1) = false ∧
    DrivesIn .encCur (encAt [0xFF#8] 0x00FF#16 8#4 false 1) := ⟨⟨_, _, rfl, rfl⟩, by decide, by unfold DrivesIn; decide⟩

theorem witness_OnlyInitLeavesAFault :
    (∃ t, exec .encCur { State.reset with enc := { EncCtx.reset with err := true } } = .next t) ∧
    (∃ t, exec .decCur (decFaulted .sym) = .next t ∧ (decFaulted .sym).dec.err ≠ .clear) ∧
    (∃ t, exec .encInit { State.reset with opErr := true } = .next t) ∧
    (∃ t, exec .encAdv State.reset = .next t ∧ t.enc.err = true) ∧
    (∃ t, exec .reserved State.reset = .next t ∧ t.opErr = true) :=
  ⟨⟨_, rfl⟩, ⟨_, rfl, by decide⟩, ⟨_, rfl⟩, ⟨_, rfl, by decide⟩, ⟨_, rfl, by decide⟩⟩

theorem witness_OnlyTheListedOperationsRaise :
    (∃ t, exec .reserved State.reset = .next t ∧ t.raised = some .illegalOp) ∧
    (∃ t, exec .encAdv State.reset = .next t ∧ t.raised = some .encSeq) ∧
    (∃ t, exec .decCur State.reset = .next t ∧ t.raised = some .decSeq) ∧
    (∃ t, exec .decInit (withDsrc [0x21#8]) = .next t ∧ t.raised = some .decSym) ∧
    (∃ t, exec .decAdv (decBefore 0#4 [0x79#8]) = .next t ∧ t.raised = some .decLen) ∧
    holds .decAdv (decBefore 0#4 [0x79#8]) = false :=
  ⟨⟨_, rfl, by decide⟩, ⟨_, rfl, by decide⟩, ⟨_, rfl, by decide⟩, ⟨_, rfl, by decide⟩, ⟨_, rfl, by decide⟩, by decide⟩

theorem witness_UnitsShareNoMutableState :
    (∃ t, exec .encAdv (encAt [0xFF#8] 0x00FF#16 8#4 false 1) = .next t) ∧ Instr.encAdv.blockUnit ≠ .decoder ∧
      Instr.encAdv.blockUnit ≠ .validator ∧ Instr.decAdv.blockUnit ≠ .encoder := ⟨⟨_, rfl⟩, by decide, by decide, by decide⟩

theorem witness_OperationsOfDifferentUnitsCommute :
    (∃ a b, exec .encInit ((withEsrc [0xFF#8]).present (plain 8#4).ports) = .next a ∧
      exec .valPush (a.present (plain 6#4).ports) = .next b) ∧
    Instr.encInit.blockUnit ≠ Instr.valPush.blockUnit ∧
    holds .encInit ((withEsrc [0xFF#8]).present (plain 8#4).ports) = false ∧
    holds .valPush ((withEsrc [0xFF#8]).present (plain 6#4).ports) = false ∧ DrivesIn .encInit (withEsrc [0xFF#8]) ∧
    DrivesIn .valPush (withEsrc [0xFF#8]) :=
  ⟨⟨_, _, rfl, rfl⟩, by decide, by decide, by decide, trivial, trivial⟩

theorem witness_StoreBelowTheReadPositionIsInvisible : 1 < (decBefore 0#4 [0x79#8]).dsrc.pos := by decide

theorem witness_PullsAreBounded :
    (∃ t, exec .encAdv (encAt [0xFF#8, 0#8] 0x00FF#16 8#4 false 1) = .next t) ∧
    (∃ t, exec .decAdv (decBefore 2#4 [0x79#8, 0x79#8]) = .next t ∧ (decBefore 2#4 [0x79#8, 0x79#8]).dec.err = .clear) :=
  ⟨⟨_, rfl⟩, ⟨_, rfl, by decide⟩⟩

theorem witness_CountsStayInRange :
    (∃ t, exec .encAdv (encAt [0xFF#8] 0x0FFF#16 12#4 false 1) = .next t ∧ t.raised = none ∧
      (encAt [0xFF#8] 0x0FFF#16 12#4 false 1).enc.cnt.toNat ≤ 12) ∧
    (∃ t, exec .decAdv (decBefore 4#4 [0x79#8, 0x79#8]) = .next t ∧ t.raised = none ∧
      (decBefore 4#4 [0x79#8, 0x79#8]).dec.err = .clear ∧ (decBefore 4#4 [0x79#8, 0x79#8]).dec.cnt.toNat ≤ 12) ∧
    holds .encAdv (encAt [0xFF#8] 0x0FFF#16 12#4 false 1) = false ∧
    holds .decAdv (decBefore 4#4 [0x79#8, 0x79#8]) = false :=
  ⟨⟨_, rfl, by decide, by decide⟩, ⟨_, rfl, by decide, by decide, by decide⟩, by decide, by decide⟩

theorem witness_InvariantAtReset : 1 ≤ 1 := by decide

/-- Both cursors in the middle of a run, with the encoder's advance issued. -/
def midRun : State :=
  { encAt [0xFF#8, 0xFF#8] 0x00FF#16 8#4 false 1 with
    dec := { acc := 0x03FF#16, cnt := 10#4, err := .clear, pos := 2 }
    dsrc := { units := [0x39#8, 0x39#8, 0x39#8, 0x6F#8], pos := 2, ended := true }
    decRun := true
    caller := [.issue (plain 10#4)] }

theorem midRun_inv : midRun.Inv := by constructor <;> decide

theorem witness_InvariantIsKeptByEveryStep : midRun.Inv ∧ ∃ t, step midRun = .next t := ⟨midRun_inv, _, rfl⟩

theorem witness_EveryOperationCompletes :
    (HeadsKnownFor .decAdv midRun ∧ ¬ HeadsKnownFor .encInit (holding [])) ∧ midRun.Inv ∧ midRun.esrc.remaining ≤ 2 ^ midRun.cntW - 1 ∧ midRun.dsrc.remaining ≤ 2 ^ (midRun.cntW + 1) - 1 ∧
      midRun.encReady ∧ midRun.decReady :=
  ⟨⟨Or.inr (Or.inr trivial), by simp [HeadsKnownFor, holding, caller]⟩, midRun_inv, by decide, by decide,
    by unfold State.encReady; decide, by unfold State.decReady; decide⟩

theorem witness_CallerActionsChangeNoRegister :
    (caller (.setEsrc [0xFF#8] true)).caller = .setEsrc [0xFF#8] true :: [] ∧
    (caller (.setDsrc [0x79#8] false)).caller = .setDsrc [0x79#8] false :: [] ∧
    (({ decBefore 0#4 [0x79#8] with caller := [.storeDsrc 1 0#8] } : State).caller = .storeDsrc 1 0#8 :: [] ∧
      1 < (decBefore 0#4 [0x79#8]).dsrc.pos) ∧
    (({ decBefore 0#4 [0x79#8] with caller := [.storeDsrc 2 0#8] } : State).caller = .storeDsrc 2 0#8 :: [] ∧
      (decBefore 0#4 [0x79#8]).dsrc.pos ≤ 2 ∧ 2 < (decBefore 0#4 [0x79#8]).dsrc.units.length) := by decide

end Sys2Proof.Machine.Tests
end

section
/-! What `step` comes to for an issue that is executed or refused, and for a fetched word (rules R56, R80). -/

namespace Sys2Proof.Machine

theorem decodeWord_encode (i : Instr) : decodeWord (encode i) = i := by cases i <;> rfl

/-- What a caller still has to do has no part in a hold (rule R56). -/
@[simp] theorem holds_with_caller (i : Instr) (s : State) (cs : List CallerEvent) :
    holds i { s with caller := cs } = holds i s := by
  rw [Bool.eq_iff_iff]
  cases i with
  | encInit => simp only [holds, Attempt.holds_iff, attemptEncInit_hold_iff]
  | encAdv => simp only [holds, Attempt.holds_iff, attemptEncAdv_hold_iff, State.encSourceStop]
  | decInit => simp only [holds, Attempt.holds_iff, attemptDecInit_hold_iff]
  | decAdv => simp only [holds, Attempt.holds_iff, attemptDecAdv_hold_iff, State.decSourceStop]
  | _ => rfl

theorem step_of_no_caller {s : State} (hc : s.caller = []) : step s = .next s := by
  unfold step
  rw [hc]

theorem step_of_caller_cons {s : State} {e : CallerEvent} {rest : List CallerEvent} (hc : s.caller = e :: rest) :
    step s = s.callerStep e rest := by
  unfold step
  rw [hc]

theorem step_of_illFormed {s : State} {x : Issue} {rest : List CallerEvent} (hc : s.caller = .issue x :: rest)
    (hw : x.wellFormed s.cntW = false) : step s = .refused .illFormedIssue := by
  simp [step_of_caller_cons hc, State.callerStep, hw]

/-- A step of an operation that does not hold: it is executed, and the caller goes on. -/
theorem step_of_not_hold {s : State} {x : Issue} {rest : List CallerEvent} (hc : s.caller = .issue x :: rest)
    (hw : x.wellFormed s.cntW = true) (hh : holds (decodeWord x.op) (s.present x.ports) = false) :
    step s = exec (decodeWord x.op) { s.present x.ports with caller := rest } := by
  simp [step_of_caller_cons hc, State.callerStep, hw, State.runIssue, hh]

theorem decodeWord_issueOf_encode (s : State) (i : Instr) : decodeWord (s.issueOf (encode i).toNat).op = i := by
  simp only [State.issueOf, BitVec.ofNat_toNat, BitVec.setWidth_eq, decodeWord_encode]

theorem issueOf_wellFormed {s : State} (w : Nat) (h1 : 1 ≤ s.cntW) (hp : s.ports.fit s.cntW = true) :
    (s.issueOf w).wellFormed s.cntW = true := by
  simp [State.issueOf, Issue.wellFormed, h1, hp]

/-- The word that `withFetchWord` issues finds the operand ports as they stand, so that presenting it changes only what
the caller has to do. -/
theorem withFetchWord_present (s : State) (nbits w : Nat) :
    (s.withFetchWord nbits w).present s.ports = { s with caller := .issue (s.issueOf w) :: s.caller } := rfl

theorem step_withFetchWord_encode {s : State} {i : Instr} (nbits : Nat) (h1 : 1 ≤ s.cntW)
    (hp : s.ports.fit s.cntW = true) (hh : holds i s = false) :
    step (s.withFetchWord nbits (encode i).toNat) = exec i s := by
  have hold : holds (decodeWord (s.issueOf (encode i).toNat).op)
      ((s.withFetchWord nbits (encode i).toNat).present s.ports) = false := by
    rw [decodeWord_issueOf_encode, withFetchWord_present, holds_with_caller, hh]
  calc step (s.withFetchWord nbits (encode i).toNat)
      = exec (decodeWord (s.issueOf (encode i).toNat).op)
          { (s.withFetchWord nbits (encode i).toNat).present s.ports with caller := s.caller } :=
        step_of_not_hold rfl (issueOf_wellFormed _ h1 hp) hold
    _ = exec i s := by rw [decodeWord_issueOf_encode, withFetchWord_present]

/-- Settles O3: the four clauses are the laws of `step` above. -/
theorem stepRunsTheIssuedOperation : Obligations.StepRunsTheIssuedOperation :=
  ⟨fun _ _ _ hc hw hh => step_of_not_hold hc hw hh,
    fun _ _ _ hc hw => step_of_illFormed hc hw,
    fun _ hc => step_of_no_caller hc,
    fun _ _ nbits h1 hp hh => step_withFetchWord_encode nbits h1 hp hh⟩

end Sys2Proof.Machine
end

section
/-! What each operation can change (rules R45, R50): the state after an operation differs from the state before it in its
own unit's context and read position at most. -/

namespace Sys2Proof.Machine

/-- Whatever holds of the state itself and of the state an attempt completes in holds of the attempt's next state
(rule R56: a hold changes nothing). -/
theorem Attempt.of_outcome {a : Attempt} {s t : State} {P : State → Prop} (hold : P s) (done : a = .done t → P t)
    (h : a.outcome s = .next t) : P t := by
  rcases (Attempt.outcome_eq_next_iff a s t).mp h with hd | ⟨-, rfl⟩
  · exact done hd
  · exact hold

/-! Encoder -/

theorem encOnly_refl (s : State) : EncOnly s s := rfl

theorem attemptEncInit_encOnly {s t : State} (h : attemptEncInit s = .done t) : EncOnly s t := by
  obtain ⟨-, ⟨b, -, rfl⟩ | ⟨-, rfl⟩⟩ := attemptEncInit_done h <;> rfl

theorem attemptEncAdv_encOnly {s t : State} (h : attemptEncAdv s = .done t) : EncOnly s t := by
  obtain ⟨-, rfl⟩ | ⟨c, -, ⟨-, rfl⟩ | ⟨-, -, -, ⟨b, -, rfl⟩ | ⟨-, -, rfl⟩ | ⟨-, -, rfl⟩⟩⟩ := attemptEncAdv_done h <;> rfl

/-- What `ENC.CUR` can come to (rule R141). -/
theorem execEncCur_next {s t : State} (h : execEncCur s = .next t) :
    (s.enc.cnt.toNat = 0 ∧ t = s.raise .encSeq) ∨
    (5 ≤ s.enc.cnt.toNat ∧ t = s.driveUnit (memReadFwd s.enc.current)) := by
  unfold execEncCur at h
  split at h
  · cases h
    exact .inl ⟨‹_›, rfl⟩
  · split at h
    · cases h
    · cases h
      exact .inr ⟨by omega, rfl⟩

theorem exec_encOnly {i : Instr} {s t : State} (hi : i.blockUnit = .encoder) (h : exec i s = .next t) : EncOnly s t := by
  cases i with
  | encInit => exact Attempt.of_outcome (encOnly_refl s) attemptEncInit_encOnly h
  | encCur => obtain ⟨-, rfl⟩ | ⟨-, rfl⟩ := execEncCur_next h <;> rfl
  | encAdv => exact Attempt.of_outcome (encOnly_refl s) attemptEncAdv_encOnly h
  | _ => cases hi

/-! Decoder -/

theorem decOnly_refl (s : State) : DecOnly s s := rfl

/-- A refill replaces the decoder's context and moves the read position of its stream, however it ends. -/
theorem settleRefill_decOnly {s t : State} {n : Nat} {d : DecCtx}
    (h : settleRefill s (decRefill n d s.dsrc) = .done t) : DecOnly s t := by
  have key : ∀ {d' : DecCtx} {S' : Stream}, decRefill n d s.dsrc = .settled d' S' ∨
      decRefill n d s.dsrc = .lengthFault d' S' ∨ decRefill n d s.dsrc = .symbolFault d' S' →
      S' = { s.dsrc with pos := S'.pos } := by
    intro d' S' hR
    obtain ⟨-, hu, he, -⟩ := decRefill_frame n d s.dsrc d' S' hR
    cases S'
    cases hu
    cases he
    rfl
  obtain ⟨d', S', hR, rfl⟩ | ⟨d', S', hR, rfl⟩ | ⟨d', S', hR, rfl⟩ := settleRefill_done h
  · rw [key (.inl hR)]
    rfl
  · rw [key (.inr (.inl hR))]
    rfl
  · rw [key (.inr (.inr hR))]
    rfl

theorem attemptDecInit_decOnly {s t : State} (h : attemptDecInit s = .done t) : DecOnly s t :=
  settleRefill_decOnly (s := { s.clearDecFault with decRun := true }) (attemptDecInit_done h).2

theorem attemptDecAdv_decOnly {s t : State} (h : attemptDecAdv s = .done t) : DecOnly s t := by
  obtain ⟨-, rfl⟩ | ⟨-, -, rfl⟩ | ⟨-, -, -, -, h⟩ := attemptDecAdv_done h
  · rfl
  · rfl
  · exact settleRefill_decOnly h

/-- What `DEC.CUR` can come to (rule R161): it drives the byte, or the run is faulted, or it raises `DEC_SEQ`. -/
theorem execDecCur_next {s t : State} (h : execDecCur s = .next t) :
    (s.dec.err ≠ .clear ∧ t = s.finishSilent) ∨
    (s.dec.err = .clear ∧ s.dec.cnt.toNat < 8 ∧ t = s.raise .decSeq) ∨
    (s.dec.err = .clear ∧ 8 ≤ s.dec.cnt.toNat ∧ t = s.driveUnit s.dec.current) := by
  unfold execDecCur at h
  split at h
  · cases h
    exact .inl ⟨‹_›, rfl⟩
  · rename_i he
    split at h
    · cases h
      exact .inr (.inl ⟨not_not.mp he, ‹_›, rfl⟩)
    · cases h
      exact .inr (.inr ⟨not_not.mp he, by omega, rfl⟩)

theorem exec_decOnly {i : Instr} {s t : State} (hi : i.blockUnit = .decoder) (h : exec i s = .next t) : DecOnly s t := by
  cases i with
  | decInit => exact Attempt.of_outcome (decOnly_refl s) attemptDecInit_decOnly h
  | decCur => obtain ⟨-, rfl⟩ | ⟨-, -, rfl⟩ | ⟨-, -, rfl⟩ := execDecCur_next h <;> rfl
  | decAdv => exact Attempt.of_outcome (decOnly_refl s) attemptDecAdv_decOnly h
  | _ => cases hi

/-! The other units -/

theorem exec_valOnly {i : Instr} {s t : State} (hi : i.blockUnit = .validator) (h : exec i s = .next t) :
    ValOnly s t := by
  cases i with
  | valInit => cases h; rfl
  | valPush => cases h; rfl
  | valRes => cases h; rfl
  | _ => cases hi

/-- The two table operations, the two size operations, `IDLE` and `STATUS.RD` write no register; the reserved code
raises `ILLEGAL_OP` and writes nothing else. -/
theorem exec_stateless {i : Instr} {s t : State}
    (hi : i.blockUnit = .alphabet ∨ i.blockUnit = .length ∨ i.blockUnit = .housekeeping) (h : exec i s = .next t) :
    (i ≠ .reserved ∧ Quiet s t) ∨ (i = .reserved ∧ t = s.raise .illegalOp) := by
  cases i with
  | reserved => cases h; exact .inr ⟨rfl, rfl⟩
  | idle => cases h; exact .inl ⟨nofun, rfl⟩
  | lutFwd => cases h; exact .inl ⟨nofun, rfl⟩
  | lutInv => cases h; exact .inl ⟨nofun, rfl⟩
  | lenEnc => cases h; exact .inl ⟨nofun, rfl⟩
  | lenDec => cases h; exact .inl ⟨nofun, rfl⟩
  | statusRd => cases h; exact .inl ⟨nofun, rfl⟩
  | _ => simp [Instr.blockUnit] at hi

/-- What an operation can change, by its unit. -/
theorem exec_changes {i : Instr} {s t : State} (h : exec i s = .next t) :
    (i.blockUnit = .encoder ∧ EncOnly s t) ∨ (i.blockUnit = .decoder ∧ DecOnly s t) ∨
    (i.blockUnit = .validator ∧ ValOnly s t) ∨ (i ≠ .reserved ∧ Quiet s t) ∨
    (i = .reserved ∧ t = s.raise .illegalOp) := by
  cases hu : i.blockUnit with
  | encoder => exact .inl ⟨rfl, exec_encOnly hu h⟩
  | decoder => exact .inr (.inl ⟨rfl, exec_decOnly hu h⟩)
  | validator => exact .inr (.inr (.inl ⟨rfl, exec_valOnly hu h⟩))
  | alphabet => exact .inr (.inr (.inr (exec_stateless (.inl hu) h)))
  | length => exact .inr (.inr (.inr (exec_stateless (.inr (.inl hu)) h)))
  | housekeeping => exact .inr (.inr (.inr (exec_stateless (.inr (.inr hu)) h)))

/-- Settles O48: `exec_changes` names all that an operation of each unit can change. -/
theorem unitsShareNoMutableState : Obligations.UnitsShareNoMutableState := by
  intro i s t h
  rcases exec_changes h with ⟨hu, ht⟩ | ⟨hu, ht⟩ | ⟨hu, ht⟩ | ⟨-, ht⟩ | ⟨hi, rfl⟩
  · rw [EncOnly, Quiet] at ht
    rw [ht]
    exact ⟨fun hn => absurd hu hn, fun _ => ⟨rfl, rfl⟩, fun _ => rfl, fun _ => rfl, rfl, rfl, rfl, rfl, rfl, rfl⟩
  · rw [DecOnly, Quiet] at ht
    rw [ht]
    exact ⟨fun _ => ⟨rfl, rfl⟩, fun hn => absurd hu hn, fun _ => rfl, fun _ => rfl, rfl, rfl, rfl, rfl, rfl, rfl⟩
  · rw [ValOnly, Quiet] at ht
    rw [ht]
    exact ⟨fun _ => ⟨rfl, rfl⟩, fun _ => ⟨rfl, rfl⟩, fun hn => absurd hu hn, fun _ => rfl, rfl, rfl, rfl, rfl, rfl, rfl⟩
  · rw [Quiet] at ht
    rw [ht]
    exact ⟨fun _ => ⟨rfl, rfl⟩, fun _ => ⟨rfl, rfl⟩, fun _ => rfl, fun _ => rfl, rfl, rfl, rfl, rfl, rfl, rfl⟩
  · exact ⟨fun _ => ⟨rfl, rfl⟩, fun _ => ⟨rfl, rfl⟩, fun _ => rfl, fun hn => absurd hi hn, rfl, rfl, rfl, rfl, rfl, rfl⟩

end Sys2Proof.Machine
end

section
/-! The ranges of the two counts and the canonical accumulators (rules R37, R38). -/

namespace Sys2Proof.Machine

/-- Rules R37 and R38 for the encoder: the count is one that the rule admits, and no bit stands above it. -/
def EncCtx.InRange (e : EncCtx) : Prop :=
  (e.cnt.toNat = 0 ∨ (5 ≤ e.cnt.toNat ∧ e.cnt.toNat ≤ 12)) ∧ e.acc.toNat < 2 ^ e.cnt.toNat

/-- Rules R37 and R38 for the decoder. -/
def DecCtx.InRange (d : DecCtx) : Prop :=
  (d.cnt.toNat ≤ 4 ∨ (8 ≤ d.cnt.toNat ∧ d.cnt.toNat ≤ 12)) ∧ d.acc.toNat < 2 ^ d.cnt.toNat

/-- A context whose count is given as a number is judged by that number. -/
theorem encInRange_of_cnt {e : EncCtx} {n : Nat} (hc : e.cnt.toNat = n) (hn : n = 0 ∨ (5 ≤ n ∧ n ≤ 12))
    (ha : e.acc.toNat < 2 ^ n) : e.InRange := by
  subst hc
  exact ⟨hn, ha⟩

/-! ### Encoder -/

theorem attemptEncInit_inRange {s t : State} (h : attemptEncInit s = .done t) : t.enc.InRange := by
  obtain ⟨-, ⟨b, -, rfl⟩ | ⟨-, rfl⟩⟩ := attemptEncInit_done h
  · refine encInRange_of_cnt (n := 8) rfl (by decide) ?_
    calc (b.setWidth 16).toNat = b.toNat := BitVec.toNat_setWidth_of_le (by decide)
      _ < 2 ^ 8 := b.isLt
  · exact encInRange_of_cnt (n := 0) rfl (by decide) Nat.one_pos

/-- The pull appends eight bits to the `c` that are left (rule R142). -/
theorem encPull_acc_lt (a : Acc) (b : Byte) {c : Nat} (hc : c < 5) :
    (low a c <<< 8 ||| b.setWidth 16).toNat < 2 ^ (c + 8) := by
  have ha : (low a c).toNat < 2 ^ c := low_lt a (by omega)
  have hb : b.toNat < 2 ^ 8 := b.isLt
  rw [append_bits_toNat _ b (by decide) ha (by omega), Nat.pow_add]
  omega

/-- The padding fills the last symbol up to five bits (rule R142 (e)). -/
theorem encPad_acc_lt (a : Acc) {c : Nat} (hc : c < 5) : (low a c <<< (5 - c)).toNat < 2 ^ 5 := by
  have ha : (low a c).toNat < 2 ^ c := low_lt a (by omega)
  rw [pad_toNat _ ha (by omega)]
  calc (low a c).toNat * 2 ^ (5 - c) < 2 ^ c * 2 ^ (5 - c) := Nat.mul_lt_mul_of_pos_right ha (Nat.two_pow_pos _)
    _ = 2 ^ 5 := by rw [← Nat.pow_add]; congr 1; omega

theorem attemptEncAdv_inRange {s t : State} (h : attemptEncAdv s = .done t) (hr : t.raised = none) : t.enc.InRange := by
  have hlt := s.enc.cnt.isLt
  obtain ⟨-, rfl⟩ | ⟨c, hcnt, ⟨hc, rfl⟩ | ⟨hc, -, -, ⟨b, -, rfl⟩ | ⟨-, -, rfl⟩ | ⟨-, -, rfl⟩⟩⟩ := attemptEncAdv_done h
  · cases hr
  · exact encInRange_of_cnt (n := c) (cnt_ofNat_toNat (by omega)) (by omega) (low_lt _ (by omega))
  · exact encInRange_of_cnt (n := c + 8) (cnt_ofNat_toNat (by omega)) (by omega) (encPull_acc_lt _ b hc)
  · exact encInRange_of_cnt (n := 5) rfl (by decide) (encPad_acc_lt _ hc)
  · exact encInRange_of_cnt (n := 0) rfl (by decide) Nat.one_pos

/-! ### Decoder -/

theorem append_acc_lt {d : DecCtx} (v : SymVal) (hc : d.cnt.toNat < 8) (ha : d.acc.toNat < 2 ^ d.cnt.toNat) :
    (d.append v).acc.toNat < 2 ^ (d.append v).cnt.toNat := by
  have hv : v.toNat < 2 ^ 5 := v.isLt
  rw [append_acc_toNat v (by omega) ha, append_cnt_toNat v (by omega), Nat.pow_add]
  omega

/-- The discard leaves the low bits, as many as the count says (rule R162). -/
theorem discard_cnt_toNat (d : DecCtx) : d.discard.cnt.toNat = d.cnt.toNat - 8 := by
  have := d.cnt.isLt
  exact cnt_ofNat_toNat (by omega)

theorem discard_acc_lt (d : DecCtx) : d.discard.acc.toNat < 2 ^ d.discard.cnt.toNat := by
  have := d.cnt.isLt
  rw [discard_cnt_toNat]
  exact low_lt _ (by omega)

/-- A refill with pulls enough settles in range, and with fewer than eight bits only at the end of its stream
(rule R163, rule R31). -/
theorem decRefill_settled (n : Nat) : ∀ {d d' : DecCtx} {S S' : Stream}, d.cnt.toNat ≤ 12 → 8 ≤ d.cnt.toNat + 5 * n →
    d.acc.toNat < 2 ^ d.cnt.toNat → decRefill n d S = .settled d' S' →
    d'.InRange ∧ (d'.cnt.toNat < 8 → S'.head = .ended) := by
  induction n with
  | zero =>
    intro d d' S S' h12 h8 ha h
    cases h
    exact ⟨⟨by omega, ha⟩, by omega⟩
  | succ n ih =>
    intro d d' S S' h12 h8 ha h
    by_cases hc : 8 ≤ d.cnt.toNat
    · rw [decRefill_of_enough _ _ _ hc] at h
      cases h
      exact ⟨⟨by omega, ha⟩, by omega⟩
    · have hc' : d.cnt.toNat < 8 := by omega
      cases hh : S.head with
      | unknown => rw [decRefill_of_unknown n hc' hh] at h; cases h
      | ended =>
        rw [decRefill_of_ended n hc' hh] at h
        split at h
        · cases h
        · cases h
          exact ⟨⟨by omega, ha⟩, fun _ => hh⟩
      | unit u =>
        cases hu : AlphabetUnit u with
        | false => rw [decRefill_of_stranger n hc' hh hu] at h; cases h
        | true =>
          rw [decRefill_of_member n hc' hh hu] at h
          have hcnt := append_cnt_toNat (d := { d with pos := d.pos + 1 }) (entryValue (memReadInv u))
            (Nat.lt_trans hc' (by decide))
          simp only at hcnt
          refine ih ?_ ?_ (append_acc_lt (d := { d with pos := d.pos + 1 }) _ hc' ha) h <;> omega

/-- A refilling operation that raises no fault has settled. -/
theorem settleRefill_not_raised {s t : State} {R : Refill} (h : settleRefill s R = .done t) (hr : t.raised = none) :
    ∃ d S, R = .settled d S ∧ t = (s.withDec d S).finishSilent := by
  obtain hs | ⟨d, S, -, rfl⟩ | ⟨d, S, -, rfl⟩ := settleRefill_done h
  · exact hs
  · cases hr
  · cases hr

theorem settleRefill_inRange {s t : State} {d : DecCtx} {S : Stream} (hc : d.cnt.toNat ≤ 12)
    (ha : d.acc.toNat < 2 ^ d.cnt.toNat) (h : settleRefill s (decRefill 2 d S) = .done t) (hr : t.raised = none) :
    t.dec.InRange := by
  obtain ⟨d', S', hR, rfl⟩ := settleRefill_not_raised h hr
  exact (decRefill_settled 2 hc (by omega) ha hR).1

theorem attemptDecInit_inRange {s t : State} (h : attemptDecInit s = .done t) (hr : t.raised = none) : t.dec.InRange :=
  settleRefill_inRange (by decide) (by decide) (attemptDecInit_done h).2 hr

theorem attemptDecAdv_inRange {s t : State} (h : attemptDecAdv s = .done t) (he : s.dec.err = .clear)
    (hr : t.raised = none) : t.dec.InRange := by
  have hlt := s.dec.cnt.isLt
  obtain ⟨hne, -⟩ | ⟨-, -, rfl⟩ | ⟨-, -, -, -, h⟩ := attemptDecAdv_done h
  · exact absurd he hne
  · cases hr
  · exact settleRefill_inRange (by rw [discard_cnt_toNat]; omega) (discard_acc_lt _) h hr

/-- An attempt that does not hold has completed in its next state. -/
theorem Attempt.done_of_not_holds {a : Attempt} {s t : State} (h : a.outcome s = .next t) (hh : a.holds = false) :
    a = .done t := by
  rcases (Attempt.outcome_eq_next_iff a s t).mp h with hd | ⟨rfl, -⟩
  · exact hd
  · cases hh

/-- Settles O52, operation by operation: what each of the four attempts completes in is in range. -/
theorem countsStayInRange : Obligations.CountsStayInRange := by
  intro i s t h hh hr
  constructor
  · rintro (rfl | rfl)
    · exact attemptEncInit_inRange (Attempt.done_of_not_holds h hh)
    · exact attemptEncAdv_inRange (Attempt.done_of_not_holds h hh) hr
  · rintro (rfl | ⟨rfl, he⟩)
    · exact attemptDecInit_inRange (Attempt.done_of_not_holds h hh) hr
    · exact attemptDecAdv_inRange (Attempt.done_of_not_holds h hh) he hr

end Sys2Proof.Machine
end

section
/-! The invariant taken apart into one part for each cursor: its context, its run and its source. An operation changes the
part of its own unit at most (`exec_changes`), and a change of a source the part of that source alone. -/

namespace Sys2Proof.Machine

/-- The encoder's part of `State.Inv`, of a block of width `w` with context `e`, run flag `run` and source `S`. -/
structure EncInv (w : Nat) (e : EncCtx) (run : Bool) (S : Stream) : Prop where
  inRange : e.InRange
  posFits : e.pos < 2 ^ w
  errDone : e.err = true → e.cnt = 0#4
  termCnt : e.term = true → e.cnt = 0#4 ∨ e.cnt = 5#4
  posRead : run = true → e.pos ≤ S.pos
  allRead : run = true → e.cnt = 0#4 ∨ e.term = true → S.head = .ended
  srcPos  : S.pos ≤ S.units.length

/-- The decoder's part of `State.Inv`. -/
structure DecInv (w : Nat) (d : DecCtx) (run : Bool) (S : Stream) : Prop where
  inRange : d.err = .clear → d.InRange
  posFits : d.pos < 2 ^ (w + 1)
  posRead : run = true → d.err = .clear → d.pos ≤ S.pos
  allRead : run = true → d.err = .clear → d.cnt.toNat < 8 → S.head = .ended
  srcPos  : S.pos ≤ S.units.length

/-- The encoder's part of the invariant in a state. -/
def State.EncPart (s : State) : Prop := EncInv s.cntW s.enc s.encRun s.esrc

/-- The decoder's part of the invariant in a state. -/
def State.DecPart (s : State) : Prop := DecInv s.cntW s.dec s.decRun s.dsrc

theorem cnt_eq_zero_iff (c : Cnt) : c = 0#4 ↔ c.toNat = 0 := BitVec.toNat_inj.symm

theorem cnt_ne_zero {c : Cnt} (h : 0 < c.toNat) : c ≠ 0#4 := by
  rintro rfl
  cases h

theorem inv_iff (s : State) :
    s.Inv ↔ 1 ≤ s.cntW ∧ s.ports.fit s.cntW = true ∧ s.EncPart ∧ s.DecPart := by
  constructor
  · intro h
    exact ⟨h.width, h.portsFit,
      ⟨⟨by rw [← cnt_eq_zero_iff]; exact h.encRange, h.encCanon⟩, h.encPosFits, h.encErrDone, h.encTermCnt,
        h.encPosRead, h.encAllRead, h.esrcPos⟩,
      ⟨fun he => ⟨h.decRange he, h.decCanon he⟩, h.decPosFits, h.decPosRead, h.decAllRead, h.dsrcPos⟩⟩
  · rintro ⟨hw, hp, he, hd⟩
    exact
      { width := hw, portsFit := hp
        encRange := by rw [cnt_eq_zero_iff]; exact he.inRange.1
        encCanon := he.inRange.2, encPosFits := he.posFits, encErrDone := he.errDone, encTermCnt := he.termCnt
        encPosRead := he.posRead, encAllRead := he.allRead, esrcPos := he.srcPos
        decRange := fun hc => (hd.inRange hc).1, decCanon := fun hc => (hd.inRange hc).2
        decPosFits := hd.posFits, decPosRead := hd.posRead, decAllRead := hd.allRead, dsrcPos := hd.srcPos }

/-! ### Reset and the changes of a source -/

theorem encInv_reset (w : Nat) {S : Stream} (hS : S.pos ≤ S.units.length) : EncInv w .reset false S where
  inRange := ⟨.inl rfl, Nat.one_pos⟩
  posFits := Nat.two_pow_pos w
  errDone := nofun
  termCnt := nofun
  posRead := nofun
  allRead := nofun
  srcPos := hS

theorem decInv_reset (w : Nat) {S : Stream} (hS : S.pos ≤ S.units.length) : DecInv w .reset false S where
  inRange _ := ⟨.inl (Nat.zero_le 4), Nat.one_pos⟩
  posFits := Nat.two_pow_pos (w + 1)
  posRead := nofun
  allRead := nofun
  srcPos := hS

/-- A source may change as long as a run that goes on over it stands where it stood and does not lose its end. -/
theorem EncInv.changeSource {w : Nat} {e : EncCtx} {run run' : Bool} {S S' : Stream} (h : EncInv w e run S)
    (hS : S'.pos ≤ S'.units.length)
    (hrun : run' = true → run = true ∧ S'.pos = S.pos ∧ (S.head = .ended → S'.head = .ended)) : EncInv w e run' S' where
  inRange := h.inRange
  posFits := h.posFits
  errDone := h.errDone
  termCnt := h.termCnt
  posRead hr := by
    obtain ⟨hr', hp, -⟩ := hrun hr
    exact hp ▸ h.posRead hr'
  allRead hr hd := by
    obtain ⟨hr', -, he⟩ := hrun hr
    exact he (h.allRead hr' hd)
  srcPos := hS

theorem DecInv.changeSource {w : Nat} {d : DecCtx} {run run' : Bool} {S S' : Stream} (h : DecInv w d run S)
    (hS : S'.pos ≤ S'.units.length)
    (hrun : run' = true → run = true ∧ S'.pos = S.pos ∧ (S.head = .ended → S'.head = .ended)) : DecInv w d run' S' where
  inRange := h.inRange
  posFits := h.posFits
  posRead hr he := by
    obtain ⟨hr', hp, -⟩ := hrun hr
    exact hp ▸ h.posRead hr' he
  allRead hr he hd := by
    obtain ⟨hr', -, hh⟩ := hrun hr
    exact hh (h.allRead hr' he hd)
  srcPos := hS

/-- A run goes on when a unit arrives only where the end was not given, and so had not met the end. -/
theorem arrive_keeps_run {S : Stream} {run : Bool} (b : Byte) (h : (run && !S.ended) = true) :
    run = true ∧ (S.arrive b).pos = S.pos ∧ (S.head = .ended → (S.arrive b).head = .ended) := by
  rw [Bool.and_eq_true, Bool.not_eq_true'] at h
  obtain ⟨hr, he⟩ := h
  refine ⟨hr, rfl, fun hh => ?_⟩
  rw [Stream.head_eq_ended_iff, he] at hh
  cases hh.2

theorem arrive_pos_le {S : Stream} (b : Byte) (h : S.pos ≤ S.units.length) :
    (S.arrive b).pos ≤ (S.arrive b).units.length := by
  simp only [Stream.arrive, List.length_append, List.length_singleton]
  omega

theorem head_ended_of_end {S : Stream} (h : S.head = .ended) : Stream.head { S with ended := true } = .ended := by
  rw [Stream.head_eq_ended_iff] at h ⊢
  exact ⟨h.1, rfl⟩

theorem head_ended_of_store {S : Stream} (i : Nat) (b : Byte) (h : S.head = .ended) :
    Stream.head { S with units := S.units.set i b } = .ended := by
  rw [Stream.head_eq_ended_iff] at h ⊢
  simpa using h

theorem State.Inv.present {s : State} (h : s.Inv) {p : OperandPorts} (hp : p.fit s.cntW = true) : (s.present p).Inv :=
  { h with portsFit := hp }

theorem State.Inv.withCaller {s : State} (h : s.Inv) (cs : List CallerEvent) : State.Inv { s with caller := cs } :=
  { h with }

theorem State.Inv.withArrivals {s : State} (h : s.Inv) (as : List Arrival) : State.Inv { s with arrivals := as } :=
  { h with }

theorem State.Inv.resetBlock {s : State} (h : s.Inv) : s.resetBlock.Inv :=
  (inv_iff _).mpr ⟨h.width, h.portsFit, encInv_reset _ h.esrcPos, decInv_reset _ h.dsrcPos⟩

theorem State.Inv.changeEsrc {s : State} (h : s.Inv) {run : Bool} {S : Stream} (hS : S.pos ≤ S.units.length)
    (hrun : run = true → s.encRun = true ∧ S.pos = s.esrc.pos ∧ (s.esrc.head = .ended → S.head = .ended)) :
    State.Inv { s with esrc := S, encRun := run } := by
  obtain ⟨hw, hp, he, hd⟩ := (inv_iff s).mp h
  exact (inv_iff _).mpr ⟨hw, hp, he.changeSource hS hrun, hd⟩

theorem State.Inv.changeDsrc {s : State} (h : s.Inv) {run : Bool} {S : Stream} (hS : S.pos ≤ S.units.length)
    (hrun : run = true → s.decRun = true ∧ S.pos = s.dsrc.pos ∧ (s.dsrc.head = .ended → S.head = .ended)) :
    State.Inv { s with dsrc := S, decRun := run } := by
  obtain ⟨hw, hp, he, hd⟩ := (inv_iff s).mp h
  exact (inv_iff _).mpr ⟨hw, hp, he, hd.changeSource hS hrun⟩

theorem State.Inv.setEsrc {s : State} (h : s.Inv) (units : List Byte) (ended : Bool) : (s.setEsrc units ended).Inv :=
  h.changeEsrc (Nat.zero_le _) nofun

theorem State.Inv.setDsrc {s : State} (h : s.Inv) (units : List Byte) (ended : Bool) : (s.setDsrc units ended).Inv :=
  h.changeDsrc (Nat.zero_le _) nofun

theorem State.Inv.storeDsrc {s : State} (h : s.Inv) (i : Nat) (b : Byte) : (s.storeDsrc i b).Inv := by
  refine h.changeDsrc (by simpa using h.dsrcPos) fun hr => ?_
  exact ⟨(Bool.and_eq_true _ _ ▸ hr).1, rfl, head_ended_of_store i b⟩

/-- What comes while an operation holds keeps the invariant (rule R56, log entry 22). -/
theorem State.Inv.deliver {s : State} (h : s.Inv) (a : Arrival) : (s.deliver a).Inv := by
  cases a with
  | esrcUnit b => exact h.changeEsrc (arrive_pos_le b h.esrcPos) (arrive_keeps_run b)
  | esrcEnd => exact h.changeEsrc h.esrcPos fun hr => ⟨hr, rfl, head_ended_of_end⟩
  | dsrcUnit b => exact h.changeDsrc (arrive_pos_le b h.dsrcPos) (arrive_keeps_run b)
  | dsrcEnd => exact h.changeDsrc h.dsrcPos fun hr => ⟨hr, rfl, head_ended_of_end⟩
  | setEsrc units ended => exact h.setEsrc units ended
  | setDsrc units ended => exact h.setDsrc units ended
  | storeDsrc i b => exact h.storeDsrc i b
  | reset withdraw => exact h.resetBlock.withCaller _

/-- Settles O53: a block after reset has no run, and its streams are empty. -/
theorem invariantAtReset : Obligations.InvariantAtReset := by
  intro w hw
  refine (inv_iff _).mpr ⟨hw, ?_, encInv_reset w (Nat.le_refl 0), decInv_reset w (Nat.le_refl 0)⟩
  simp [State.resetOf, OperandPorts.fit]

end Sys2Proof.Machine
end

section
/-! Every operation keeps the part of the invariant that is its own unit's. -/

namespace Sys2Proof.Machine

/-! ### Encoder -/

theorem State.EncPart.encInit {s t : State} (h : s.EncPart) (hw : 1 ≤ s.cntW) (ha : attemptEncInit s = .done t) :
    t.EncPart := by
  have hin := attemptEncInit_inRange ha
  obtain ⟨-, ⟨b, hh, rfl⟩ | ⟨hh, rfl⟩⟩ := attemptEncInit_done ha
  · exact
      { inRange := hin
        posFits := Nat.one_lt_two_pow (Nat.ne_of_gt hw)
        errDone := nofun
        termCnt := nofun
        posRead := fun _ => Nat.succ_le_succ (Nat.zero_le _)
        allRead := fun _ hd => by rcases hd with hd | hd <;> cases hd
        srcPos := Stream.pos_lt_of_head_unit hh }
  · exact
      { inRange := hin
        posFits := Nat.two_pow_pos _
        errDone := nofun
        termCnt := nofun
        posRead := fun _ => Nat.zero_le _
        allRead := fun _ _ => hh
        srcPos := h.srcPos }

/-- `ENC_SEQ` is recorded only at count 0, where the error field may be set. -/
theorem State.EncPart.raise_encSeq {s : State} (h : s.EncPart) (hc : s.enc.cnt.toNat = 0) :
    (s.raise .encSeq).EncPart where
  inRange := h.inRange
  posFits := h.posFits
  errDone _ := (cnt_eq_zero_iff _).mpr hc
  termCnt := h.termCnt
  posRead := h.posRead
  allRead := h.allRead
  srcPos := h.srcPos

theorem State.EncPart.encAdv {s t : State} (h : s.EncPart) (ha : attemptEncAdv s = .done t) : t.EncPart := by
  have hin := attemptEncAdv_inRange ha
  obtain ⟨hc, rfl⟩ | ⟨c, hcnt, hcases⟩ := attemptEncAdv_done ha
  · exact h.raise_encSeq hc
  have hne : s.enc.cnt ≠ 0#4 := cnt_ne_zero (by omega)
  have herr : s.enc.err = true → False := fun he => hne (h.errDone he)
  have hterm : s.enc.term = true → c = 0 := fun ht => by
    have h5 := (h.termCnt ht).resolve_left hne
    have h5c : 5 = c + 5 := by rw [← hcnt, h5]; rfl
    omega
  obtain ⟨hc, rfl⟩ | ⟨hc, hr, hl, ⟨b, hh, rfl⟩ | ⟨hh, hc0, rfl⟩ | ⟨hh, hc0, rfl⟩⟩ := hcases
  · have hnt : s.enc.term = true → False := fun ht => by have := hterm ht; omega
    have hlt := s.enc.cnt.isLt
    have hc' : BitVec.ofNat 4 c ≠ 0#4 := cnt_ne_zero (by rw [cnt_ofNat_toNat] <;> omega)
    exact
      { inRange := hin rfl
        posFits := h.posFits
        errDone := fun he => (herr he).elim
        termCnt := fun ht => (hnt ht).elim
        posRead := h.posRead
        allRead := fun _ hd => (hd.elim hc' hnt).elim
        srcPos := h.srcPos }
  · -- a terminal symbol has met the end of the source, where nothing is left to pull
    have hnt : s.enc.term = true → False := fun ht => by
      have := h.allRead hr (.inr ht)
      rw [hh] at this
      cases this
    have hc' : BitVec.ofNat 4 (c + 8) ≠ 0#4 := cnt_ne_zero (by rw [cnt_ofNat_toNat] <;> omega)
    have hpos := Stream.pos_lt_of_head_unit hh
    have hread := h.posRead hr
    have hfits : s.enc.pos + 1 < 2 ^ s.cntW := by
      simp only [Config.maxBytes, Stream.remaining] at hl
      omega
    exact
      { inRange := hin rfl
        posFits := hfits
        errDone := fun he => (herr he).elim
        termCnt := fun ht => (hnt ht).elim
        posRead := fun _ => Nat.succ_le_succ hread
        allRead := fun _ hd => (hd.elim hc' hnt).elim
        srcPos := hpos }
  · exact
      { inRange := hin rfl
        posFits := h.posFits
        errDone := fun he => (herr he).elim
        termCnt := fun _ => .inr rfl
        posRead := h.posRead
        allRead := fun _ _ => hh
        srcPos := h.srcPos }
  · exact
      { inRange := hin rfl
        posFits := h.posFits
        errDone := fun _ => rfl
        termCnt := fun _ => .inl rfl
        posRead := h.posRead
        allRead := fun _ _ => hh
        srcPos := h.srcPos }

theorem exec_keeps_encPart {i : Instr} {s t : State} (hi : i.blockUnit = .encoder) (hw : 1 ≤ s.cntW) (h : s.EncPart)
    (hx : exec i s = .next t) : t.EncPart := by
  cases i with
  | encInit => exact Attempt.of_outcome h (h.encInit hw) hx
  | encCur =>
    obtain ⟨hc, rfl⟩ | ⟨-, rfl⟩ := execEncCur_next hx
    · exact h.raise_encSeq hc
    · exact h
  | encAdv => exact Attempt.of_outcome h h.encAdv hx
  | _ => cases hi

/-! ### Decoder -/

theorem record_ne_clear {recorded new : DecErr} (h : new ≠ .clear) : recorded.record new ≠ .clear := by
  cases recorded with
  | clear => exact h
  | _ => nofun

/-- In a faulted run only the widths and the stream's bounds are claimed. -/
theorem decInv_of_faulted {w : Nat} {d : DecCtx} {run : Bool} {S : Stream} (he : d.err ≠ .clear)
    (hpos : d.pos < 2 ^ (w + 1)) (hS : S.pos ≤ S.units.length) : DecInv w d run S where
  inRange hc := absurd hc he
  posFits := hpos
  posRead _ hc := absurd hc he
  allRead _ hc := absurd hc he
  srcPos := hS

theorem State.DecPart.raise_decSeq {s : State} (h : s.DecPart) : (s.raise .decSeq).DecPart :=
  decInv_of_faulted (record_ne_clear nofun) h.posFits h.srcPos

theorem scrambleDec_decPart {s : State} (h : s.dec.err ≠ .clear) : s.scrambleDec.finishSilent.DecPart :=
  decInv_of_faulted h s.scrambleDec_pos_lt s.scrambleDec_dsrc_pos_le

/-- A refill of a context in range, over a source of an admitted length, ends within the decoder's part of the
invariant, whether it settles or raises. -/
theorem settleRefill_decPart {s t : State} {d : DecCtx} {S : Stream} (hc : d.cnt.toNat ≤ 12)
    (ha : d.acc.toNat < 2 ^ d.cnt.toNat) (hpos : d.pos ≤ S.pos) (hS : S.pos ≤ S.units.length)
    (hlen : d.pos + S.remaining ≤ Config.maxSymbols s.cntW) (h : settleRefill s (decRefill 2 d S) = .done t) :
    t.DecPart := by
  have hframe : ∀ {d' : DecCtx} {S' : Stream}, decRefill 2 d S = .settled d' S' ∨
      decRefill 2 d S = .lengthFault d' S' ∨ decRefill 2 d S = .symbolFault d' S' →
      d'.pos < 2 ^ (s.cntW + 1) ∧ d'.pos ≤ S'.pos ∧ S'.pos ≤ S'.units.length := by
    intro d' S' hR
    obtain ⟨-, hu, -, -, -, hd, hle⟩ := decRefill_frame 2 d S d' S' hR
    have hle := hle hS
    have hp := Nat.two_pow_pos (s.cntW + 1)
    simp only [Config.maxSymbols, Stream.remaining] at hlen
    rw [hu]
    omega
  obtain ⟨d', S', hR, rfl⟩ | ⟨d', S', hR, rfl⟩ | ⟨d', S', hR, rfl⟩ := settleRefill_done h
  · obtain ⟨hfits, hread, hle⟩ := hframe (.inl hR)
    obtain ⟨hin, hend⟩ := decRefill_settled 2 hc (by omega) ha hR
    exact
      { inRange := fun _ => hin
        posFits := hfits
        posRead := fun _ _ => hread
        allRead := fun _ _ => hend
        srcPos := hle }
  · obtain ⟨hfits, -, hle⟩ := hframe (.inr (.inl hR))
    exact decInv_of_faulted (record_ne_clear nofun) hfits hle
  · obtain ⟨hfits, -, hle⟩ := hframe (.inr (.inr hR))
    exact decInv_of_faulted (record_ne_clear nofun) hfits hle

theorem State.DecPart.decInit {s t : State} (h : s.DecPart) (ha : attemptDecInit s = .done t) : t.DecPart := by
  obtain ⟨hl, hs⟩ := attemptDecInit_done ha
  exact settleRefill_decPart (by decide) (by decide) (Nat.zero_le _) h.srcPos (by simpa using hl) hs

theorem State.DecPart.decAdv {s t : State} (h : s.DecPart) (ha : attemptDecAdv s = .done t) : t.DecPart := by
  obtain ⟨he, rfl⟩ | ⟨-, -, rfl⟩ | ⟨he, -, hr, hl, hs⟩ := attemptDecAdv_done ha
  · exact scrambleDec_decPart he
  · exact h.raise_decSeq
  · have hlt := s.dec.cnt.isLt
    exact settleRefill_decPart (by rw [discard_cnt_toNat]; omega) (discard_acc_lt _) (h.posRead hr he) h.srcPos hl hs

theorem exec_keeps_decPart {i : Instr} {s t : State} (hi : i.blockUnit = .decoder) (h : s.DecPart)
    (hx : exec i s = .next t) : t.DecPart := by
  cases i with
  | decInit => exact Attempt.of_outcome h h.decInit hx
  | decCur =>
    obtain ⟨-, rfl⟩ | ⟨-, -, rfl⟩ | ⟨-, -, rfl⟩ := execDecCur_next hx
    · exact h
    · exact h.raise_decSeq
    · exact h
  | decAdv => exact Attempt.of_outcome h h.decAdv hx
  | _ => cases hi

/-! ### Every operation and every step -/

/-- Every operation keeps the invariant: its own unit's part by the two lemmas above, the rest since it does not change
it. -/
theorem exec_keeps_inv {i : Instr} {s t : State} (h : s.Inv) (hx : exec i s = .next t) : t.Inv := by
  obtain ⟨hw, hp, he, hd⟩ := (inv_iff s).mp h
  rcases exec_changes hx with ⟨hu, ht⟩ | ⟨hu, ht⟩ | ⟨-, ht⟩ | ⟨-, ht⟩ | ⟨-, rfl⟩
  · have he' := exec_keeps_encPart hu hw he hx
    rw [EncOnly, Quiet] at ht
    rw [ht] at he' ⊢
    exact (inv_iff _).mpr ⟨hw, hp, he', hd⟩
  · have hd' := exec_keeps_decPart hu hd hx
    rw [DecOnly, Quiet] at ht
    rw [ht] at hd' ⊢
    exact (inv_iff _).mpr ⟨hw, hp, he, hd'⟩
  · rw [ValOnly, Quiet] at ht
    rw [ht]
    exact (inv_iff _).mpr ⟨hw, hp, he, hd⟩
  · rw [Quiet] at ht
    rw [ht]
    exact (inv_iff _).mpr ⟨hw, hp, he, hd⟩
  · exact (inv_iff _).mpr ⟨hw, hp, he, hd⟩

theorem ports_fit_of_wellFormed {x : Issue} {w : Nat} (h : x.wellFormed w = true) : x.ports.fit w = true :=
  (Bool.and_eq_true _ _ ▸ h).2

/-- What a step of an issued operation comes to: it is refused, nothing happens, something comes while it holds, or it
is executed. -/
theorem step_of_issue {s : State} {x : Issue} {rest : List CallerEvent} (hc : s.caller = .issue x :: rest) :
    step s = .refused .illFormedIssue ∨ step s = .next s ∨
    (∃ a as, step s = .next (State.deliver { s with arrivals := as } a)) ∨
    (x.ports.fit s.cntW = true ∧ step s = exec (decodeWord x.op) { s.present x.ports with caller := rest }) := by
  cases hw : x.wellFormed s.cntW with
  | false => exact .inl (step_of_illFormed hc hw)
  | true =>
    cases hh : holds (decodeWord x.op) (s.present x.ports) with
    | false => exact .inr (.inr (.inr ⟨ports_fit_of_wellFormed hw, step_of_not_hold hc hw hh⟩))
    | true =>
      cases ha : s.arrivals with
      | nil => exact .inr (.inl (step_of_hold_nil hc hw hh ha))
      | cons a as => exact .inr (.inr (.inl ⟨a, as, step_of_hold_cons hc hw hh ha⟩))

theorem step_of_issue_keeps_inv {s t : State} {x : Issue} {rest : List CallerEvent}
    (hc : s.caller = .issue x :: rest) (h : s.Inv) (ht : step s = .next t) : t.Inv := by
  obtain hs | hs | ⟨a, as, hs⟩ | ⟨hp, hs⟩ := step_of_issue hc <;> rw [hs] at ht
  · cases ht
  · cases ht
    exact h
  · cases ht
    exact (h.withArrivals as).deliver a
  · exact exec_keeps_inv ((h.present hp).withCaller rest) ht

/-- Settles O54, by what the caller does: an issue, a change of a stream, a store, or the reset event. -/
theorem invariantIsKeptByEveryStep : Obligations.InvariantIsKeptByEveryStep := by
  intro s t h ht
  cases hc : s.caller with
  | nil =>
    rw [step_of_no_caller hc] at ht
    cases ht
    exact h
  | cons e rest =>
    cases e with
    | issue x => exact step_of_issue_keeps_inv hc h ht
    | setEsrc units ended =>
      rw [step_of_caller_cons hc] at ht
      cases ht
      exact (h.withCaller rest).setEsrc units ended
    | setDsrc units ended =>
      rw [step_of_caller_cons hc] at ht
      cases ht
      exact (h.withCaller rest).setDsrc units ended
    | storeDsrc i b =>
      rw [step_of_caller_cons hc] at ht
      cases ht
      exact (h.withCaller rest).storeDsrc i b
    | reset =>
      rw [step_of_caller_cons hc] at ht
      cases ht
      exact (h.withCaller rest).resetBlock

end Sys2Proof.Machine
end

section
/-! Where an operation completes, and where it holds (rules R56, R163). -/

namespace Sys2Proof.Machine

/-! ### The heads that an operation needs -/

theorem Stream.head_ne_unknown_iff (S : Stream) : S.head ≠ .unknown ↔ S.pos < S.units.length ∨ S.ended = true := by
  rw [ne_eq, Stream.head_eq_unknown_iff, List.getElem?_eq_none_iff, not_and_or, Nat.not_le, Bool.not_eq_false]

theorem drop_of_head_unit {S : Stream} {u : Byte} (h : S.head = .unit u) :
    S.units.drop S.pos = u :: S.units.drop (S.pos + 1) := by
  obtain ⟨hlt, hu⟩ := List.getElem?_eq_some_iff.mp ((Stream.head_eq_unit_iff S u).mp h)
  rw [List.drop_eq_getElem_cons hlt, hu]

theorem not_headsKnown_of_head_unknown (c : Nat) {S : Stream} (h : S.head = .unknown) : ¬ HeadsKnown c S := by
  obtain ⟨hn, he⟩ := (Stream.head_eq_unknown_iff S).mp h
  rw [HeadsKnown, List.drop_eq_nil_of_le (List.getElem?_eq_none_iff.mp hn)]
  simp [he]

theorem headsKnown_of_head_ended (c : Nat) {S : Stream} (h : S.head = .ended) : HeadsKnown c S := by
  obtain ⟨hn, he⟩ := (Stream.head_eq_ended_iff S).mp h
  rw [HeadsKnown, List.drop_eq_nil_of_le (List.getElem?_eq_none_iff.mp hn)]
  exact he

/-- With a unit at the head, a second head is needed only after a member that leaves fewer than eight bits. -/
theorem headsKnown_of_head_unit (c : Nat) {S : Stream} {u : Byte} (h : S.head = .unit u) :
    HeadsKnown c S ↔ 3 ≤ c ∨ AlphabetUnit u = false ∨ S.pop.head ≠ .unknown := by
  rw [HeadsKnown, drop_of_head_unit h, Stream.head_ne_unknown_iff, Stream.pop_pos, Stream.pop_units, Stream.pop_ended]
  cases hd : S.units.drop (S.pos + 1) with
  | nil =>
    have hle : S.units.length ≤ S.pos + 1 := List.drop_eq_nil_iff.mp hd
    simp only [Nat.not_lt.mpr hle, false_or]
  | cons v vs =>
    have hlt : S.pos + 1 < S.units.length := by
      have hlen := congrArg List.length hd
      rw [List.length_drop, List.length_cons] at hlen
      omega
    simp only [hlt, true_or, or_true]

/-- With one pull left, a refill holds exactly where it needs a head that is unknown. -/
theorem decRefill_one_hold_iff (d : DecCtx) (S : Stream) :
    decRefill 1 d S = .hold ↔ d.cnt.toNat < 8 ∧ S.head = .unknown := by
  by_cases hc : 8 ≤ d.cnt.toNat
  · rw [decRefill_of_enough _ _ _ hc]
    simp [Nat.not_lt.mpr hc]
  · have hc' : d.cnt.toNat < 8 := by omega
    cases hh : S.head with
    | unknown => simp [decRefill_of_unknown 0 hc' hh, hc']
    | ended => rw [decRefill_of_ended 0 hc' hh]; split <;> simp
    | unit u =>
      cases hu : AlphabetUnit u with
      | false => simp [decRefill_of_stranger 0 hc' hh hu]
      | true =>
        rw [decRefill_of_member 0 hc' hh hu]
        simp [decRefill]

/-- A refill that has bits to fetch holds exactly where a head that it needs is not known. -/
theorem decRefill_two_hold_iff {d : DecCtx} (S : Stream) (hc : d.cnt.toNat < 8) :
    decRefill 2 d S = .hold ↔ ¬ HeadsKnown d.cnt.toNat S := by
  cases hh : S.head with
  | unknown => simp [decRefill_of_unknown 1 hc hh, not_headsKnown_of_head_unknown _ hh]
  | ended =>
    rw [decRefill_of_ended 1 hc hh]
    split <;> simp [headsKnown_of_head_ended _ hh]
  | unit u =>
    rw [headsKnown_of_head_unit _ hh]
    cases hu : AlphabetUnit u with
    | false => simp [decRefill_of_stranger 1 hc hh hu]
    | true =>
      have hcnt := append_cnt_toNat (d := { d with pos := d.pos + 1 }) (entryValue (memReadInv u))
        (Nat.lt_trans hc (by decide))
      rw [decRefill_of_member 1 hc hh hu, decRefill_one_hold_iff, hcnt]
      simp only [Bool.true_eq_false, false_or, not_or, not_not, Nat.not_le]
      exact and_congr_left fun _ => by omega

/-! ### Where the four operations hold -/

theorem Attempt.holds_eq_false_iff (a : Attempt) : a.holds = false ↔ a ≠ .hold := by
  rw [ne_eq, ← Attempt.holds_iff, Bool.not_eq_true]

theorem holds_encInit_eq_false_iff {s : State} (hl : s.esrc.remaining ≤ Config.maxBytes s.cntW) :
    holds .encInit s = false ↔ HeadsKnownFor .encInit s := by
  rw [holds, Attempt.holds_eq_false_iff, ne_eq, attemptEncInit_hold_iff, and_iff_right hl]
  exact s.esrc.head_ne_unknown_iff

theorem holds_encAdv_eq_false_iff {s : State} (hr : 5 ≤ s.enc.cnt.toNat → s.enc.cnt.toNat < 10 → s.encReady) :
    holds .encAdv s = false ↔ HeadsKnownFor .encAdv s := by
  rw [holds, Attempt.holds_eq_false_iff, ne_eq, attemptEncAdv_hold_iff, HeadsKnownFor,
    ← Stream.head_ne_unknown_iff, encSourceStop_eq_none_iff]
  by_cases h5 : 5 ≤ s.enc.cnt.toNat
  · by_cases h10 : s.enc.cnt.toNat < 10
    · simp [h5, h10, Nat.not_lt.mpr h5, Nat.not_le.mpr h10, (hr h5 h10).1, (hr h5 h10).2]
    · simp [h10, Nat.not_lt.mp h10]
  · simp [h5, Nat.not_le.mp h5]

theorem holds_decInit_eq_false_iff {s : State} (hl : s.dsrc.remaining ≤ Config.maxSymbols s.cntW) :
    holds .decInit s = false ↔ HeadsKnownFor .decInit s := by
  rw [holds, Attempt.holds_eq_false_iff, ne_eq, attemptDecInit_hold_iff, and_iff_right hl,
    decRefill_two_hold_iff _ (by decide), not_not]
  exact Iff.rfl

theorem holds_decAdv_eq_false_iff {s : State} (hr : s.dec.err = .clear → 8 ≤ s.dec.cnt.toNat → s.decReady) :
    holds .decAdv s = false ↔ HeadsKnownFor .decAdv s := by
  have hlt := s.dec.cnt.isLt
  have hd : s.dec.discard.cnt.toNat < 8 := by rw [discard_cnt_toNat]; omega
  rw [holds, Attempt.holds_eq_false_iff, ne_eq, attemptDecAdv_hold_iff, decRefill_two_hold_iff _ hd, discard_cnt_toNat,
    decSourceStop_eq_none_iff, HeadsKnownFor]
  by_cases he : s.dec.err = .clear
  · by_cases h8 : 8 ≤ s.dec.cnt.toNat
    · simp [he, h8, (hr he h8).1, (hr he h8).2]
    · simp [h8, Nat.not_le.mp h8]
  · simp [he]

/-- An operation holds exactly where a head that it needs is not known, over a source that it can read. -/
theorem holds_eq_false_iff {i : Instr} {s : State} (hei : i = .encInit → s.esrc.remaining ≤ 2 ^ s.cntW - 1)
    (hdi : i = .decInit → s.dsrc.remaining ≤ 2 ^ (s.cntW + 1) - 1)
    (hea : i = .encAdv → 5 ≤ s.enc.cnt.toNat → s.enc.cnt.toNat < 10 → s.encReady)
    (hda : i = .decAdv → s.dec.err = .clear → 8 ≤ s.dec.cnt.toNat → s.decReady) :
    holds i s = false ↔ HeadsKnownFor i s := by
  cases i with
  | encInit => exact holds_encInit_eq_false_iff (hei rfl)
  | encAdv => exact holds_encAdv_eq_false_iff (hea rfl)
  | decInit => exact holds_decInit_eq_false_iff (hdi rfl)
  | decAdv => exact holds_decAdv_eq_false_iff (hda rfl)
  | _ => exact iff_of_true rfl trivial

/-! ### Where every operation completes -/

/-- An attempt that is neither a fault nor a refusal answers a next state. -/
theorem Attempt.exists_next {a : Attempt} {s : State} (hf : ∀ f, a ≠ .fault f) (hr : ∀ r, a ≠ .refuse r) :
    ∃ t, a.outcome s = .next t := by
  cases a with
  | done t => exact ⟨t, rfl⟩
  | hold => exact ⟨s, rfl⟩
  | fault f => exact absurd rfl (hf f)
  | refuse r => exact absurd rfl (hr r)

theorem Attempt.outcome_fault_iff (a : Attempt) (s : State) (f : Fault) : a.outcome s = .fault f ↔ a = .fault f := by
  cases a <;> simp [Attempt.outcome]

theorem settleRefill_completes (s : State) (R : Refill) :
    (∀ f, settleRefill s R ≠ .fault f) ∧ ∀ r, settleRefill s R ≠ .refuse r := by
  cases R <;> exact ⟨nofun, nofun⟩

theorem attemptEncInit_ne_fault (s : State) (f : Fault) : attemptEncInit s ≠ .fault f := by
  unfold attemptEncInit
  split
  · nofun
  · cases s.esrc.head <;> nofun

theorem attemptEncInit_ne_refuse {s : State} (hl : s.esrc.remaining ≤ Config.maxBytes s.cntW) (r : Refusal) :
    attemptEncInit s ≠ .refuse r := by
  unfold attemptEncInit
  rw [if_neg (Nat.not_lt.mpr hl)]
  cases s.esrc.head <;> nofun

theorem attemptEncRefill_ne_fault (s : State) (c : Nat) (a : Acc) (f : Fault) : attemptEncRefill s c a ≠ .fault f := by
  unfold attemptEncRefill
  cases s.encSourceStop with
  | some r => nofun
  | none =>
    cases s.esrc.head with
    | ended => simp only; split <;> nofun
    | _ => nofun

theorem attemptEncRefill_ne_refuse {s : State} (h : s.encReady) (c : Nat) (a : Acc) (r : Refusal) :
    attemptEncRefill s c a ≠ .refuse r := by
  unfold attemptEncRefill
  rw [(encSourceStop_eq_none_iff s).mpr h]
  cases s.esrc.head with
  | ended => simp only; split <;> nofun
  | _ => nofun

/-- The only fault of the model is `ENC.ADV` or `ENC.CUR` at a count of 1 to 4, which rule R38 excludes. -/
theorem attemptEncAdv_ne_fault {s : State} (h : s.enc.InRange) (f : Fault) : attemptEncAdv s ≠ .fault f := by
  obtain ⟨hc, -⟩ := h
  unfold attemptEncAdv
  split
  · nofun
  · rw [if_neg (by omega)]
    split
    · nofun
    · exact attemptEncRefill_ne_fault _ _ _ f

theorem attemptEncAdv_ne_refuse {s : State} (hr : 5 ≤ s.enc.cnt.toNat → s.enc.cnt.toNat < 10 → s.encReady)
    (r : Refusal) : attemptEncAdv s ≠ .refuse r := by
  unfold attemptEncAdv
  split
  · nofun
  · split
    · nofun
    · split
      · nofun
      · exact attemptEncRefill_ne_refuse (hr (by omega) (by omega)) _ _ r

theorem attemptDecInit_ne_fault (s : State) (f : Fault) : attemptDecInit s ≠ .fault f := by
  unfold attemptDecInit
  split
  · nofun
  · exact (settleRefill_completes _ _).1 f

theorem attemptDecInit_ne_refuse {s : State} (hl : s.dsrc.remaining ≤ Config.maxSymbols s.cntW) (r : Refusal) :
    attemptDecInit s ≠ .refuse r := by
  unfold attemptDecInit
  rw [if_neg (Nat.not_lt.mpr hl)]
  exact (settleRefill_completes _ _).2 r

theorem attemptDecAdv_ne_fault (s : State) (f : Fault) : attemptDecAdv s ≠ .fault f := by
  unfold attemptDecAdv
  split
  · nofun
  · split
    · nofun
    · cases s.decSourceStop with
      | some r => nofun
      | none => exact (settleRefill_completes _ _).1 f

theorem attemptDecAdv_ne_refuse {s : State} (hr : s.dec.err = .clear → 8 ≤ s.dec.cnt.toNat → s.decReady)
    (r : Refusal) : attemptDecAdv s ≠ .refuse r := by
  unfold attemptDecAdv
  split
  · nofun
  · rename_i he
    split
    · nofun
    · rw [(decSourceStop_eq_none_iff s).mpr (hr (not_not.mp he) (by omega))]
      exact (settleRefill_completes _ _).2 r

theorem execEncCur_completes {s : State} (h : s.enc.InRange) : ∃ t, execEncCur s = .next t := by
  obtain ⟨hc, -⟩ := h
  unfold execEncCur
  split
  · exact ⟨_, rfl⟩
  · rw [if_neg (by omega)]
    exact ⟨_, rfl⟩

theorem execDecCur_completes (s : State) : ∃ t, execDecCur s = .next t := by
  unfold execDecCur
  split
  · exact ⟨_, rfl⟩
  · split <;> exact ⟨_, rfl⟩

/-- Where the encoder's count is in range and the run that the operation advances can go on, there is a next state. -/
theorem exec_completes {i : Instr} {s : State} (h : s.enc.InRange)
    (hei : i = .encInit → s.esrc.remaining ≤ 2 ^ s.cntW - 1)
    (hdi : i = .decInit → s.dsrc.remaining ≤ 2 ^ (s.cntW + 1) - 1)
    (hea : i = .encAdv → 5 ≤ s.enc.cnt.toNat → s.enc.cnt.toNat < 10 → s.encReady)
    (hda : i = .decAdv → s.dec.err = .clear → 8 ≤ s.dec.cnt.toNat → s.decReady) :
    ∃ t, exec i s = .next t := by
  cases i with
  | encInit => exact Attempt.exists_next (attemptEncInit_ne_fault s) (attemptEncInit_ne_refuse (hei rfl))
  | encCur => exact execEncCur_completes h
  | encAdv => exact Attempt.exists_next (attemptEncAdv_ne_fault h) (attemptEncAdv_ne_refuse (hea rfl))
  | decInit => exact Attempt.exists_next (attemptDecInit_ne_fault s) (attemptDecInit_ne_refuse (hdi rfl))
  | decCur => exact execDecCur_completes s
  | decAdv => exact Attempt.exists_next (attemptDecAdv_ne_fault s) (attemptDecAdv_ne_refuse (hda rfl))
  | _ => exact ⟨_, rfl⟩

/-- No operation ends in a fault of the model where the encoder's count is in range. -/
theorem exec_ne_fault {s : State} (h : s.enc.InRange) (i : Instr) (f : Fault) : exec i s ≠ .fault f := by
  cases i with
  | encInit => exact fun hf => attemptEncInit_ne_fault s f ((Attempt.outcome_fault_iff _ s f).mp hf)
  | encAdv => exact fun hf => attemptEncAdv_ne_fault h f ((Attempt.outcome_fault_iff _ s f).mp hf)
  | decInit => exact fun hf => attemptDecInit_ne_fault s f ((Attempt.outcome_fault_iff _ s f).mp hf)
  | decAdv => exact fun hf => attemptDecAdv_ne_fault s f ((Attempt.outcome_fault_iff _ s f).mp hf)
  | encCur =>
    obtain ⟨t, ht⟩ := execEncCur_completes h
    rw [exec, ht]
    nofun
  | decCur =>
    obtain ⟨t, ht⟩ := execDecCur_completes s
    rw [exec, ht]
    nofun
  | _ => nofun

theorem step_ne_fault {s : State} (h : s.Inv) (f : Fault) : step s ≠ .fault f := by
  obtain ⟨-, -, he, -⟩ := (inv_iff s).mp h
  cases hc : s.caller with
  | nil => rw [step_of_no_caller hc]; nofun
  | cons e rest =>
    cases e with
    | issue x =>
      obtain hs | hs | ⟨a, as, hs⟩ | ⟨-, hs⟩ := step_of_issue hc <;> rw [hs]
      · nofun
      · nofun
      · nofun
      · exact exec_ne_fault (s := { s.present x.ports with caller := rest }) he.inRange _ f
    | _ => rw [step_of_caller_cons hc]; nofun

/-- Settles O55: the invariant gives the encoder's count its range (rule R38), the premises the source that is read. -/
theorem everyOperationCompletes : Obligations.EveryOperationCompletes := by
  refine ⟨fun i s h hei hdi hea hda => ?_, fun s f h => step_ne_fault h f⟩
  obtain ⟨-, -, he, -⟩ := (inv_iff s).mp h
  exact ⟨exec_completes he.inRange hei hdi hea hda, holds_eq_false_iff hei hdi hea hda⟩

end Sys2Proof.Machine
end

section
/-! The registers, `STATUS` and the tables after reset (rule R42). -/

namespace Sys2Proof.Machine

theorem fwdIsTheAlphabet : FwdIsTheAlphabet := by
  unfold FwdIsTheAlphabet
  decide

/-- A property of every byte can be checked upper and lower four bits apart, sixteen values each. -/
theorem forall_byte_of_nibbles {P : Byte → Prop} (h : ∀ hi lo : BitVec 4, P (hi ++ lo)) (u : Byte) : P u := by
  have hu : u.extractLsb' 4 4 ++ u.extractLsb' 0 4 = u := BitVec.extractLsb'_append_extractLsb' (w := 4) (len := 4)
  exact hu ▸ h (u.extractLsb' 4 4) (u.extractLsb' 0 4)

theorem invIsTheInverse : InvIsTheInverse := forall_byte_of_nibbles (by decide)

/-- `STATUS` after reset: `VAL_RES`, `DEC_DONE` and `ENC_DONE` (rule R36). -/
theorem status_of_reset {s : State} (he : s.enc = .reset) (hd : s.dec = .reset) (hv : s.val = .reset)
    (ho : s.opErr = false) : s.status = 0x49#8 := by
  rw [State.status, he, hd, hv, ho]
  decide

/-- Settles O5: the registers by the definition of the reset state, the tables by the two lemmas above. -/
theorem resetValues : Obligations.ResetValues :=
  ⟨rfl, fun _ => ⟨rfl, rfl, rfl, rfl, rfl, rfl, rfl, rfl, rfl, rfl, rfl, rfl, rfl, rfl, status_of_reset rfl rfl rfl rfl,
    fwdIsTheAlphabet, invIsTheInverse⟩⟩

end Sys2Proof.Machine
end

section
/-! Bit strings as numbers (rule R13), and the bits of a byte sequence and of a symbol sequence. -/

namespace Sys2Proof.Machine

theorem bitsNumber_add (W : Nat → Bool) (t m n : Nat) :
    bitsNumber W t (m + n) = bitsNumber W t m * 2 ^ n + bitsNumber W (t + m) n := by
  induction n with
  | zero => simp [bitsNumber]
  | succ n ih =>
    rw [← Nat.add_assoc m n 1, bitsNumber, bitsNumber, ih, Nat.pow_succ, Nat.add_assoc t m n]
    ring

theorem bitsNumber_lt (W : Nat → Bool) (t n : Nat) : bitsNumber W t n < 2 ^ n := by
  induction n with
  | zero => exact Nat.one_pos
  | succ n ih =>
    have hb : (W (t + n)).toNat < 2 := Bool.toNat_lt _
    rw [bitsNumber, Nat.pow_succ]
    omega

/-- The low bits of a number that a string spells are those that stand last in the string. -/
theorem bitsNumber_mod (W : Nat → Bool) (t m n : Nat) :
    bitsNumber W t (m + n) % 2 ^ n = bitsNumber W (t + m) n := by
  rw [bitsNumber_add, Nat.mul_add_mod', Nat.mod_eq_of_lt (bitsNumber_lt W (t + m) n)]

theorem bitsNumber_div (W : Nat → Bool) (t m n : Nat) : bitsNumber W t (m + n) / 2 ^ n = bitsNumber W t m := by
  rw [bitsNumber_add, Nat.mul_comm, Nat.mul_add_div (Nat.two_pow_pos n), Nat.div_eq_of_lt (bitsNumber_lt W (t + m) n),
    Nat.add_zero]

theorem bitsNumber_of_zeros {W : Nat → Bool} {t n : Nat} (h : ∀ k, k < n → W (t + k) = false) :
    bitsNumber W t n = 0 := by
  induction n with
  | zero => rfl
  | succ n ih => rw [bitsNumber, ih fun k hk => h k (by omega), h n (by omega)]; rfl

/-- The `n` most significant bits of a word, as the string of its bits spells them. -/
theorem bitsNumber_eq_top {w : Nat} {W : Nat → Bool} {t : Nat} {v : BitVec w}
    (h : ∀ k, k < w → W (t + k) = v.getMsbD k) {n : Nat} (hn : n ≤ w) :
    bitsNumber W t n = v.toNat / 2 ^ (w - n) := by
  induction n with
  | zero => exact (Nat.div_eq_of_lt v.isLt).symm
  | succ n ih =>
    have hw : w - n = (w - (n + 1)) + 1 := by omega
    have hbit : v.getMsbD n = v.toNat.testBit (w - (n + 1)) := by
      rw [BitVec.getMsbD, decide_eq_true (by omega : n < w), Bool.true_and, BitVec.getLsbD]
      congr 1
      omega
    rw [bitsNumber, ih (by omega), h n (by omega), hbit, hw, Nat.pow_succ, ← Nat.div_div_eq_div_mul,
      Nat.toNat_testBit]
    exact Nat.div_add_mod _ 2

theorem bitsNumber_eq_toNat {w : Nat} {W : Nat → Bool} {t : Nat} {v : BitVec w}
    (h : ∀ k, k < w → W (t + k) = v.getMsbD k) : bitsNumber W t w = v.toNat := by
  rw [bitsNumber_eq_top h (Nat.le_refl w), Nat.sub_self, Nat.pow_zero, Nat.div_one]

theorem bitsNumber_byte (B : List Byte) (p : Nat) :
    bitsNumber (byteBit B) (8 * p) 8 = (B.getD p 0#8).toNat := by
  refine bitsNumber_eq_toNat fun k hk => ?_
  have hdiv : (8 * p + k) / 8 = p := by omega
  have hmod : (8 * p + k) % 8 = k := by omega
  rw [byteBit, hdiv, hmod, BitVec.getMsbD, decide_eq_true hk, Bool.true_and]

theorem bitsNumber_symbol (S : List Byte) (p : Nat) :
    bitsNumber (symbolBit S) (5 * p) 5 = (entryValue (memReadInv (S.getD p 0x79#8))).toNat := by
  refine bitsNumber_eq_toNat fun k hk => ?_
  have hdiv : (5 * p + k) / 5 = p := by omega
  have hmod : (5 * p + k) % 5 = k := by omega
  rw [symbolBit, hdiv, hmod, BitVec.getMsbD, decide_eq_true hk, Bool.true_and]

/-- After the last byte the string is all zeros (rule R143): they are the padding. -/
theorem bitsNumber_after_end (B : List Byte) {t : Nat} (ht : 8 * B.length ≤ t) (n : Nat) :
    bitsNumber (byteBit B) t n = 0 := by
  refine bitsNumber_of_zeros fun k _ => ?_
  rw [byteBit, List.getD_eq_default _ _ (by omega), BitVec.getLsbD_zero]

end Sys2Proof.Machine
end

section
/-! A run of the encoder (rules R63, R143, R144): where its context and its source stand after each `ENC.ADV`. -/

namespace Sys2Proof.Machine

theorem Stream.getD_of_head_unit {S : Stream} {u : Byte} (h : S.head = .unit u) (d : Byte) :
    S.pos < S.units.length ∧ S.units.getD S.pos d = u := by
  obtain ⟨hlt, hu⟩ := List.getElem?_eq_some_iff.mp ((Stream.head_eq_unit_iff S u).mp h)
  exact ⟨hlt, (List.getD_eq_getElem _ _ hlt).trans hu⟩

/-- The consumption schedule (rule R63) of an encoder run over `n` bytes, after `i` advances: the bytes pulled, the count
and whether the terminal symbol is formed. The bits held reach from bit `5 * i` to the end of the last byte pulled or, past
the end of the source, of the last symbol. -/
structure EncSchedule (n i pos cnt : Nat) (term : Bool) : Prop where
  pulled : pos = min n ((5 * (i + 1) + 7) / 8)
  count  : cnt + 5 * i = max (8 * pos) (5 * min (i + 1) ((8 * n + 4) / 5))
  padded : term = true ↔ 8 * n < 5 * min (i + 1) ((8 * n + 4) / 5)

namespace EncSchedule

variable {n i pos c : Nat} {term : Bool}

theorem init_unit (hn : 0 < n) : EncSchedule n 0 1 8 false :=
  ⟨by omega, by omega, iff_of_false nofun (by omega)⟩

theorem init_ended (hn : n = 0) : EncSchedule n 0 0 0 false :=
  ⟨by omega, by omega, iff_of_false nofun (by omega)⟩

theorem range (h : EncSchedule n i pos c term) : c = 0 ∨ (5 ≤ c ∧ c ≤ 12) := by
  obtain ⟨hp, hc, -⟩ := h
  omega

theorem five_le (h : EncSchedule n i pos c term) (hi : i < (8 * n + 4) / 5) : 5 ≤ c := by
  have hc := h.count
  omega

theorem discard (h : EncSchedule n i pos (c + 5) term) (hc : 5 ≤ c) : EncSchedule n (i + 1) pos c term := by
  obtain ⟨hp, hk, ht⟩ := h
  exact ⟨by omega, by omega, ht.trans (by omega)⟩

/-- Where a byte is pulled, the bits left by the discard end where it begins. -/
theorem pull_at (h : EncSchedule n i pos (c + 5) term) (hpos : pos < n) (hc : c < 5) :
    5 * (i + 1) + c = 8 * pos ∧ EncSchedule n (i + 1) (pos + 1) (c + 8) term := by
  obtain ⟨hp, hk, ht⟩ := h
  exact ⟨by omega, by omega, by omega, ht.trans (by omega)⟩

/-- Where the last symbol is padded, the bits left by the discard end with the source. -/
theorem pad_at (h : EncSchedule n i n (c + 5) term) (h0 : 0 < c) (hc : c < 5) :
    8 * n ≤ 5 * (i + 1) + c ∧ EncSchedule n (i + 1) n 5 true := by
  obtain ⟨hp, hk, ht⟩ := h
  exact ⟨by omega, by omega, by omega, iff_of_true rfl (by omega)⟩

theorem exhaust (h : EncSchedule n i n 5 term) : EncSchedule n (i + 1) n 0 term := by
  obtain ⟨hp, hk, ht⟩ := h
  exact ⟨by omega, by omega, ht.trans (by omega)⟩

end EncSchedule

/-- Where an encoder run over `B` stands after `i` advances: on its schedule, and with the bits of the string from bit
`5 * i` on (rule R143). -/
structure State.EncoderAt (B : List Byte) (i : Nat) (t : State) : Prop where
  admitted : B.length ≤ Config.maxBytes t.cntW
  run      : t.encRun = true
  source   : t.esrc = { units := B, pos := t.enc.pos, ended := true }
  clear    : t.enc.err = false
  schedule : EncSchedule B.length i t.enc.pos t.enc.cnt.toNat t.enc.term
  bits     : t.enc.acc.toNat = bitsNumber (byteBit B) (5 * i) t.enc.cnt.toNat

namespace State.EncoderAt

variable {B : List Byte} {i : Nat} {t u : State}

/-- What changes no register and no stream leaves the run where it stands. -/
theorem of_quiet (h : t.EncoderAt B i) (hq : Quiet t u) : u.EncoderAt B i := by
  rw [Quiet] at hq
  rw [hq]
  exact { h with }

theorem inRange (h : t.EncoderAt B i) : t.enc.InRange :=
  ⟨h.schedule.range, h.bits ▸ bitsNumber_lt _ _ _⟩

theorem ready (h : t.EncoderAt B i) : t.encReady := by
  refine ⟨h.run, ?_⟩
  have hp := h.schedule.pulled
  have ha := h.admitted
  rw [h.source]
  simp only [Stream.remaining]
  omega

theorem pos_of_head_unit {b : Byte} (h : t.EncoderAt B i) (hh : t.esrc.head = .unit b) :
    t.enc.pos < B.length ∧ B.getD t.enc.pos 0#8 = b := by
  have hget := Stream.getD_of_head_unit hh 0#8
  rw [h.source] at hget
  exact hget

theorem pos_of_head_ended (h : t.EncoderAt B i) (hh : t.esrc.head = .ended) : t.enc.pos = B.length := by
  rw [Stream.head_eq_ended_iff, h.source] at hh
  have hle : B.length ≤ t.enc.pos := List.getElem?_eq_none_iff.mp hh.1
  have hp := h.schedule.pulled
  omega

theorem not_holds (h : t.EncoderAt B i) : holds .encAdv t = false := by
  rw [holds_encAdv_eq_false_iff fun _ _ => h.ready]
  exact .inr (.inr (.inr (by rw [h.source])))

/-- The current symbol is the next of the encoding: its five bits are the first of those held (rules R141, R143). -/
theorem execEncCur (h : t.EncoderAt B i) (hi : i < encodedLength B.length) :
    exec .encCur t = .next (t.driveUnit (encodedSymbol B i)) := by
  have h5 := h.schedule.five_le hi
  have hbits := h.bits
  obtain ⟨c, hc⟩ : ∃ c, t.enc.cnt.toNat = 5 + c := ⟨t.enc.cnt.toNat - 5, by omega⟩
  have hcur : t.enc.current = BitVec.ofNat 5 (bitsNumber (byteBit B) (5 * i) 5) := by
    rw [EncCtx.current, BitVec.extractLsb', Nat.shiftRight_eq_div_pow, hbits, hc, Nat.add_sub_cancel_left, bitsNumber_div]
  rw [exec, Machine.execEncCur, if_neg (by omega), if_neg (by omega), hcur, encodedSymbol]

/-- The bits left by the discard of the current symbol. -/
theorem low_acc {c : Nat} (h : t.EncoderAt B i) (hc : t.enc.cnt.toNat = c + 5) :
    (low t.enc.acc c).toNat = bitsNumber (byteBit B) (5 * (i + 1)) c := by
  have hlt := t.enc.cnt.isLt
  rw [low_toNat _ (by omega), h.bits, hc, Nat.add_comm c 5, bitsNumber_mod]
  rfl

/-- The pull appends the bits of the next byte (rule R142). -/
theorem pull_acc {c : Nat} {b : Byte} (h : t.EncoderAt B i) (hcnt : t.enc.cnt.toNat = c + 5) (hc : c < 5)
    (hend : 5 * (i + 1) + c = 8 * t.enc.pos) (hb : B.getD t.enc.pos 0#8 = b) :
    (low t.enc.acc c <<< 8 ||| b.setWidth 16).toNat = bitsNumber (byteBit B) (5 * (i + 1)) (c + 8) := by
  rw [append_bits_toNat _ b (by decide) (low_lt _ (by omega)) (by omega : c + 8 ≤ 16), h.low_acc hcnt, bitsNumber_add,
    hend, bitsNumber_byte, hb]

/-- The padding appends zeros, which the string has after its end (rules R142, R143). -/
theorem pad_acc {c : Nat} (h : t.EncoderAt B i) (hcnt : t.enc.cnt.toNat = c + 5) (hc : c < 5)
    (hend : 8 * B.length ≤ 5 * (i + 1) + c) :
    (low t.enc.acc c <<< (5 - c)).toNat = bitsNumber (byteBit B) (5 * (i + 1)) 5 := by
  have hsplit := bitsNumber_add (byteBit B) (5 * (i + 1)) c (5 - c)
  rw [Nat.add_sub_cancel' (Nat.le_of_lt hc), bitsNumber_after_end _ hend] at hsplit
  rw [pad_toNat _ (low_lt _ (by omega)) (by omega), h.low_acc hcnt, hsplit]
  rfl

/-- An advance of a run that is not exhausted, by what `ENC.ADV` can come to. -/
theorem of_attemptEncAdv (h : t.EncoderAt B i) (hi : i < encodedLength B.length) (ha : attemptEncAdv t = .done u) :
    u.EncoderAt B (i + 1) := by
  have h5 := h.schedule.five_le hi
  have hlt := t.enc.cnt.isLt
  have hs := h.schedule
  obtain ⟨h0, -⟩ | ⟨c, hcnt, ⟨hc, rfl⟩ | ⟨hc, -, -, ⟨b, hh, rfl⟩ | ⟨hh, hc0, rfl⟩ | ⟨hh, rfl, rfl⟩⟩⟩ :=
    attemptEncAdv_done ha
  · omega
  · have hn : (BitVec.ofNat 4 c).toNat = c := cnt_ofNat_toNat (by omega)
    rw [hcnt] at hs
    exact
      { h with
        schedule := hn.symm ▸ hs.discard hc
        bits := (h.low_acc hcnt).trans (congrArg _ hn.symm) }
  · have hn : (BitVec.ofNat 4 (c + 8)).toNat = c + 8 := cnt_ofNat_toNat (by omega)
    obtain ⟨hlt, hb⟩ := h.pos_of_head_unit hh
    rw [hcnt] at hs
    obtain ⟨hend, hs'⟩ := hs.pull_at hlt hc
    exact
      { h with
        source := congrArg Stream.pop h.source
        schedule := hn.symm ▸ hs'
        bits := (h.pull_acc hcnt hc hend hb).trans (congrArg _ hn.symm) }
  · have hpos := h.pos_of_head_ended hh
    rw [hcnt, hpos] at hs
    obtain ⟨hend, hs'⟩ := hs.pad_at hc0 hc
    exact { h with schedule := hpos.symm ▸ hs', bits := h.pad_acc hcnt hc hend }
  · have hpos := h.pos_of_head_ended hh
    rw [hcnt, hpos] at hs
    exact { h with schedule := hpos.symm ▸ hs.exhaust, bits := rfl }

theorem execEncAdv (h : t.EncoderAt B i) (hi : i < encodedLength B.length) :
    ∃ u, exec .encAdv t = .next u ∧ u.EncoderAt B (i + 1) := by
  obtain ⟨u, hu⟩ := exec_completes (i := .encAdv) h.inRange nofun nofun (fun _ _ _ => h.ready) nofun
  exact ⟨u, hu, h.of_attemptEncAdv hi (Attempt.done_of_not_holds hu h.not_holds)⟩

theorem exhausted (h : t.EncoderAt B (encodedLength B.length)) : t.enc.cnt.toNat = 0 ∧ t.enc.pos = B.length := by
  obtain ⟨hp, hc, -⟩ := h.schedule
  simp only [encodedLength] at hp hc
  omega

end State.EncoderAt

/-- `ENC.INIT` over a source that is set begins the run (rule R140). -/
theorem execEncInit_setEsrc (s : State) {B : List Byte} (hB : B.length ≤ Config.maxBytes s.cntW) :
    ∃ t, exec .encInit (s.setEsrc B true) = .next t ∧ t.EncoderAt B 0 := by
  have hl : (s.setEsrc B true).esrc.remaining ≤ Config.maxBytes (s.setEsrc B true).cntW := hB
  obtain ⟨t, ht⟩ := Attempt.exists_next (attemptEncInit_ne_fault (s.setEsrc B true)) (attemptEncInit_ne_refuse hl)
  have hh := (holds_encInit_eq_false_iff hl).mpr (.inr rfl)
  refine ⟨t, ht, ?_⟩
  obtain ⟨-, ⟨b, hu, rfl⟩ | ⟨he, rfl⟩⟩ := attemptEncInit_done (Attempt.done_of_not_holds ht hh)
  · obtain ⟨hlt, hb⟩ : 0 < B.length ∧ B.getD 0 0#8 = b := Stream.getD_of_head_unit hu 0#8
    have hbits : (b.setWidth 16).toNat = bitsNumber (byteBit B) (8 * 0) 8 := by
      rw [bitsNumber_byte, hb]
      exact BitVec.toNat_setWidth_of_le (by decide)
    exact
      { admitted := hB, run := rfl, source := rfl, clear := rfl
        schedule := EncSchedule.init_unit hlt, bits := hbits }
  · have hnil : B.length = 0 :=
      Nat.le_zero.mp (List.getElem?_eq_none_iff.mp ((Stream.head_eq_ended_iff _).mp he).1)
    exact
      { admitted := hB, run := rfl, source := rfl, clear := rfl
        schedule := EncSchedule.init_ended hnil, bits := rfl }

/-- The run reaches every advance up to the last (rule R144). -/
theorem runTo_encoderAt (s : State) {B : List Byte} (hB : B.length ≤ Config.maxBytes s.cntW) :
    ∀ i, i ≤ encodedLength B.length →
      ∃ t, runTo .encInit .encAdv i (s.setEsrc B true) = .next t ∧ t.EncoderAt B i := by
  intro i
  induction i with
  | zero => exact fun _ => execEncInit_setEsrc s hB
  | succ i ih =>
    intro hi
    obtain ⟨t, ht, hat⟩ := ih (Nat.le_of_succ_le hi)
    obtain ⟨u, hu, hau⟩ := hat.execEncAdv hi
    exact ⟨u, by rw [runTo, ht, andThen_next, hu], hau⟩

/-- Settles O25: the run stands on its schedule after every advance (`runTo_encoderAt`). -/
theorem encoderContract : Obligations.EncoderContract := by
  intro s B hB
  refine ⟨fun i hi => ?_, ?_⟩
  · obtain ⟨t, ht, hat⟩ := runTo_encoderAt s hB i (Nat.le_of_lt hi)
    exact ⟨t, _, ht, hat.execEncCur hi, rfl, rfl, hat.clear, hat.schedule.pulled⟩
  · obtain ⟨t, ht, hat⟩ := runTo_encoderAt s hB _ (Nat.le_refl _)
    obtain ⟨hcnt, hpos⟩ := hat.exhausted
    refine ⟨t, ht, ⟨hat.run, (cnt_eq_zero_iff _).mpr hcnt, hat.clear⟩, hpos, ?_, ?_⟩
    · rw [hat.source, hpos]
    · rw [hat.schedule.padded, encodedLength]
      omega

end Sys2Proof.Machine
end

section
/-! The loop of `TO_BASE32Z` over an encoder run (rule R101), and the layout of a group (rule R59). -/

namespace Sys2Proof.Machine

/-! ### The loop -/

theorem status_getLsbD_zero (s : State) : s.status.getLsbD 0 = s.enc.done := by
  rw [State.status]
  exact BitVec.getLsbD_append.trans (by simp)

theorem encOnly_of_quiet {s t : State} (h : Quiet s t) : EncOnly s t := by
  rw [Quiet] at h
  rw [h]
  rfl

theorem EncOnly.trans {s t u : State} (h : EncOnly s t) (h' : EncOnly t u) : EncOnly s u :=
  Eq.trans h' (congrArg (fun x : State => { x with
    enc := u.enc, esrc := { x.esrc with pos := u.esrc.pos }, encRun := u.encRun
    out := u.out, raised := u.raised, portFree := u.portFree }) h)

namespace State.EncoderAt

variable {B : List Byte} {i : Nat} {t : State}

/-- `ENC_DONE` reads 1 exactly after the last advance (rule R144). -/
theorem done_iff (h : t.EncoderAt B i) : t.enc.done = true ↔ encodedLength B.length ≤ i := by
  have hc := h.schedule.count
  have hp := h.schedule.pulled
  rw [EncCtx.done, beq_iff_eq, cnt_eq_zero_iff, encodedLength]
  omega

/-- One round of the loop gives the next symbol of the encoding. -/
theorem encEmit (h : t.EncoderAt B i) (hi : i < encodedLength B.length) :
    ∃ u, encEmit t = .next (.emitted (encodedSymbol B i) u) ∧ u.EncoderAt B (i + 1) ∧ EncOnly t u := by
  have hcur := h.execEncCur hi
  have hat := h.of_quiet (quiet_finish t { t.undriven with unitOut := encodedSymbol B i })
  obtain ⟨u, hu, hau⟩ := hat.execEncAdv hi
  refine ⟨u, ?_, hau, (exec_encOnly rfl hcur).trans (exec_encOnly rfl hu)⟩
  have hh := hat.not_holds
  rw [Machine.encEmit, emit, hcur, andThen_next, State.driveUnit, hh, hu]
  rfl

end State.EncoderAt

/-- The loop ends where the run does, with the symbols from `i` on. -/
theorem encodeLoop_of_encoderAt {B : List Byte} (r : Nat) : ∀ {i : Nat} {t : State} (out : List Byte),
    t.EncoderAt B i → i + r = encodedLength B.length →
      ∃ u, encodeLoop (r + 1) out t = .next (.finished, out ++ (List.range' i r).map (encodedSymbol B), u) ∧
        u.EncoderAt B (encodedLength B.length) ∧ EncOnly t u := by
  induction r with
  | zero =>
    intro i t out h hi
    have hdone : t.status.getLsbD 0 = true := (status_getLsbD_zero t).trans (h.done_iff.mpr (by omega))
    refine ⟨t.driveStatus t.status, ?_, ?_, encOnly_of_quiet (quiet_finish t _)⟩
    · rw [encodeLoop, exec, execStatusRd, andThen_next]
      exact (if_pos hdone).trans (by simp)
    · exact (by omega : i = encodedLength B.length) ▸ h.of_quiet (quiet_finish t _)
  | succ r ih =>
    intro i t out h hi
    have hdone : ¬ t.status.getLsbD 0 = true := fun hd => by
      have := h.done_iff.mp ((status_getLsbD_zero t).symm.trans hd)
      omega
    have hat : (t.driveStatus t.status).EncoderAt B i := h.of_quiet (quiet_finish t _)
    obtain ⟨u, hu, hau, heu⟩ := hat.encEmit (by omega)
    obtain ⟨w, hw, haw, hew⟩ := ih (out ++ [encodedSymbol B i]) hau (by omega)
    refine ⟨w, ?_, haw, (encOnly_of_quiet (quiet_finish t _)).trans (heu.trans hew)⟩
    rw [encodeLoop, exec, execStatusRd, andThen_next]
    refine (if_neg hdone).trans ?_
    rw [hu, andThen_next]
    refine hw.trans ?_
    rw [List.range'_succ, List.map_cons, List.append_assoc, List.singleton_append]

/-- `TO_BASE32Z(B)` ends with the encoding of `B` (rule R101), and changes nothing but the encoder. -/
theorem toBase32z_encodes (s : State) {B : List Byte} (hB : B.length ≤ Config.maxBytes s.cntW) :
    ∃ t, toBase32z B s = .next (.finished, encodedSequence B, t) ∧ t.EncoderAt B (encodedLength B.length) ∧
      EncOnly (s.setEsrc B true) t := by
  obtain ⟨a, ha, hat⟩ := execEncInit_setEsrc s hB
  obtain ⟨t, ht, hatt, het⟩ := encodeLoop_of_encoderAt (encodedLength B.length) [] hat (Nat.zero_add _)
  refine ⟨t, ?_, hatt, (exec_encOnly rfl ha).trans het⟩
  rw [toBase32z, ha, andThen_next, ht, encodedSequence, List.range_eq_range']
  rfl

/-! ### The layout of a group -/

/-- The eight symbol values of the first group of `B`, as concatenations of byte bits, oldest first (rule R59), with zero
bytes after the end (rule R143). -/
def groupValues (B : List Byte) : List SymVal :=
  [(B.getD 0 0#8).extractLsb' 3 5, (B.getD 0 0#8).extractLsb' 0 3 ++ (B.getD 1 0#8).extractLsb' 6 2,
    (B.getD 1 0#8).extractLsb' 1 5, (B.getD 1 0#8).extractLsb' 0 1 ++ (B.getD 2 0#8).extractLsb' 4 4,
    (B.getD 2 0#8).extractLsb' 0 4 ++ (B.getD 3 0#8).extractLsb' 7 1, (B.getD 3 0#8).extractLsb' 2 5,
    (B.getD 3 0#8).extractLsb' 0 2 ++ (B.getD 4 0#8).extractLsb' 5 3, (B.getD 4 0#8).extractLsb' 0 5]

/-- A symbol of the encoding is known by its five bits. -/
theorem encodedSymbol_of_bits {B : List Byte} {i : Nat} {v : SymVal}
    (h : ∀ k, k < 5 → byteBit B (5 * i + k) = v.getMsbD k) : encodedSymbol B i = memReadFwd v := by
  rw [encodedSymbol, bitsNumber_eq_toNat h, BitVec.ofNat_toNat, BitVec.setWidth_eq]

/-- The bits of a field of byte `p`, from bit `t` of the string on. -/
theorem byteBit_extractLsb' (B : List Byte) (p : Nat) {t lo len : Nat} (h8 : lo + len ≤ 8)
    (ht : t + len + lo = 8 * p + 8) : ∀ k, k < len → byteBit B (t + k) = ((B.getD p 0#8).extractLsb' lo len).getMsbD k := by
  intro k hk
  have hdiv : (t + k) / 8 = p := by omega
  have hbit : 7 - (t + k) % 8 = lo + (len - 1 - k) := by omega
  rw [byteBit, hdiv, hbit, BitVec.getMsbD, BitVec.getLsbD_extractLsb', decide_eq_true hk,
    decide_eq_true (by omega : len - 1 - k < len), Bool.true_and, Bool.true_and]

/-- The bits of a concatenation are those of its two fields in order. -/
theorem bits_of_append {W : Nat → Bool} {t m n : Nat} {x : BitVec m} {y : BitVec n}
    (hx : ∀ k, k < m → W (t + k) = x.getMsbD k) (hy : ∀ k, k < n → W (t + m + k) = y.getMsbD k) :
    ∀ k, k < m + n → W (t + k) = (x ++ y).getMsbD k := by
  intro k hk
  rw [BitVec.getMsbD_append]
  split
  · rw [← hy _ (by omega)]
    congr 1
    omega
  · exact hx k (by omega)

/-- A symbol whose bits are those of two fields, of two bytes. -/
theorem encodedSymbol_of_fields {B : List Byte} {i p q lo lo' m n : Nat} (hm : lo + m ≤ 8) (hn : lo' + n ≤ 8)
    (hp : 5 * i + m + lo = 8 * p + 8) (hq : 5 * i + m + n + lo' = 8 * q + 8) (h5 : m + n = 5) :
    encodedSymbol B i =
      memReadFwd (((B.getD p 0#8).extractLsb' lo m ++ (B.getD q 0#8).extractLsb' lo' n).cast h5) := by
  refine encodedSymbol_of_bits fun k hk => ?_
  rw [BitVec.getMsbD_cast]
  exact bits_of_append (byteBit_extractLsb' B p hm hp) (byteBit_extractLsb' B q hn hq) k (h5 ▸ hk)

theorem encodedSymbols_of_group (B : List Byte) :
    (List.range 8).map (encodedSymbol B) = (groupValues B).map memReadFwd := by
  have one : ∀ {i p lo : Nat}, lo + 5 ≤ 8 → 5 * i + 5 + lo = 8 * p + 8 →
      encodedSymbol B i = memReadFwd ((B.getD p 0#8).extractLsb' lo 5) := fun h8 ht =>
    encodedSymbol_of_bits (byteBit_extractLsb' B _ h8 ht)
  have s0 : encodedSymbol B 0 = memReadFwd ((B.getD 0 0#8).extractLsb' 3 5) := one (by decide) rfl
  have s1 : encodedSymbol B 1 = memReadFwd ((B.getD 0 0#8).extractLsb' 0 3 ++ (B.getD 1 0#8).extractLsb' 6 2) :=
    encodedSymbol_of_fields (by decide) (by decide) rfl rfl rfl
  have s2 : encodedSymbol B 2 = memReadFwd ((B.getD 1 0#8).extractLsb' 1 5) := one (by decide) rfl
  have s3 : encodedSymbol B 3 = memReadFwd ((B.getD 1 0#8).extractLsb' 0 1 ++ (B.getD 2 0#8).extractLsb' 4 4) :=
    encodedSymbol_of_fields (by decide) (by decide) rfl rfl rfl
  have s4 : encodedSymbol B 4 = memReadFwd ((B.getD 2 0#8).extractLsb' 0 4 ++ (B.getD 3 0#8).extractLsb' 7 1) :=
    encodedSymbol_of_fields (by decide) (by decide) rfl rfl rfl
  have s5 : encodedSymbol B 5 = memReadFwd ((B.getD 3 0#8).extractLsb' 2 5) := one (by decide) rfl
  have s6 : encodedSymbol B 6 = memReadFwd ((B.getD 3 0#8).extractLsb' 0 2 ++ (B.getD 4 0#8).extractLsb' 5 3) :=
    encodedSymbol_of_fields (by decide) (by decide) rfl rfl rfl
  have s7 : encodedSymbol B 7 = memReadFwd ((B.getD 4 0#8).extractLsb' 0 5) := one (by decide) rfl
  have hr : List.range 8 = [0, 1, 2, 3, 4, 5, 6, 7] := rfl
  simp only [hr, groupValues, List.map_cons, List.map_nil, s0, s1, s2, s3, s4, s5, s6, s7]

theorem encodedSequence_of_length_le {B : List Byte} (h : B.length ≤ 5) :
    encodedSequence B = ((groupValues B).take (encodedLength B.length)).map memReadFwd := by
  have h8 : encodedLength B.length ≤ 8 := by
    rw [encodedLength]
    omega
  rw [List.map_take, ← encodedSymbols_of_group, ← List.map_take, List.take_range, Nat.min_eq_left h8]
  rfl

/-- Settles O27: the loop ends with the encoding (`toBase32z_encodes`), whose symbols are those of the group up to its last
byte. -/
theorem layoutOfAGroup : Obligations.LayoutOfAGroup := by
  intro s B0 B1 B2 B3 B4 hw
  have hgroup : ∀ (B : List Byte) (V : List SymVal), B.length ≤ 5 →
      (groupValues B).take (encodedLength B.length) = V →
      ∃ t, toBase32z B s = .next (.finished, V.map memReadFwd, t) := by
    rintro B V hB rfl
    obtain ⟨t, ht, -⟩ := toBase32z_encodes s (le_trans hB hw)
    rw [encodedSequence_of_length_le hB] at ht
    exact ⟨t, ht⟩
  refine ⟨hgroup _ _ ?_ ?_, hgroup _ _ ?_ ?_, hgroup _ _ ?_ ?_, hgroup _ _ ?_ ?_, hgroup _ _ ?_ ?_⟩ <;>
    simp [groupValues, encodedLength]

end Sys2Proof.Machine
end

section
/-! A run of the decoder over valid input (rules R64, R164, R168): where its context and its source stand after each
`DEC.ADV`. -/

namespace Sys2Proof.Machine

/-- The pull of an alphabet unit: it is counted, and its value appended (rule R163). -/
def DecCtx.pull (d : DecCtx) (v : SymVal) : DecCtx := { d with pos := d.pos + 1 }.append v

theorem DecCtx.pull_pos (d : DecCtx) (v : SymVal) : (d.pull v).pos = d.pos + 1 := rfl

theorem DecCtx.pull_cnt {d : DecCtx} (v : SymVal) (hc : d.cnt.toNat < 8) : (d.pull v).cnt.toNat = d.cnt.toNat + 5 :=
  append_cnt_toNat (d := { d with pos := d.pos + 1 }) v (Nat.lt_trans hc (by decide))

theorem DecCtx.pull_acc {d : DecCtx} (v : SymVal) (hc : d.cnt.toNat < 8) (ha : d.acc.toNat < 2 ^ d.cnt.toNat) :
    (d.pull v).acc.toNat = d.acc.toNat * 2 ^ 5 + v.toNat :=
  append_acc_toNat (d := { d with pos := d.pos + 1 }) v (by omega : d.cnt.toNat ≤ 11) ha

/-- The bits after the last whole byte of a valid sequence are padding, fewer than five (rule R164). -/
theorem ValidSequence.padding_lt {S : List Byte} (h : ValidSequence S) : 5 * S.length % 8 < 5 := by
  obtain ⟨-, h1, h3, h6⟩ := h
  have hres : S.length % 8 = 0 ∨ S.length % 8 = 2 ∨ S.length % 8 = 4 ∨ S.length % 8 = 5 ∨ S.length % 8 = 7 := by omega
  rcases hres with hr | hr | hr | hr | hr <;> omega

/-- The decoder holds the bits of the string of `S` from bit `8 * j` up to the last symbol pulled (rule R164), and no fault
is recorded. -/
structure DecCtx.HoldsBits (S : List Byte) (j : Nat) (d : DecCtx) : Prop where
  clear : d.err = .clear
  count : d.cnt.toNat + 8 * j = 5 * d.pos
  bits  : d.acc.toNat = bitsNumber (symbolBit S) (8 * j) d.cnt.toNat

namespace DecCtx.HoldsBits

variable {S : List Byte} {j : Nat} {d : DecCtx}

theorem acc_lt (h : d.HoldsBits S j) : d.acc.toNat < 2 ^ d.cnt.toNat :=
  h.bits ▸ bitsNumber_lt _ _ _

theorem empty : HoldsBits S 0 { acc := 0#16, cnt := 0#4, err := .clear, pos := 0 } :=
  ⟨rfl, rfl, rfl⟩

/-- A pull appends the bits of the next symbol's value (rule R163). -/
theorem pull (h : d.HoldsBits S j) (hc : d.cnt.toNat < 8) :
    HoldsBits S j (d.pull (entryValue (memReadInv (S.getD d.pos 0x79#8)))) := by
  have hend : 8 * j + d.cnt.toNat = 5 * d.pos := by rw [Nat.add_comm, h.count]
  refine ⟨h.clear, ?_, ?_⟩
  · rw [pull_cnt _ hc, pull_pos]
    omega
  · rw [pull_acc _ hc h.acc_lt, pull_cnt _ hc, bitsNumber_add, hend, bitsNumber_symbol, h.bits]

/-- The discard leaves the bits after the current byte (rule R162). -/
theorem discard (h : d.HoldsBits S j) (hc : 8 ≤ d.cnt.toNat) : HoldsBits S (j + 1) d.discard := by
  obtain ⟨c, hcnt⟩ : ∃ c, d.cnt.toNat = 8 + c := ⟨d.cnt.toNat - 8, by omega⟩
  have hlt := d.cnt.isLt
  have hd : d.discard.cnt.toNat = c := by rw [discard_cnt_toNat, hcnt, Nat.add_sub_cancel_left]
  have hacc : d.discard.acc.toNat = d.acc.toNat % 2 ^ (d.cnt.toNat - 8) := low_toNat _ (by omega)
  refine ⟨h.clear, ?_, ?_⟩
  · have hcount := h.count
    rw [hd]
    change c + 8 * (j + 1) = 5 * d.pos
    omega
  · rw [hacc, hd, h.bits, hcnt, Nat.add_sub_cancel_left, bitsNumber_mod]
    rfl

/-- The current byte is the next that `S` decodes to: its eight bits are the first of those held (rules R161, R164). -/
theorem current (h : d.HoldsBits S j) (hc : 8 ≤ d.cnt.toNat) : d.current = decodedByte S j := by
  obtain ⟨c, hcnt⟩ : ∃ c, d.cnt.toNat = 8 + c := ⟨d.cnt.toNat - 8, by omega⟩
  have hbits := h.bits
  rw [DecCtx.current, BitVec.extractLsb', Nat.shiftRight_eq_div_pow, hbits, hcnt, Nat.add_sub_cancel_left, bitsNumber_div,
    decodedByte]

end DecCtx.HoldsBits

/-- The symbols pulled by the `j`-th advance over `k` symbols (rule R64): as many as byte `j` needs, where there are. -/
def decPulled (k j : Nat) : Nat := min k ((8 * (j + 1) + 4) / 5)

/-- A refill over valid input settles with the symbols pulled that the schedule says: at the end of the source fewer than
five bits are left, which are padding (rules R163, R164). -/
theorem decRefill_valid {S : List Byte} (hS : ValidSequence S) {j : Nat} (hj : j ≤ 5 * S.length / 8) (n : Nat) :
    ∀ {d : DecCtx}, d.HoldsBits S j → d.pos ≤ decPulled S.length j → 8 ≤ d.cnt.toNat + 5 * n →
      ∃ d', decRefill n d { units := S, pos := d.pos, ended := true } =
          .settled d' { units := S, pos := d'.pos, ended := true } ∧
        d'.HoldsBits S j ∧ d'.pos = decPulled S.length j := by
  have hlast : 5 * S.length < 8 * (j + 1) → 5 * S.length < 8 * j + 5 := fun h => by
    have hpad := hS.padding_lt
    have heq : j = 5 * S.length / 8 := by omega
    omega
  induction n with
  | zero =>
    intro d hd hpos h8
    have hcount := hd.count
    exact ⟨d, rfl, hd, by rw [decPulled] at hpos ⊢; omega⟩
  | succ n ih =>
    intro d hd hpos h8
    have hcount := hd.count
    by_cases hc : 8 ≤ d.cnt.toNat
    · exact ⟨d, decRefill_of_enough _ _ _ hc, hd, by rw [decPulled] at hpos ⊢; omega⟩
    · have hc' : d.cnt.toNat < 8 := Nat.not_le.mp hc
      have hle : d.pos ≤ S.length := le_trans hpos (min_le_left _ _)
      cases hh : Stream.head { units := S, pos := d.pos, ended := true } with
      | unknown => cases ((Stream.head_eq_unknown_iff _).mp hh).2
      | ended =>
        have hend : S.length ≤ d.pos := List.getElem?_eq_none_iff.mp ((Stream.head_eq_ended_iff _).mp hh).1
        exact ⟨d, by rw [decRefill_of_ended n hc' hh, if_neg (by omega)], hd, by rw [decPulled] at hpos ⊢; omega⟩
      | unit u =>
        obtain ⟨hlt, hu⟩ : d.pos < S.length ∧ S.getD d.pos 0x79#8 = u := Stream.getD_of_head_unit hh _
        have hmem : u ∈ S := List.mem_of_getElem? ((Stream.head_eq_unit_iff _ u).mp hh)
        have hstep : decRefill (n + 1) d _ = decRefill n (d.pull (entryValue (memReadInv u))) _ :=
          decRefill_of_member n hc' hh (hS.1 u hmem)
        rw [hstep, ← hu]
        have hcnt : (d.pull (entryValue (memReadInv (S.getD d.pos 0x79#8)))).cnt.toNat = _ := DecCtx.pull_cnt _ hc'
        refine ih (hd.pull hc') ?_ (by omega)
        rw [DecCtx.pull_pos, decPulled]
        omega

/-- Where a decoder run over `S` stands after `j` advances: on its schedule (rule R64), with the bits of the string from
bit `8 * j` on (rule R164). -/
structure State.DecoderAt (S : List Byte) (j : Nat) (t : State) : Prop where
  admitted : S.length ≤ Config.maxSymbols t.cntW
  run      : t.decRun = true
  source   : t.dsrc = { units := S, pos := t.dec.pos, ended := true }
  pulled   : t.dec.pos = decPulled S.length j
  bits     : t.dec.HoldsBits S j

/-- A refill in a run over valid input completes with the run on its schedule and raises nothing. -/
theorem settleRefill_decoderAt {S : List Byte} (hS : ValidSequence S) {j : Nat} (hj : j ≤ 5 * S.length / 8) {s : State}
    {d : DecCtx} (hl : S.length ≤ Config.maxSymbols s.cntW) (hr : s.decRun = true) (hd : d.HoldsBits S j)
    (hpos : d.pos ≤ decPulled S.length j) :
    ∃ t, settleRefill s (decRefill 2 d { units := S, pos := d.pos, ended := true }) = .done t ∧ t.DecoderAt S j ∧
      t.raised = none := by
  obtain ⟨d', hR, hd', hpos'⟩ := decRefill_valid hS hj 2 hd hpos (by omega)
  rw [hR]
  exact ⟨_, rfl, { admitted := hl, run := hr, source := rfl, pulled := hpos', bits := hd' }, rfl⟩

namespace State.DecoderAt

variable {S : List Byte} {j : Nat} {t : State}

theorem ready (h : t.DecoderAt S j) : t.decReady := by
  refine ⟨h.run, ?_⟩
  have hp := h.pulled
  have ha := h.admitted
  rw [h.source]
  simp only [Stream.remaining, decPulled] at hp ⊢
  omega

theorem eight_le (h : t.DecoderAt S j) (hj : j < 5 * S.length / 8) : 8 ≤ t.dec.cnt.toNat := by
  have hp := h.pulled
  have hc := h.bits.count
  rw [decPulled] at hp
  omega

theorem execDecCur (h : t.DecoderAt S j) (hj : j < 5 * S.length / 8) :
    exec .decCur t = .next (t.driveUnit (decodedByte S j)) := by
  have h8 := h.eight_le hj
  rw [exec, Machine.execDecCur, if_neg (not_not.mpr h.bits.clear), if_neg (Nat.not_lt.mpr h8), h.bits.current h8]

theorem execDecAdv (h : t.DecoderAt S j) (hS : ValidSequence S) (hj : j < 5 * S.length / 8) :
    ∃ u, exec .decAdv t = .next u ∧ u.DecoderAt S (j + 1) ∧ u.raised = none := by
  have h8 := h.eight_le hj
  have hpos : t.dec.discard.pos ≤ decPulled S.length (j + 1) := by
    have hp : t.dec.discard.pos = decPulled S.length j := h.pulled
    rw [hp, decPulled, decPulled]
    omega
  obtain ⟨u, hu, hat, hq⟩ := settleRefill_decoderAt hS hj h.admitted h.run (h.bits.discard h8) hpos
  refine ⟨u, ?_, hat, hq⟩
  have hadv : attemptDecAdv t = .done u := by
    rw [attemptDecAdv, if_neg (not_not.mpr h.bits.clear), if_neg (Nat.not_lt.mpr h8),
      (decSourceStop_eq_none_iff t).mpr h.ready, h.source]
    exact hu
  rw [exec, Machine.execDecAdv, hadv, Attempt.outcome]

end State.DecoderAt

/-- `DEC.INIT` over a source that is set begins the run (rule R160). -/
theorem execDecInit_setDsrc (s : State) {S : List Byte} (hl : S.length ≤ Config.maxSymbols s.cntW)
    (hS : ValidSequence S) :
    ∃ t, exec .decInit (s.setDsrc S true) = .next t ∧ t.DecoderAt S 0 ∧ t.raised = none := by
  obtain ⟨t, ht, hat, hq⟩ := settleRefill_decoderAt hS (Nat.zero_le _)
    (s := { (s.setDsrc S true).clearDecFault with decRun := true }) hl rfl DecCtx.HoldsBits.empty (Nat.zero_le _)
  refine ⟨t, ?_, hat, hq⟩
  have hinit : attemptDecInit (s.setDsrc S true) = .done t := by
    exact (if_neg (Nat.not_lt.mpr hl)).trans ht
  rw [exec, execDecInit, hinit, Attempt.outcome]

/-- The run reaches every advance up to the last, with no fault (rules R168, R169). -/
theorem runTo_decoderAt (s : State) {S : List Byte} (hl : S.length ≤ Config.maxSymbols s.cntW) (hS : ValidSequence S) :
    ∀ j, j ≤ 5 * S.length / 8 →
      ∃ t, runTo .decInit .decAdv j (s.setDsrc S true) = .next t ∧ t.DecoderAt S j ∧ t.raised = none := by
  intro j
  induction j with
  | zero => exact fun _ => execDecInit_setDsrc s hl hS
  | succ j ih =>
    intro hj
    obtain ⟨t, ht, hat, -⟩ := ih (Nat.le_of_succ_le hj)
    obtain ⟨u, hu, hau, hq⟩ := hat.execDecAdv hS hj
    exact ⟨u, by rw [runTo, ht, andThen_next, hu], hau, hq⟩

/-- Settles O37: the run stands on its schedule after every advance (`runTo_decoderAt`). -/
theorem decoderContract : Obligations.DecoderContract := by
  intro s S hl hS
  refine ⟨fun j hj => ?_, ?_⟩
  · obtain ⟨t, ht, hat, -⟩ := runTo_decoderAt s hl hS j (Nat.le_of_lt hj)
    have hpos : t.dec.pos = (8 * (j + 1) + 4) / 5 := by
      rw [hat.pulled, decPulled]
      omega
    exact ⟨t, _, ht, hat.execDecCur hj, rfl, rfl, hat.bits.clear, hpos, by omega⟩
  · obtain ⟨t, ht, hat, -⟩ := runTo_decoderAt s hl hS _ (Nat.le_refl _)
    have hpos : t.dec.pos = S.length := by
      rw [hat.pulled, decPulled]
      omega
    have hcnt := hat.bits.count
    rw [hpos] at hcnt
    refine ⟨t, ht, ⟨hat.run, by omega, hat.bits.clear⟩, hpos, ?_, by omega⟩
    rw [hat.source, hpos]

end Sys2Proof.Machine
end

section
/-! What an operation reads and writes of the state is its own unit's part (rules R45, R66), so that operations of different
units commute. -/

namespace Sys2Proof.Machine

/-- The part of a state that belongs to one unit: its registers, its source stream and the model's own fields about its
run. -/
inductive UnitPart where
  | encoder (e : EncCtx) (S : Stream) (run : Bool)
  | decoder (d : DecCtx) (S : Stream) (run : Bool) (free : Nat)
  | validator (v : ValCtx)
  | housekeeping (opErr : Bool)
  | stateless

/-- The part of a unit; the table and the size operations have no registers (rule R20). -/
def State.part (s : State) : BlockUnit → UnitPart
  | .encoder => .encoder s.enc s.esrc s.encRun
  | .decoder => .decoder s.dec s.dsrc s.decRun s.decFree
  | .validator => .validator s.val
  | .housekeeping => .housekeeping s.opErr
  | .alphabet | .length => .stateless

@[simp] theorem State.present_part (s : State) (p : OperandPorts) (u : BlockUnit) : (s.present p).part u = s.part u := by
  cases u <;> rfl

/-- The parts of all units, the width and the caller's side are all that `SameMachine` compares. -/
theorem sameMachine_of_parts {a b : State} (hp : ∀ u, b.part u = a.part u) (hw : b.cntW = a.cntW)
    (hc : b.caller = a.caller) (has : b.arrivals = a.arrivals) : SameMachine a b := by
  have he := hp .encoder
  have hd := hp .decoder
  have hv := hp .validator
  have ho := hp .housekeeping
  cases a
  cases b
  cases he
  cases hd
  cases hv
  cases ho
  cases hw
  cases hc
  cases has
  rfl

/-- An operation leaves the parts of the other units as they are (rule R45). -/
theorem exec_part_of_ne {i : Instr} {s t : State} (h : exec i s = .next t) {u : BlockUnit} (hu : u ≠ i.blockUnit) :
    t.part u = s.part u := by
  rcases exec_changes h with ⟨hi, ht⟩ | ⟨hi, ht⟩ | ⟨hi, ht⟩ | ⟨-, ht⟩ | ⟨rfl, rfl⟩
  · rw [EncOnly, Quiet] at ht
    rw [ht]
    cases u with
    | encoder => exact absurd hi.symm hu
    | _ => rfl
  · rw [DecOnly, Quiet] at ht
    rw [ht]
    cases u with
    | decoder => exact absurd hi.symm hu
    | _ => rfl
  · rw [ValOnly, Quiet] at ht
    rw [ht]
    cases u with
    | validator => exact absurd hi.symm hu
    | _ => rfl
  · rw [Quiet] at ht
    rw [ht]
    cases u <;> rfl
  · cases u with
    | housekeeping => exact absurd rfl hu
    | _ => rfl

/-! ### Attempts in two states that agree on the part of the unit -/

/-- Two attempts end in the same way, and where they complete the two states are related. -/
inductive Attempt.Alike (R : State → State → Prop) : Attempt → Attempt → Prop
  | done {t t' : State} (h : R t t') : Alike R (.done t) (.done t')
  | hold : Alike R .hold .hold
  | fault (f : Fault) : Alike R (.fault f) (.fault f)
  | refuse (r : Refusal) : Alike R (.refuse r) (.refuse r)

theorem Attempt.Alike.ite {R : State → State → Prop} {c : Prop} [Decidable c] {a b a' b' : Attempt}
    (ha : Alike R a a') (hb : Alike R b b') : Alike R (if c then a else b) (if c then a' else b') := by
  split
  · exact ha
  · exact hb

theorem Attempt.Alike.holds_eq {R : State → State → Prop} {a a' : Attempt} (h : Alike R a a') : a'.holds = a.holds := by
  cases h <;> rfl

theorem Attempt.Alike.exists_done {R : State → State → Prop} {a a' : Attempt} {t : State} (h : Alike R a a')
    (ha : a = .done t) : ∃ t', a' = .done t' ∧ R t t' := by
  subst ha
  cases h with
  | done hR => exact ⟨_, rfl, hR⟩

/-- `ENC.INIT` ends alike in two states with the same source. -/
theorem attemptEncInit_alike {R : State → State → Prop} {s s' : State} (hS : s'.esrc = s.esrc) (hw : s'.cntW = s.cntW)
    (hR : ∀ e S, R (State.withEnc { s with encRun := true } e S).finishSilent
      (State.withEnc { s' with encRun := true } e S).finishSilent) :
    Attempt.Alike R (attemptEncInit s) (attemptEncInit s') := by
  unfold attemptEncInit
  rw [hS, hw]
  refine .ite (.refuse _) ?_
  cases s.esrc.head with
  | unknown => exact .hold
  | unit b => exact .done (hR { acc := b.setWidth 16, cnt := 8#4, term := false, err := false, pos := 1 } s.esrc.pop)
  | ended => exact .done (hR { acc := 0#16, cnt := 0#4, term := false, err := false, pos := 0 } s.esrc)

/-- `ENC.ADV` ends alike in two states with the same encoder, source and run. -/
theorem attemptEncAdv_alike {R : State → State → Prop} {s s' : State} (hp : s'.part .encoder = s.part .encoder)
    (hw : s'.cntW = s.cntW) (hraise : R (s.raise .encSeq) (s'.raise .encSeq))
    (hR : ∀ e S, R (s.withEnc e S).finishSilent (s'.withEnc e S).finishSilent) :
    Attempt.Alike R (attemptEncAdv s) (attemptEncAdv s') := by
  obtain ⟨he, hS, hr⟩ := UnitPart.encoder.inj hp
  have hstop : s'.encSourceStop = s.encSourceStop := by rw [State.encSourceStop, State.encSourceStop, he, hS, hr, hw]
  unfold attemptEncAdv attemptEncRefill
  rw [hstop, he, hS]
  refine .ite (.done hraise) (.ite (.fault _) (.ite (.done (hR _ _)) ?_))
  cases s.encSourceStop with
  | some r => exact .refuse r
  | none =>
    cases s.esrc.head with
    | unknown => exact .hold
    | unit b => exact .done (hR _ _)
    | ended => exact .ite (.done (hR _ _)) (.done (hR _ _))

/-- Two states after the same operation: the same part of its unit, and the same fault event. -/
def SameStep (u : BlockUnit) (t t' : State) : Prop := t'.part u = t.part u ∧ t'.raised = t.raised

theorem attemptEncInit_sameStep {s s' : State} (hp : s'.part .encoder = s.part .encoder) (hw : s'.cntW = s.cntW) :
    Attempt.Alike (SameStep .encoder) (attemptEncInit s) (attemptEncInit s') := by
  obtain ⟨-, hS, -⟩ := UnitPart.encoder.inj hp
  exact attemptEncInit_alike hS hw fun _ _ => ⟨rfl, rfl⟩

theorem raise_encSeq_sameStep {s s' : State} (hp : s'.part .encoder = s.part .encoder) :
    SameStep .encoder (s.raise .encSeq) (s'.raise .encSeq) := by
  obtain ⟨he, hS, hr⟩ := UnitPart.encoder.inj hp
  exact ⟨by simp [State.part, State.recordFault, he, hS, hr], rfl⟩

theorem attemptEncAdv_sameStep {s s' : State} (hp : s'.part .encoder = s.part .encoder) (hw : s'.cntW = s.cntW) :
    Attempt.Alike (SameStep .encoder) (attemptEncAdv s) (attemptEncAdv s') := by
  obtain ⟨-, -, hr⟩ := UnitPart.encoder.inj hp
  exact attemptEncAdv_alike hp hw (raise_encSeq_sameStep hp) fun e S => ⟨congrArg (UnitPart.encoder e S) hr, rfl⟩

theorem raise_decSeq_sameStep {s s' : State} (hp : s'.part .decoder = s.part .decoder) :
    SameStep .decoder (s.raise .decSeq) (s'.raise .decSeq) := by
  obtain ⟨hd, hS, hr, hf⟩ := UnitPart.decoder.inj hp
  exact ⟨by simp [State.part, State.recordFault, hd, hS, hr, hf], rfl⟩

theorem settleRefill_sameStep {s s' : State} (hr : s'.decRun = s.decRun) (hf : s'.decFree = s.decFree) (R : Refill) :
    Attempt.Alike (SameStep .decoder) (settleRefill s R) (settleRefill s' R) := by
  cases R with
  | hold => exact .hold
  | settled d S => exact .done ⟨congrArg₂ (UnitPart.decoder d S) hr hf, rfl⟩
  | lengthFault d S => exact .done ⟨congrArg₂ (UnitPart.decoder _ S) hr hf, rfl⟩
  | symbolFault d S => exact .done ⟨by simp [State.part, State.recordFault, hr, hf], rfl⟩

theorem attemptDecInit_sameStep {s s' : State} (hp : s'.part .decoder = s.part .decoder) (hw : s'.cntW = s.cntW) :
    Attempt.Alike (SameStep .decoder) (attemptDecInit s) (attemptDecInit s') := by
  obtain ⟨-, hS, -, hf⟩ := UnitPart.decoder.inj hp
  unfold attemptDecInit
  rw [hS, hw]
  exact .ite (.refuse _) (settleRefill_sameStep (s := { s.clearDecFault with decRun := true })
    (s' := { s'.clearDecFault with decRun := true }) rfl hf _)

theorem attemptDecAdv_sameStep {s s' : State} (hp : s'.part .decoder = s.part .decoder) (hw : s'.cntW = s.cntW) :
    Attempt.Alike (SameStep .decoder) (attemptDecAdv s) (attemptDecAdv s') := by
  obtain ⟨hd, hS, hr, hf⟩ := UnitPart.decoder.inj hp
  have hstop : s'.decSourceStop = s.decSourceStop := by rw [State.decSourceStop, State.decSourceStop, hd, hS, hr, hw]
  have hscramble : SameStep .decoder s.scrambleDec.finishSilent s'.scrambleDec.finishSilent :=
    ⟨by simp [State.part, State.finishSilent, State.scrambleDec, hd, hS, hr, hf, hw], rfl⟩
  unfold attemptDecAdv
  rw [hstop, hd, hS]
  refine .ite (.done hscramble) (.ite (.done (raise_decSeq_sameStep hp)) ?_)
  cases s.decSourceStop with
  | some r => exact .refuse r
  | none => exact settleRefill_sameStep hr hf _

/-! ### Operations in two states that agree on the part of the unit -/

/-- Whether an operation holds is decided by its own unit's part (rule R56). -/
theorem holds_of_part {i : Instr} {s s' : State} (hp : s'.part i.blockUnit = s.part i.blockUnit) (hw : s'.cntW = s.cntW) :
    holds i s' = holds i s := by
  cases i with
  | encInit => exact (attemptEncInit_sameStep hp hw).holds_eq
  | encAdv => exact (attemptEncAdv_sameStep hp hw).holds_eq
  | decInit => exact (attemptDecInit_sameStep hp hw).holds_eq
  | decAdv => exact (attemptDecAdv_sameStep hp hw).holds_eq
  | _ => rfl

theorem drivesIn_of_part {i : Instr} {s s' : State} (hp : s'.part i.blockUnit = s.part i.blockUnit) :
    DrivesIn i s' ↔ DrivesIn i s := by
  cases i with
  | encCur =>
    obtain ⟨he, -⟩ := UnitPart.encoder.inj hp
    rw [DrivesIn, he, DrivesIn]
  | decCur =>
    obtain ⟨hd, -⟩ := UnitPart.decoder.inj hp
    rw [DrivesIn, hd, DrivesIn]
  | _ => exact Iff.rfl

/-- The same operation from two states, of which the first is `s`: the same part of its unit, the same fault event, and
the same results where it drives any. -/
def SameEffect (i : Instr) (s t t' : State) : Prop :=
  SameStep i.blockUnit t t' ∧ (DrivesIn i s → SameResults i t.out t'.out)

/-- An attempt that does not hold, of an operation that drives no result port, completes alike in a state that agrees on
the part of its unit. -/
theorem exists_outcome_of_alike {i : Instr} {a a' : Attempt} {s s' t : State}
    (h : Attempt.Alike (SameStep i.blockUnit) a a') (hh : a.holds = false) (hres : ∀ r r', SameResults i r r')
    (hx : a.outcome s = .next t) : ∃ t', a'.outcome s' = .next t' ∧ SameEffect i s t t' := by
  obtain ⟨t', ha', hR⟩ := h.exists_done (Attempt.done_of_not_holds hx hh)
  exact ⟨t', by rw [ha', Attempt.outcome], hR, fun _ => hres _ _⟩

theorem execEncCur_of_part {s s' t : State} (hp : s'.part .encoder = s.part .encoder) (h : execEncCur s = .next t) :
    ∃ t', execEncCur s' = .next t' ∧ SameEffect .encCur s t t' := by
  obtain ⟨he, -⟩ := UnitPart.encoder.inj hp
  obtain ⟨hc, rfl⟩ | ⟨hc, rfl⟩ := execEncCur_next h
  · exact ⟨s'.raise .encSeq, by rw [execEncCur, he, if_pos hc], raise_encSeq_sameStep hp,
      fun hdr => absurd ((cnt_eq_zero_iff _).mpr hc) hdr⟩
  · refine ⟨s'.driveUnit (memReadFwd s.enc.current), ?_, ⟨hp, rfl⟩, fun _ => rfl⟩
    rw [execEncCur, he, if_neg (by omega), if_neg (by omega)]

theorem execDecCur_of_part {s s' t : State} (hp : s'.part .decoder = s.part .decoder) (h : execDecCur s = .next t) :
    ∃ t', execDecCur s' = .next t' ∧ SameEffect .decCur s t t' := by
  obtain ⟨hd, -⟩ := UnitPart.decoder.inj hp
  obtain ⟨he, rfl⟩ | ⟨he, hc, rfl⟩ | ⟨he, hc, rfl⟩ := execDecCur_next h
  · exact ⟨s'.finishSilent, by rw [execDecCur, hd, if_pos he], ⟨hp, rfl⟩, fun hdr => absurd hdr.1 he⟩
  · exact ⟨s'.raise .decSeq, by rw [execDecCur, hd, if_neg (not_not.mpr he), if_pos hc], raise_decSeq_sameStep hp,
      fun hdr => absurd hdr.2 (Nat.not_le.mpr hc)⟩
  · refine ⟨s'.driveUnit s.dec.current, ?_, ⟨hp, rfl⟩, fun _ => rfl⟩
    rw [execDecCur, hd, if_neg (not_not.mpr he), if_neg (Nat.not_lt.mpr hc)]

/-- What an operation does is decided by its own unit's part, the width and the operand ports; `STATUS.RD` alone reads
several parts (rule R181). -/
theorem exec_of_part {i : Instr} {s s' t : State} (hi : i ≠ .statusRd) (hp : s'.part i.blockUnit = s.part i.blockUnit)
    (hw : s'.cntW = s.cntW) (hports : s'.ports = s.ports) (hh : holds i s = false) (h : exec i s = .next t) :
    ∃ t', exec i s' = .next t' ∧ SameEffect i s t t' := by
  cases i with
  | statusRd => exact absurd rfl hi
  | encInit => exact exists_outcome_of_alike (attemptEncInit_sameStep hp hw) hh (fun _ _ => trivial) h
  | encAdv => exact exists_outcome_of_alike (attemptEncAdv_sameStep hp hw) hh (fun _ _ => trivial) h
  | decInit => exact exists_outcome_of_alike (attemptDecInit_sameStep hp hw) hh (fun _ _ => trivial) h
  | decAdv => exact exists_outcome_of_alike (attemptDecAdv_sameStep hp hw) hh (fun _ _ => trivial) h
  | encCur => exact execEncCur_of_part hp h
  | decCur => exact execDecCur_of_part hp h
  | idle => cases h; exact ⟨_, rfl, ⟨hp, rfl⟩, fun _ => trivial⟩
  | reserved => cases h; exact ⟨_, rfl, ⟨rfl, rfl⟩, fun _ => trivial⟩
  | lutFwd => cases h; exact ⟨_, rfl, ⟨rfl, rfl⟩, fun _ => congrArg memReadFwd (congrArg OperandPorts.valIn hports.symm)⟩
  | lutInv =>
    cases h
    have hentry : memReadInv s.unitIn = memReadInv s'.unitIn := by rw [State.unitIn, State.unitIn, hports]
    exact ⟨_, rfl, ⟨rfl, rfl⟩, fun _ => ⟨congrArg entryValue hentry, congrArg entryValid hentry⟩⟩
  | lenEnc => cases h; exact ⟨_, rfl, ⟨rfl, rfl⟩, fun _ => congrArg encodedLength (congrArg OperandPorts.bcntIn hports.symm)⟩
  | lenDec =>
    cases h
    have hlen : decodedLength s.scntIn = decodedLength s'.scntIn := by rw [State.scntIn, State.scntIn, hports]
    exact ⟨_, rfl, ⟨rfl, rfl⟩, fun _ => ⟨congrArg Prod.fst hlen, congrArg Prod.snd hlen⟩⟩
  | valInit => cases h; exact ⟨_, rfl, ⟨rfl, rfl⟩, fun _ => trivial⟩
  | valPush =>
    cases h
    refine ⟨_, rfl, ⟨?_, rfl⟩, fun _ => trivial⟩
    rw [Instr.blockUnit, State.part, State.part] at hp
    simp [State.part, Instr.blockUnit, State.finishSilent, State.unitIn, UnitPart.validator.inj hp, hports]
  | valRes =>
    cases h
    exact ⟨_, rfl, ⟨hp, rfl⟩, fun _ => congrArg ValCtx.verdict (UnitPart.validator.inj hp).symm⟩

/-- What an operation with operands on the ports leaves as it was: the other units' parts, the width and the caller's
side. -/
theorem exec_present_frame {i : Instr} {s t : State} {p : OperandPorts} (h : exec i (s.present p) = .next t) :
    (∀ u, u ≠ i.blockUnit → t.part u = s.part u) ∧ t.cntW = s.cntW ∧ t.caller = s.caller ∧ t.arrivals = s.arrivals := by
  obtain ⟨-, -, -, -, -, -, hw, -, hc, has⟩ := unitsShareNoMutableState i _ t h
  exact ⟨fun u hu => (exec_part_of_ne h hu).trans (s.present_part p u), hw, hc, has⟩

/-- Settles O49: each operation finds its own unit's part as it was, whichever comes first (`exec_present_frame`,
`exec_of_part`). -/
theorem operationsOfDifferentUnitsCommute : Obligations.OperationsOfDifferentUnitsCommute := by
  intro i j s a b p q hu hi hj hhi hhj ha hb
  obtain ⟨hpa, hwa, hca, haa⟩ := exec_present_frame ha
  obtain ⟨hpb, hwb, hcb, hab⟩ := exec_present_frame hb
  have hsj : (s.present q).part j.blockUnit = (a.present q).part j.blockUnit := by simp [hpa _ (Ne.symm hu)]
  have hholds : holds j (a.present q) = false := by rw [← holds_of_part hsj hwa.symm, hhj]
  obtain ⟨c, hc, ⟨hjc, hrc⟩, hres⟩ := exec_of_part hj hsj hwa.symm rfl hholds hb
  obtain ⟨hpc, hwc, hcc, hac⟩ := exec_present_frame hc
  have hsi : (c.present p).part i.blockUnit = (s.present p).part i.blockUnit := by simp [hpc _ hu]
  obtain ⟨d, hd, ⟨hid, hrd⟩, hres'⟩ := exec_of_part hi hsi hwc rfl hhi ha
  obtain ⟨hpd, hwd, hcd, had⟩ := exec_present_frame hd
  have hparts : ∀ u, d.part u = b.part u := by
    intro u
    by_cases hui : u = i.blockUnit
    · rw [hui, hid, hpb _ hu]
    · rw [hpd u hui]
      by_cases huj : u = j.blockUnit
      · rw [huj, hjc]
      · rw [hpc u huj, hpb u huj, hpa u hui]
  exact ⟨c, d, hc, hd,
    sameMachine_of_parts hparts (by rw [hwd, hwc, hwb, hwa]) (by rw [hcd, hcc, hcb, hca]) (by rw [had, hac, hab, haa]),
    hrd.symm, hrc.symm, hres', fun hdr => hres ((drivesIn_of_part hsj).mp hdr)⟩

end Sys2Proof.Machine
end

section
/-! The streams: holds, what the caller does to them, stores below the read position, and how far an operation reads
(rules R53, R56, R62, R70). -/

namespace Sys2Proof.Machine

/-! ### Holds (rule R56) -/

theorem exec_of_holds {i : Instr} {s : State} (h : holds i s = true) : exec i s = .next s := by
  cases i with
  | encInit => rw [exec, execEncInit, (Attempt.holds_iff _).mp h, Attempt.outcome]
  | encAdv => rw [exec, execEncAdv, (Attempt.holds_iff _).mp h, Attempt.outcome]
  | decInit => rw [exec, execDecInit, (Attempt.holds_iff _).mp h, Attempt.outcome]
  | decAdv => rw [exec, execDecAdv, (Attempt.holds_iff _).mp h, Attempt.outcome]
  | _ => cases h

theorem not_ended_of_decRefill_hold {n : Nat} {d : DecCtx} {S : Stream} (h : decRefill n d S = .hold) :
    S.ended = false :=
  Bool.eq_false_iff.mpr fun he => decRefill_ne_hold_of_ended n d S he h

/-- An operation that holds is one of the four that read a stream, whose end is not known. -/
theorem source_of_holds {i : Instr} {s : State} (h : holds i s = true) :
    ((i = .encInit ∨ i = .encAdv) ∧ s.esrc.head = .unknown) ∨ ((i = .decInit ∨ i = .decAdv) ∧ s.dsrc.ended = false) := by
  cases i with
  | encInit =>
    obtain ⟨-, hh⟩ := (attemptEncInit_hold_iff s).mp ((Attempt.holds_iff _).mp h)
    exact .inl ⟨.inl rfl, hh⟩
  | encAdv =>
    obtain ⟨-, -, -, hh⟩ := (attemptEncAdv_hold_iff s).mp ((Attempt.holds_iff _).mp h)
    exact .inl ⟨.inr rfl, hh⟩
  | decInit =>
    obtain ⟨-, hR⟩ := (attemptDecInit_hold_iff s).mp ((Attempt.holds_iff _).mp h)
    exact .inr ⟨.inl rfl, not_ended_of_decRefill_hold hR⟩
  | decAdv =>
    obtain ⟨-, -, -, hR⟩ := (attemptDecAdv_hold_iff s).mp ((Attempt.holds_iff _).mp h)
    exact .inr ⟨.inr rfl, not_ended_of_decRefill_hold hR⟩
  | _ => cases h

/-- A store below the read position leaves the run in progress (rule R70). -/
theorem storeDsrc_decRun_of_lt {s : State} {p : Nat} (b : Byte) (h : p < s.dsrc.pos) :
    (s.storeDsrc p b).decRun = s.decRun := by
  simp [State.storeDsrc, Nat.not_le.mpr h]

/-- A store into the part that is still to be read ends the run in progress (rule R227). -/
theorem storeDsrc_decRun_of_le {s : State} {p : Nat} (b : Byte) (h : s.dsrc.pos ≤ p) (hl : p < s.dsrc.units.length) :
    (s.storeDsrc p b).decRun = false := by
  simp [State.storeDsrc, h, hl]

/-- Settles O4: a step of an operation that holds does nothing, or delivers what comes (`deliver_frame`). -/
theorem holdChangesNoRegister : Obligations.HoldChangesNoRegister := by
  refine ⟨fun i s h => exec_of_holds h, fun s x rest hc hw hh => ⟨step_of_hold_nil hc hw hh, ?_⟩,
    fun i s h => source_of_holds h⟩
  intro a as ha hreset
  obtain ⟨he, hd, hv, ho, hout, hraised, hcaller, has, -, -⟩ := deliver_frame { s with arrivals := as } a hreset
  refine ⟨_, step_of_hold_cons hc hw hh ha, hcaller, has, he, hd, hv, ho, hout, hraised, ?_⟩
  rintro p b rfl hp
  exact ⟨rfl, storeDsrc_decRun_of_lt (s := { s with arrivals := as }) b hp⟩

/-! ### What the caller does (rules R53, R70, R227) -/

/-- Settles O56: each of the caller's steps by its definition, the stores by where they meet the read position. -/
theorem callerActionsChangeNoRegister : Obligations.CallerActionsChangeNoRegister := by
  refine fun s rest => ⟨fun B e hc => ?_, fun B e hc => ?_, fun p b hc => ?_⟩
  · exact ⟨_, step_of_caller_cons hc, rfl, rfl, rfl, rfl, rfl, rfl, rfl, rfl, rfl⟩
  · exact ⟨_, step_of_caller_cons hc, rfl, rfl, rfl, rfl, rfl, rfl, rfl, rfl, rfl⟩
  · exact ⟨_, step_of_caller_cons hc, rfl, rfl, rfl, storeDsrc_decRun_of_lt (s := { s with caller := rest }) b,
      storeDsrc_decRun_of_le (s := { s with caller := rest }) b, rfl, rfl, rfl, rfl, rfl⟩

/-! ### How far an operation reads (rule R62) -/

/-- The read position has moved on by `n` units at most. -/
def PullsAtMost (n : Nat) (S S' : Stream) : Prop := S.pos ≤ S'.pos ∧ S'.pos ≤ S.pos + n

theorem PullsAtMost.of_pos_eq {n : Nat} {S S' : Stream} (h : S'.pos = S.pos) : PullsAtMost n S S' := by
  unfold PullsAtMost
  omega

theorem PullsAtMost.pop (S : Stream) : PullsAtMost 1 S S.pop := ⟨Nat.le_succ _, Nat.le_refl _⟩

theorem attemptEncInit_pulls {s t : State} (h : attemptEncInit s = .done t) : PullsAtMost 1 s.esrc t.esrc := by
  obtain ⟨-, ⟨b, -, rfl⟩ | ⟨-, rfl⟩⟩ := attemptEncInit_done h
  · exact .pop _
  · exact .of_pos_eq rfl

/-- `ENC.ADV` pulls one byte at most, and `enc_pos` counts it. -/
theorem attemptEncAdv_pulls {s t : State} (h : attemptEncAdv s = .done t) :
    PullsAtMost 1 s.esrc t.esrc ∧ t.enc.pos + s.esrc.pos = s.enc.pos + t.esrc.pos := by
  obtain ⟨-, rfl⟩ | ⟨c, -, ⟨-, rfl⟩ | ⟨-, -, -, ⟨b, -, rfl⟩ | ⟨-, -, rfl⟩ | ⟨-, -, rfl⟩⟩⟩ := attemptEncAdv_done h
  · exact ⟨.of_pos_eq rfl, rfl⟩
  · exact ⟨.of_pos_eq rfl, rfl⟩
  · exact ⟨.pop _, Nat.add_right_comm _ _ _⟩
  · exact ⟨.of_pos_eq rfl, rfl⟩
  · exact ⟨.of_pos_eq rfl, rfl⟩

/-- A refill pulls two symbols at most, and `dec_pos` counts them, however it ends (rule R163). -/
theorem settleRefill_pulls {s t : State} {d : DecCtx} {S : Stream} (h : settleRefill s (decRefill 2 d S) = .done t) :
    PullsAtMost 2 S t.dsrc ∧ t.dec.pos + S.pos = d.pos + t.dsrc.pos := by
  obtain ⟨d', S', hR, rfl⟩ | ⟨d', S', hR, rfl⟩ | ⟨d', S', hR, rfl⟩ := settleRefill_done h
  · obtain ⟨-, -, -, hl, hu, hpos, -⟩ := decRefill_frame 2 d S d' S' (.inl hR)
    exact ⟨⟨hl, hu⟩, hpos⟩
  · obtain ⟨-, -, -, hl, hu, hpos, -⟩ := decRefill_frame 2 d S d' S' (.inr (.inl hR))
    exact ⟨⟨hl, hu⟩, hpos⟩
  · obtain ⟨-, -, -, hl, hu, hpos, -⟩ := decRefill_frame 2 d S d' S' (.inr (.inr hR))
    exact ⟨⟨hl, hu⟩, hpos⟩

theorem attemptDecInit_pulls {s t : State} (h : attemptDecInit s = .done t) : PullsAtMost 2 s.dsrc t.dsrc :=
  (settleRefill_pulls (attemptDecInit_done h).2).1

/-- `DEC.ADV` pulls two symbols at most, and `dec_pos` counts them, where no fault is recorded. -/
theorem attemptDecAdv_pulls {s t : State} (he : s.dec.err = .clear) (h : attemptDecAdv s = .done t) :
    PullsAtMost 2 s.dsrc t.dsrc ∧ t.dec.pos + s.dsrc.pos = s.dec.pos + t.dsrc.pos := by
  obtain ⟨hne, -⟩ | ⟨-, -, rfl⟩ | ⟨-, -, -, -, hs⟩ := attemptDecAdv_done h
  · exact absurd he hne
  · exact ⟨.of_pos_eq rfl, rfl⟩
  · exact settleRefill_pulls (d := s.dec.discard) hs

theorem exec_encAdv_pulls {s t : State} (h : exec .encAdv s = .next t) :
    PullsAtMost 1 s.esrc t.esrc ∧ t.enc.pos + s.esrc.pos = s.enc.pos + t.esrc.pos :=
  Attempt.of_outcome (P := fun t => PullsAtMost 1 s.esrc t.esrc ∧ t.enc.pos + s.esrc.pos = s.enc.pos + t.esrc.pos)
    ⟨.of_pos_eq rfl, rfl⟩ attemptEncAdv_pulls h

theorem exec_decAdv_pulls {s t : State} (he : s.dec.err = .clear) (h : exec .decAdv s = .next t) :
    PullsAtMost 2 s.dsrc t.dsrc ∧ t.dec.pos + s.dsrc.pos = s.dec.pos + t.dsrc.pos :=
  Attempt.of_outcome (P := fun t => PullsAtMost 2 s.dsrc t.dsrc ∧ t.dec.pos + s.dsrc.pos = s.dec.pos + t.dsrc.pos)
    ⟨.of_pos_eq rfl, rfl⟩ (attemptDecAdv_pulls he) h

/-- Only the two operations of the encoder that read `ESRC` move its read position. -/
theorem exec_esrc_pos {i : Instr} {s t : State} (h : exec i s = .next t) (h1 : i ≠ .encInit) (h2 : i ≠ .encAdv) :
    t.esrc.pos = s.esrc.pos := by
  obtain ⟨henc, -⟩ := unitsShareNoMutableState i s t h
  cases i with
  | encInit => exact absurd rfl h1
  | encAdv => exact absurd rfl h2
  | encCur => obtain ⟨-, rfl⟩ | ⟨-, rfl⟩ := execEncCur_next h <;> rfl
  | _ => rw [(henc nofun).2]

/-- Only the two operations of the decoder that read `DSRC` move its read position. -/
theorem exec_dsrc_pos {i : Instr} {s t : State} (h : exec i s = .next t) (h1 : i ≠ .decInit) (h2 : i ≠ .decAdv) :
    t.dsrc.pos = s.dsrc.pos := by
  obtain ⟨-, hdec, -⟩ := unitsShareNoMutableState i s t h
  cases i with
  | decInit => exact absurd rfl h1
  | decAdv => exact absurd rfl h2
  | decCur => obtain ⟨-, rfl⟩ | ⟨-, -, rfl⟩ | ⟨-, -, rfl⟩ := execDecCur_next h <;> rfl
  | _ => rw [(hdec nofun).2]

theorem exec_esrc_pulls {i : Instr} {s t : State} (h : exec i s = .next t) : PullsAtMost 1 s.esrc t.esrc := by
  by_cases h1 : i = .encInit
  · subst h1
    exact Attempt.of_outcome (P := fun t => PullsAtMost 1 s.esrc t.esrc) (.of_pos_eq rfl) attemptEncInit_pulls h
  · by_cases h2 : i = .encAdv
    · subst h2
      exact (exec_encAdv_pulls h).1
    · exact .of_pos_eq (exec_esrc_pos h h1 h2)

theorem exec_dsrc_pulls {i : Instr} {s t : State} (h : exec i s = .next t) (he : i = .decInit ∨ s.dec.err = .clear) :
    PullsAtMost 2 s.dsrc t.dsrc := by
  by_cases h1 : i = .decInit
  · subst h1
    exact Attempt.of_outcome (P := fun t => PullsAtMost 2 s.dsrc t.dsrc) (.of_pos_eq rfl) attemptDecInit_pulls h
  · by_cases h2 : i = .decAdv
    · subst h2
      exact (exec_decAdv_pulls (he.resolve_left h1) h).1
    · exact .of_pos_eq (exec_dsrc_pos h h1 h2)

/-- Settles O51, stream by stream: what the four operations pull, and that no other pulls. -/
theorem pullsAreBounded : Obligations.PullsAreBounded := by
  refine fun i s t h => ⟨exec_esrc_pulls h, ?_, exec_esrc_pos h, exec_dsrc_pulls h, ?_, exec_dsrc_pos h⟩
  · rintro rfl
    exact (exec_encAdv_pulls h).2
  · rintro rfl he
    exact (exec_decAdv_pulls he h).2

/-! ### A store below the read position (rule R70) -/

/-- A stream with other units in its storage. -/
def Stream.withUnits (S : Stream) (U : List Byte) : Stream := { S with units := U }

/-- A state with other units in the storage that holds `DSRC`. -/
def State.withDsrcUnits (s : State) (U : List Byte) : State := { s with dsrc := s.dsrc.withUnits U }

/-- A refill that ends with other units in the storage. -/
def Refill.withUnits (U : List Byte) : Refill → Refill
  | .settled d S => .settled d (S.withUnits U)
  | .lengthFault d S => .lengthFault d (S.withUnits U)
  | .symbolFault d S => .symbolFault d (S.withUnits U)
  | .hold => .hold

theorem storeDsrc_eq_withDsrcUnits {s : State} {p : Nat} (b : Byte) (h : p < s.dsrc.pos) :
    s.storeDsrc p b = s.withDsrcUnits (s.dsrc.units.set p b) := by
  simp [State.storeDsrc, State.withDsrcUnits, Stream.withUnits, Nat.not_le.mpr h]

/-- The units `U` have the length of the stream's and are the same from its read position on. -/
def Stream.SameUnread (S : Stream) (U : List Byte) : Prop :=
  U.length = S.units.length ∧ ∀ k, S.pos ≤ k → U[k]? = S.units[k]?

theorem sameUnread_set {S : Stream} {p : Nat} (b : Byte) (h : p < S.pos) : S.SameUnread (S.units.set p b) :=
  ⟨List.length_set, fun _ hk => List.getElem?_set_ne (Nat.ne_of_lt (Nat.lt_of_lt_of_le h hk))⟩

namespace Stream.SameUnread

variable {S : Stream} {U : List Byte}

theorem head_eq (h : S.SameUnread U) : (S.withUnits U).head = S.head := by
  have hk : U[S.pos]? = S.units[S.pos]? := h.2 _ (Nat.le_refl _)
  unfold Stream.head Stream.withUnits
  rw [← hk]

theorem remaining_eq (h : S.SameUnread U) : (S.withUnits U).remaining = S.remaining := by
  simp only [Stream.remaining, Stream.withUnits, h.1]

theorem pop (h : S.SameUnread U) : S.pop.SameUnread U :=
  ⟨h.1, fun k hk => h.2 k (Nat.le_of_succ_le hk)⟩

/-- A refill reads no unit below the read position. -/
theorem decRefill_eq (h : S.SameUnread U) (n : Nat) (d : DecCtx) :
    decRefill n d (S.withUnits U) = (decRefill n d S).withUnits U := by
  induction n generalizing d S with
  | zero => rfl
  | succ n ih =>
    by_cases hc : 8 ≤ d.cnt.toNat
    · rw [decRefill_of_enough _ _ _ hc, decRefill_of_enough _ _ _ hc, Refill.withUnits]
    · have hc' : d.cnt.toNat < 8 := Nat.not_le.mp hc
      cases hh : S.head with
      | unknown => rw [decRefill_of_unknown n hc' hh, decRefill_of_unknown n hc' (h.head_eq.trans hh), Refill.withUnits]
      | ended =>
        rw [decRefill_of_ended n hc' hh, decRefill_of_ended n hc' (h.head_eq.trans hh)]
        split <;> rfl
      | unit u =>
        cases hu : AlphabetUnit u with
        | false =>
          rw [decRefill_of_stranger n hc' hh hu, decRefill_of_stranger n hc' (h.head_eq.trans hh) hu]
          rfl
        | true =>
          rw [decRefill_of_member n hc' hh hu, decRefill_of_member n hc' (h.head_eq.trans hh) hu]
          exact ih h.pop _

end Stream.SameUnread

/-- Two states that differ in the units of `DSRC`'s storage alone. -/
def StoredAs (U : List Byte) (t t' : State) : Prop := t' = t.withDsrcUnits U

theorem outcome_of_storedAs {U : List Byte} {a a' : Attempt} (h : Attempt.Alike (StoredAs U) a a') (s : State) :
    a'.outcome (s.withDsrcUnits U) = mapNext (·.withDsrcUnits U) (a.outcome s) := by
  cases h with
  | done ht =>
    cases ht
    rfl
  | _ => rfl

theorem attemptEncInit_storedAs (s : State) (U : List Byte) :
    Attempt.Alike (StoredAs U) (attemptEncInit s) (attemptEncInit (s.withDsrcUnits U)) :=
  attemptEncInit_alike rfl rfl fun _ _ => rfl

theorem attemptEncAdv_storedAs (s : State) (U : List Byte) :
    Attempt.Alike (StoredAs U) (attemptEncAdv s) (attemptEncAdv (s.withDsrcUnits U)) :=
  attemptEncAdv_alike rfl rfl rfl fun _ _ => rfl

theorem settleRefill_storedAs {S : Stream} {U : List Byte} (h : S.SameUnread U) (s : State) (d : DecCtx) :
    Attempt.Alike (StoredAs U) (settleRefill s (decRefill 2 d S))
      (settleRefill (s.withDsrcUnits U) (decRefill 2 d (S.withUnits U))) := by
  rw [h.decRefill_eq]
  cases decRefill 2 d S with
  | hold => exact .hold
  | _ => exact .done rfl

theorem attemptDecInit_storedAs {s : State} {U : List Byte} (h : s.dsrc.SameUnread U) :
    Attempt.Alike (StoredAs U) (attemptDecInit s) (attemptDecInit (s.withDsrcUnits U)) := by
  have hrem : (s.withDsrcUnits U).dsrc.remaining = s.dsrc.remaining := h.remaining_eq
  unfold attemptDecInit
  rw [hrem]
  exact .ite (.refuse _) (settleRefill_storedAs h { s.clearDecFault with decRun := true } _)

theorem attemptDecAdv_storedAs {s : State} {U : List Byte} (h : s.dsrc.SameUnread U) :
    Attempt.Alike (StoredAs U) (attemptDecAdv s) (attemptDecAdv (s.withDsrcUnits U)) := by
  have hstop : (s.withDsrcUnits U).decSourceStop = s.decSourceStop := by
    have hrem : (s.withDsrcUnits U).dsrc.remaining = s.dsrc.remaining := h.remaining_eq
    rw [State.decSourceStop, hrem]
    rfl
  have hscramble : (s.withDsrcUnits U).scrambleDec = s.scrambleDec.withDsrcUnits U := by
    have hlen : (s.withDsrcUnits U).dsrc.units.length = s.dsrc.units.length := h.1
    rw [State.scrambleDec, hlen]
    rfl
  unfold attemptDecAdv
  rw [hstop, hscramble]
  refine .ite (.done rfl) (.ite (.done rfl) ?_)
  cases s.decSourceStop with
  | some r => exact .refuse r
  | none => exact settleRefill_storedAs h s s.dec.discard

/-- What `DSRC` holds below its read position changes nothing of any operation. -/
theorem exec_withDsrcUnits {s : State} {U : List Byte} (h : s.dsrc.SameUnread U) (i : Instr) :
    exec i (s.withDsrcUnits U) = mapNext (·.withDsrcUnits U) (exec i s) := by
  cases i with
  | encInit => exact outcome_of_storedAs (attemptEncInit_storedAs s U) s
  | encAdv => exact outcome_of_storedAs (attemptEncAdv_storedAs s U) s
  | decInit => exact outcome_of_storedAs (attemptDecInit_storedAs h) s
  | decAdv => exact outcome_of_storedAs (attemptDecAdv_storedAs h) s
  | encCur =>
    simp only [exec, execEncCur, apply_ite (mapNext _)]
    rfl
  | decCur =>
    simp only [exec, execDecCur, apply_ite (mapNext _)]
    rfl
  | _ => rfl

/-- Settles O50: the store leaves what is still to be read as it was. -/
theorem storeBelowTheReadPositionIsInvisible : Obligations.StoreBelowTheReadPositionIsInvisible := by
  intro i s p b hp
  rw [storeDsrc_eq_withDsrcUnits b hp]
  exact exec_withDsrcUnits (sameUnread_set b hp) i

end Sys2Proof.Machine
end

section
/-! The operation map (rules R80, R83), the two tables (rules R86 to R90) and the reserved code (rules R84, R192). -/

namespace Sys2Proof.Machine

/-! ### The operation word -/

theorem encode_decodeWord : ∀ w : OpWord, encode (decodeWord w) = w := by decide

theorem decodeBytes_of_lt {b : Byte} (rest : List Byte) (h : b.toNat < 16) :
    decodeBytes (b :: rest) = .ok (decodeWord (BitVec.ofNat 4 b.toNat), rest) := if_pos h

theorem decodeBytes_of_le {b : Byte} (rest : List Byte) (h : 16 ≤ b.toNat) :
    decodeBytes (b :: rest) = .error .strayBits := if_neg (Nat.not_lt.mpr h)

theorem decodeBytes_encode (i : Instr) (rest : List Byte) :
    decodeBytes ((encode i).setWidth 8 :: rest) = .ok (i, rest) := by
  have hlt : (encode i).toNat < 16 := (encode i).isLt
  have hb : ((encode i).setWidth 8).toNat = (encode i).toNat := BitVec.toNat_setWidth_of_le (by decide)
  rw [decodeBytes_of_lt rest (hb ▸ hlt), hb, BitVec.ofNat_toNat, BitVec.setWidth_eq, decodeWord_encode]

/-- A table's word of four bits or more is read as the operation whose code it carries. -/
theorem decodeTableWord_encode {n : Nat} (hn : 4 ≤ n) (i : Instr) : decodeTableWord n (encode i).toNat = some i := by
  have hlt : (encode i).toNat < 2 ^ 4 := (encode i).isLt
  have hpow : 2 ^ 4 ≤ 2 ^ n := Nat.pow_le_pow_right (by decide) hn
  have hbytes : decodeBytes [BitVec.ofNat 8 (encode i).toNat] = .ok (i, []) := by
    rw [BitVec.ofNat_toNat]
    exact decodeBytes_encode i []
  rw [decodeTableWord, if_neg (by omega), hbytes]

/-- Settles O1: each line by evaluation, and every word is the code of what it decodes to (`encode_decodeWord`). -/
theorem operationMapHasSixteenLines : Obligations.OperationMapHasSixteenLines :=
  ⟨⟨rfl, rfl⟩, ⟨rfl, rfl⟩, ⟨rfl, rfl⟩, ⟨rfl, rfl⟩, ⟨rfl, rfl⟩, ⟨rfl, rfl⟩, ⟨rfl, rfl⟩, ⟨rfl, rfl⟩, ⟨rfl, rfl⟩, ⟨rfl, rfl⟩,
    ⟨rfl, rfl⟩, ⟨rfl, rfl⟩, ⟨rfl, rfl⟩, ⟨rfl, rfl⟩, ⟨rfl, rfl⟩, ⟨rfl, rfl⟩, fun w => ⟨decodeWord w, encode_decodeWord w⟩⟩

/-- Settles O2: the word both ways, then the byte and the table's word that carry it. -/
theorem decodeAndEncodeAgree : Obligations.DecodeAndEncodeAgree :=
  ⟨decodeWord_encode, encode_decodeWord, decodeBytes_encode, fun _ rest h => decodeBytes_of_le rest h,
    fun i => ⟨decodeTableWord_encode (Nat.le_refl 4) i, decodeTableWord_encode (by decide) i⟩⟩

/-! ### The tables -/

/-- Settles O7: the two tables as they were found after reset. -/
theorem tableContents : Obligations.TableContents := ⟨fwdIsTheAlphabet, invIsTheInverse⟩

theorem memReadInv_memReadFwd : ∀ v : SymVal, memReadInv (memReadFwd v) = 1#1 ++ v := by decide

/-- The value field of an entry whose membership bit is set (rule R34). -/
theorem entryValue_of_member (v : SymVal) : entryValue (1#1 ++ v) = v := BitVec.setWidth_append_eq_right

theorem memReadFwd_injective {v w : SymVal} (h : memReadFwd v = memReadFwd w) : v = w := by
  rw [← entryValue_of_member v, ← memReadInv_memReadFwd v, h, memReadInv_memReadFwd w, entryValue_of_member]

theorem memReadFwd_memReadInv (u : Byte) :
    AlphabetUnit u = true → memReadFwd (entryValue (memReadInv u)) = canonicalUnit u :=
  forall_byte_of_nibbles (P := fun u => AlphabetUnit u = true → memReadFwd (entryValue (memReadInv u)) = canonicalUnit u)
    (by decide) u

theorem alphabetUnit_count : ((List.range 256).filter fun n => AlphabetUnit (BitVec.ofNat 8 n)).length = 56 := by
  decide

/-- The two units of value 0 are the cases of `y` (rule R113). -/
theorem alphabetUnit_zero_value_iff (u : Byte) :
    AlphabetUnit u = true ∧ entryValue (memReadInv u) = 0#5 ↔ u = 0x59#8 ∨ u = 0x79#8 :=
  forall_byte_of_nibbles
    (P := fun u => AlphabetUnit u = true ∧ entryValue (memReadInv u) = 0#5 ↔ u = 0x59#8 ∨ u = 0x79#8) (by decide) u

/-- Settles O10: the laws above; a canonical unit determines its value because `INV` gives it back. -/
theorem tablesAreInverse : Obligations.TablesAreInverse :=
  ⟨memReadInv_memReadFwd, memReadFwd_memReadInv, fun _ _ => memReadFwd_injective, alphabetUnit_count,
    alphabetUnit_zero_value_iff⟩

/-! ### The reserved code -/

/-- Settles O45: raising `ILLEGAL_OP` records it in `op_err` alone (`quiet_raise`). -/
theorem reservedCodeRaisesIllegalOp : Obligations.ReservedCodeRaisesIllegalOp :=
  fun s => ⟨_, rfl, rfl, quiet_raise s .illegalOp⟩

end Sys2Proof.Machine
end

section
/-! `TO_BASE32Z` as a whole (rule R101). -/

namespace Sys2Proof.Machine

/-- Settles O26: the loop ends with the encoding, and nothing but the encoder and its source has changed
(`toBase32z_encodes`). -/
theorem toBase32zGivesTheEncoding : Obligations.ToBase32zGivesTheEncoding := by
  intro s B hB
  obtain ⟨t, ht, hat, hframe⟩ := toBase32z_encodes s hB
  refine ⟨t, ht, hat.clear, ?_⟩
  rw [EncOnly, Quiet] at hframe
  rw [hframe]
  exact ⟨rfl, rfl, rfl, rfl⟩

end Sys2Proof.Machine
end

section
/-! What an operation leaves of the other units' parts, as a frame that composes over a sequence of operations (rule
R45). -/

namespace Sys2Proof.Machine

/-- Every unit but `i` has the same part in both states. -/
def SameOtherParts (i : BlockUnit) (s t : State) : Prop := ∀ u, u ≠ i → t.part u = s.part u

namespace SameOtherParts

variable {i : BlockUnit} {s t u : State}

theorem trans (h : SameOtherParts i s t) (h' : SameOtherParts i t u) : SameOtherParts i s u :=
  fun p hp => (h' p hp).trans (h p hp)

theorem of_quiet (h : Quiet s t) : SameOtherParts i s t := by
  rw [Quiet] at h
  rw [h]
  intro p _
  cases p <;> rfl

theorem of_exec {o : Instr} (h : exec o s = .next t) : SameOtherParts o.blockUnit s t :=
  fun _ hp => exec_part_of_ne h hp

theorem of_exec_present {o : Instr} {p : OperandPorts} (h : exec o (s.present p) = .next t) :
    SameOtherParts o.blockUnit s t :=
  (exec_present_frame h).1

theorem encoder (h : SameOtherParts i s t) (hi : i ≠ .encoder) : t.enc = s.enc ∧ t.esrc = s.esrc := by
  obtain ⟨he, hS, -⟩ := UnitPart.encoder.inj (h .encoder hi.symm)
  exact ⟨he, hS⟩

theorem decoder (h : SameOtherParts i s t) (hi : i ≠ .decoder) : t.dec = s.dec ∧ t.dsrc = s.dsrc := by
  obtain ⟨hd, hS, -⟩ := UnitPart.decoder.inj (h .decoder hi.symm)
  exact ⟨hd, hS⟩

theorem validator (h : SameOtherParts i s t) (hi : i ≠ .validator) : t.val = s.val :=
  UnitPart.validator.inj (h .validator hi.symm)

theorem opErr (h : SameOtherParts i s t) (hi : i ≠ .housekeeping) : t.opErr = s.opErr :=
  UnitPart.housekeeping.inj (h .housekeeping hi.symm)

end SameOtherParts

end Sys2Proof.Machine
end

section
/-! `IS_BASE32Z` (rules R103, R131, R132, R133): the validator's context after a sequence of pushes, and the verdict. -/

namespace Sys2Proof.Machine

/-- The validator's context after a push of each unit of `S` (rule R131). -/
def ValCtx.pushed (v : ValCtx) (S : List Byte) : ValCtx :=
  { ok := v.ok && S.all AlphabetUnit, cnt := v.cnt + BitVec.ofNat 3 S.length }

theorem ValCtx.pushed_nil (v : ValCtx) : v.pushed [] = v := by simp [pushed]

theorem ValCtx.pushed_cons (v : ValCtx) (u : Byte) (S : List Byte) :
    ValCtx.pushed { ok := v.ok && AlphabetUnit u, cnt := v.cnt + 1#3 } S = v.pushed (u :: S) := by
  simp [pushed, Bool.and_assoc, BitVec.ofNat_add, BitVec.add_assoc, BitVec.add_comm]

/-- The pushes complete in every state and change nothing but the validator (rule R131). -/
theorem pushAll_completes (S : List Byte) : ∀ s : State,
    ∃ t, pushAll S s = .next t ∧ t.val = s.val.pushed S ∧ SameOtherParts .validator s t := by
  induction S with
  | nil => exact fun s => ⟨s, rfl, s.val.pushed_nil.symm, fun _ _ => rfl⟩
  | cons u S ih =>
    intro s
    obtain ⟨a, ha, hval⟩ : ∃ a, exec .valPush (s.present { s.ports with unitIn := u }) = .next a ∧
        a.val = { ok := s.val.ok && AlphabetUnit u, cnt := s.val.cnt + 1#3 } := ⟨_, rfl, rfl⟩
    obtain ⟨t, ht, hvt, hft⟩ := ih a
    refine ⟨t, by rw [pushAll, ha, andThen_next, ht], ?_, (SameOtherParts.of_exec_present ha).trans hft⟩
    rw [hvt, hval, ValCtx.pushed_cons]

/-- `LenOk` excludes the three lengths modulo 8 that no encoding has (rule R132). -/
theorem lenOk_iff (c : BitVec 3) : lenOk c = true ↔ c.toNat ≠ 1 ∧ c.toNat ≠ 3 ∧ c.toNat ≠ 6 := by
  revert c
  decide

/-- The context after `VAL.INIT` and a push of each unit of `S`. -/
def ValCtx.judged (S : List Byte) : ValCtx := ValCtx.pushed { ok := true, cnt := 0#3 } S

theorem ValCtx.judged_cnt_toNat (S : List Byte) : (ValCtx.judged S).cnt.toNat = S.length % 8 := by
  simp [judged, pushed]

/-- The verdict is that of the two checks on the sequence (rule R133). -/
theorem ValCtx.verdict_judged_iff (S : List Byte) : (ValCtx.judged S).verdict = true ↔ ValidSequence S := by
  rw [verdict, Bool.and_eq_true, lenOk_iff, judged_cnt_toNat, ValidSequence]
  simp [judged, pushed]

/-- `IS_BASE32Z` completes in every state, drives the verdict on the sequence and changes nothing but the validator. -/
theorem isBase32z_verdict (S : List Byte) (s : State) :
    ∃ t, isBase32z S s = .next ((ValCtx.judged S).verdict, t) ∧ t.val = ValCtx.judged S ∧ SameOtherParts .validator s t := by
  obtain ⟨a, ha, hva⟩ : ∃ a, exec .valInit s = .next a ∧ a.val = { ok := true, cnt := 0#3 } := ⟨_, rfl, rfl⟩
  obtain ⟨b, hb, hvb, hfb⟩ := pushAll_completes S a
  rw [hva] at hvb
  obtain ⟨c, hc, hvc, hout⟩ : ∃ c, exec .valRes b = .next c ∧ c.val = b.val ∧ c.out.validOut = b.val.verdict :=
    ⟨_, rfl, rfl, rfl⟩
  refine ⟨c, ?_, hvc.trans hvb, (SameOtherParts.of_exec ha).trans (hfb.trans (.of_exec (o := .valRes) hc))⟩
  rw [isBase32z, ha, andThen_next, hb, andThen_next, hc, andThen_next, hout, hvb]
  rfl

/-- Settles O19: the verdict on the context that the pushes leave (`isBase32z_verdict`) is that of the two checks. -/
theorem validatorContract : Obligations.ValidatorContract := by
  intro S s
  obtain ⟨t, ht, hval, hframe⟩ := isBase32z_verdict S s
  obtain ⟨henc, hesrc⟩ := hframe.encoder nofun
  obtain ⟨hdec, hdsrc⟩ := hframe.decoder nofun
  exact ⟨_, t, ht, ValCtx.verdict_judged_iff S, henc, hdec, hframe.opErr nofun, hesrc, hdsrc,
    hval ▸ ValCtx.judged_cnt_toNat S⟩

end Sys2Proof.Machine
end

section
/-! The loop of `FROM_BASE32Z` over a decoder run on any input (rules R102, R168): the run stands on its schedule
until it faults, and it faults exactly where the input is not valid. -/

namespace Sys2Proof.Machine

/-! ### The decoder's fields of `STATUS` -/

/-- A bit above the last of a concatenation. -/
theorem getLsbD_append_ofBool {w : Nat} (x : BitVec w) (b : Bool) (i : Nat) :
    (x ++ BitVec.ofBool b).getLsbD (i + 1) = x.getLsbD i := by
  rw [BitVec.getLsbD_append, if_neg (by omega), Nat.add_sub_cancel]

theorem status_getLsbD_three (s : State) : s.status.getLsbD 3 = s.dec.done := by
  rw [State.status]
  calc _ = _ := getLsbD_append_ofBool _ _ 2
    _ = _ := getLsbD_append_ofBool _ _ 1
    _ = _ := getLsbD_append_ofBool _ _ 0
    _ = s.dec.done := BitVec.getLsbD_append.trans (by simp)

theorem status_extractLsb'_decErr (s : State) : s.status.extractLsb' 4 2 = s.dec.err.code := by
  refine BitVec.eq_of_getLsbD_eq fun i hi => ?_
  rw [BitVec.getLsbD_extractLsb', decide_eq_true hi, Bool.true_and, Nat.add_comm, State.status]
  calc _ = _ := getLsbD_append_ofBool _ _ (i + 3)
    _ = _ := getLsbD_append_ofBool _ _ (i + 2)
    _ = _ := getLsbD_append_ofBool _ _ (i + 1)
    _ = _ := getLsbD_append_ofBool _ _ i
    _ = s.dec.err.code.getLsbD i := BitVec.getLsbD_append.trans (if_pos hi)

theorem DecErr.code_eq_zero_iff (e : DecErr) : e.code = 0#2 ↔ e = .clear := by
  cases e <;> decide

/-! ### A refill on any input -/

/-- The first `p` units of `S` are alphabet units. -/
def MembersUpTo (S : List Byte) (p : Nat) : Prop := ∀ u ∈ S.take p, AlphabetUnit u = true

theorem MembersUpTo.succ {S : List Byte} {p : Nat} {u : Byte} (h : MembersUpTo S p) (hu : S[p]? = some u)
    (hm : AlphabetUnit u = true) : MembersUpTo S (p + 1) := by
  intro v hv
  rw [List.take_add_one, hu, Option.toList_some, List.mem_append, List.mem_singleton] at hv
  rcases hv with hv | rfl
  · exact h v hv
  · exact hm

/-- A refill that settles has appended the values of alphabet units alone (rule R163). -/
theorem decRefill_settled_members {S : List Byte} {j : Nat} (n : Nat) : ∀ {d d' : DecCtx} {S' : Stream},
    d.HoldsBits S j → MembersUpTo S d.pos →
      decRefill n d { units := S, pos := d.pos, ended := true } = .settled d' S' →
      d'.HoldsBits S j ∧ MembersUpTo S d'.pos := by
  induction n with
  | zero =>
    intro d d' S' hd hm h
    cases h
    exact ⟨hd, hm⟩
  | succ n ih =>
    intro d d' S' hd hm h
    by_cases hc : 8 ≤ d.cnt.toNat
    · rw [decRefill_of_enough _ _ _ hc] at h
      cases h
      exact ⟨hd, hm⟩
    · have hc' : d.cnt.toNat < 8 := Nat.not_le.mp hc
      cases hh : Stream.head { units := S, pos := d.pos, ended := true } with
      | unknown => rw [decRefill_of_unknown n hc' hh] at h; cases h
      | ended =>
        rw [decRefill_of_ended n hc' hh] at h
        split at h
        · cases h
        · cases h
          exact ⟨hd, hm⟩
      | unit u =>
        cases hu : AlphabetUnit u with
        | false => rw [decRefill_of_stranger n hc' hh hu] at h; cases h
        | true =>
          have hget : S.getD d.pos 0x79#8 = u := (Stream.getD_of_head_unit hh _).2
          have hpull := hd.pull hc'
          rw [hget] at hpull
          rw [decRefill_of_member n hc' hh hu] at h
          exact ih hpull (hm.succ ((Stream.head_eq_unit_iff _ u).mp hh) hu) h

/-- Where a decoder run over any `S` stands after `j` advances that raised no fault: on the schedule, every unit pulled
an alphabet unit, and fewer than five bits held where it is exhausted (rules R64, R163). -/
structure State.UnfaultedAt (S : List Byte) (j : Nat) (t : State) : Prop extends State.DecoderAt S j t where
  members : MembersUpTo S t.dec.pos
  padding : t.dec.cnt.toNat < 8 → t.dec.cnt.toNat < 5

/-- A decoder run over any `S` after `j` advances: it goes on, or it is faulted and `S` is not valid (rule R169). -/
def State.RunsOrFaulted (S : List Byte) (j : Nat) (t : State) : Prop :=
  t.UnfaultedAt S j ∨ (t.dec.err ≠ .clear ∧ ¬ ValidSequence S)

/-- A refill that settles leaves the run on its schedule: with eight bits, or with all symbols pulled (rule R163). -/
theorem unfaultedAt_of_settled {S : List Byte} {j : Nat} {s : State} {d d' : DecCtx} {S' : Stream}
    (hl : S.length ≤ Config.maxSymbols s.cntW) (hr : s.decRun = true) (hd : d.HoldsBits S j) (hm : MembersUpTo S d.pos)
    (hpos : d.pos ≤ S.length) (hc : d.cnt.toNat ≤ 12)
    (hR : decRefill 2 d { units := S, pos := d.pos, ended := true } = .settled d' S') :
    ((s.withDec d' S').finishSilent).UnfaultedAt S j := by
  obtain ⟨hd', hm'⟩ := decRefill_settled_members 2 hd hm hR
  obtain ⟨⟨hrange, -⟩, hend⟩ := decRefill_settled 2 hc (by omega) hd.acc_lt hR
  obtain ⟨-, hunits, hended, -, -, hmove, hle⟩ := decRefill_frame 2 _ _ _ _ (.inl hR)
  have hpos' : S'.pos = d'.pos := by
    simp only at hmove
    omega
  have hsrc : S' = { units := S, pos := d'.pos, ended := true } := by
    rw [← hpos']
    cases S'
    cases hunits
    cases hended
    rfl
  have hle' : d'.pos ≤ S.length := hpos' ▸ hle hpos
  have hall : d'.cnt.toNat < 8 → S.length ≤ d'.pos := by
    intro h8
    have hh := hend h8
    rw [hsrc] at hh
    exact List.getElem?_eq_none_iff.mp ((Stream.head_eq_ended_iff _).mp hh).1
  have hcount := hd'.count
  have hpulled : d'.pos = decPulled S.length j := by
    rw [decPulled]
    omega
  exact
    { admitted := hl, run := hr, source := hsrc, pulled := hpulled, bits := hd', members := hm'
      padding := fun (h8 : d'.cnt.toNat < 8) => show d'.cnt.toNat < 5 by omega }

/-- A refill in a run on any input completes, and it faults only on input that is not valid. -/
theorem settleRefill_runsOrFaulted {S : List Byte} {j : Nat} (hj : j ≤ 5 * S.length / 8) {s : State} {d : DecCtx}
    (hl : S.length ≤ Config.maxSymbols s.cntW) (hr : s.decRun = true) (hd : d.HoldsBits S j) (hm : MembersUpTo S d.pos)
    (hpos : d.pos ≤ decPulled S.length j) (hc : d.cnt.toNat ≤ 12) :
    ∃ t, settleRefill s (decRefill 2 d { units := S, pos := d.pos, ended := true }) = .done t ∧ t.RunsOrFaulted S j := by
  have hfault : ∀ {t : State}, settleRefill s (decRefill 2 d { units := S, pos := d.pos, ended := true }) = .done t →
      t.dec.err ≠ .clear → t.RunsOrFaulted S j := by
    refine fun ht he => .inr ⟨he, fun hS => ?_⟩
    obtain ⟨t', ht', hat, -⟩ := settleRefill_decoderAt hS hj hl hr hd hpos
    rw [ht] at ht'
    cases ht'
    exact he hat.bits.clear
  cases hR : decRefill 2 d { units := S, pos := d.pos, ended := true } with
  | settled d' S' =>
    exact ⟨_, rfl, .inl (unfaultedAt_of_settled hl hr hd hm (le_trans hpos (min_le_left _ _)) hc hR)⟩
  | lengthFault d' S' => exact ⟨_, rfl, hfault (by rw [hR]; rfl) (record_ne_clear nofun)⟩
  | symbolFault d' S' => exact ⟨_, rfl, hfault (by rw [hR]; rfl) (record_ne_clear nofun)⟩
  | hold => exact absurd hR (decRefill_ne_hold_of_ended 2 _ _ rfl)

/-- `DEC.INIT` over a source that is set begins the run, whatever the source holds (rule R160). -/
theorem execDecInit_runsOrFaulted (s : State) {S : List Byte} (hl : S.length ≤ Config.maxSymbols s.cntW) :
    ∃ t, exec .decInit (s.setDsrc S true) = .next t ∧ t.RunsOrFaulted S 0 := by
  obtain ⟨t, ht, hat⟩ := settleRefill_runsOrFaulted (Nat.zero_le _)
    (s := { (s.setDsrc S true).clearDecFault with decRun := true }) hl rfl DecCtx.HoldsBits.empty nofun (Nat.zero_le _)
    (by decide)
  refine ⟨t, ?_, hat⟩
  have hinit : attemptDecInit (s.setDsrc S true) = .done t := (if_neg (Nat.not_lt.mpr hl)).trans ht
  rw [exec, execDecInit, hinit, Attempt.outcome]

/-- In a run that is not exhausted `DEC.ADV` is the discard and the refill (rule R162). -/
theorem State.DecoderAt.execDecAdv_eq {S : List Byte} {j : Nat} {t : State} (h : t.DecoderAt S j)
    (hj : j < 5 * S.length / 8) :
    exec .decAdv t =
      (settleRefill t (decRefill 2 t.dec.discard { units := S, pos := t.dec.discard.pos, ended := true })).outcome t := by
  rw [exec, Machine.execDecAdv, attemptDecAdv, if_neg (not_not.mpr h.bits.clear),
    if_neg (Nat.not_lt.mpr (h.eight_le hj)), (decSourceStop_eq_none_iff t).mpr h.ready, h.source]
  rfl

namespace State.UnfaultedAt

variable {S : List Byte} {j : Nat} {t u : State}

theorem of_quiet (h : t.UnfaultedAt S j) (hq : Quiet t u) : u.UnfaultedAt S j := by
  rw [Quiet] at hq
  rw [hq]
  exact { h with }

/-- An advance completes in any run that is not exhausted (rule R162). -/
theorem execDecAdv (h : t.UnfaultedAt S j) (hj : j < 5 * S.length / 8) :
    ∃ u, exec .decAdv t = .next u ∧ u.RunsOrFaulted S (j + 1) := by
  have h8 := h.eight_le hj
  have hlt := t.dec.cnt.isLt
  have hpos : t.dec.discard.pos ≤ decPulled S.length (j + 1) := by
    have hp : t.dec.discard.pos = decPulled S.length j := h.pulled
    rw [hp, decPulled, decPulled]
    omega
  have hcnt : t.dec.discard.cnt.toNat ≤ 12 := by
    rw [discard_cnt_toNat]
    omega
  obtain ⟨u, hu, hat⟩ := settleRefill_runsOrFaulted hj h.admitted h.run (h.bits.discard h8) h.members hpos hcnt
  exact ⟨u, by rw [h.execDecAdv_eq hj, hu, Attempt.outcome], hat⟩

theorem not_holds (h : t.UnfaultedAt S j) : holds .decAdv t = false :=
  Bool.eq_false_iff.mpr fun hh => by
    obtain ⟨-, -, -, hR⟩ := (attemptDecAdv_hold_iff t).mp ((Attempt.holds_iff _).mp hh)
    exact decRefill_ne_hold_of_ended 2 _ _ (by rw [h.source]) hR

/-- `DEC_DONE` reads 1 exactly after the last advance (rule R168). -/
theorem done_iff (h : t.UnfaultedAt S j) : t.dec.done = true ↔ 5 * S.length / 8 ≤ j := by
  have hp := h.pulled
  have hc := h.bits.count
  rw [decPulled] at hp
  rw [DecCtx.done, decide_eq_true_iff]
  omega

/-- One round of the loop reads the next byte (rule R100). -/
theorem decEmit (h : t.UnfaultedAt S j) (hj : j < 5 * S.length / 8) :
    ∃ u, decEmit t = .next (.emitted (decodedByte S j) u) ∧ u.RunsOrFaulted S (j + 1) ∧ SameOtherParts .decoder t u := by
  have hcur := h.execDecCur hj
  have hat := h.of_quiet (quiet_finish t { t.undriven with unitOut := decodedByte S j })
  obtain ⟨u, hu, hau⟩ := hat.execDecAdv hj
  refine ⟨u, ?_, hau, (SameOtherParts.of_exec hcur).trans (.of_exec (o := .decAdv) hu)⟩
  have hh := hat.not_holds
  rw [Machine.decEmit, emit, hcur, andThen_next, State.driveUnit, hh, hu]
  rfl

/-- All symbols are pulled by the last advance (rule R64). -/
theorem pos_at_end (h : t.UnfaultedAt S (5 * S.length / 8)) : t.dec.pos = S.length := by
  rw [h.pulled, decPulled]
  omega

/-- A run that ends with no fault was over a valid sequence (rule R169). -/
theorem validSequence (h : t.UnfaultedAt S (5 * S.length / 8)) : ValidSequence S := by
  have hpos := h.pos_at_end
  have hm := h.members
  have hpad := h.padding
  have hc := h.bits.count
  rw [hpos] at hc hm
  rw [MembersUpTo, List.take_length] at hm
  exact ⟨hm, by omega, by omega, by omega⟩

end State.UnfaultedAt

/-! ### The loop -/

/-- How the loop ends that begins after `j` advances with `r` to come: finished with the bytes from `j` on, or faulted
with at most as many bytes, over input that is not valid. -/
def DecodeEnd (S : List Byte) (j r : Nat) (e : LoopEnd) (bytes : List Byte) (t : State) : Prop :=
  (e = .finished ∧ bytes = (List.range' j r).map (decodedByte S) ∧ t.UnfaultedAt S (5 * S.length / 8)) ∨
    (e = .faulted ∧ bytes.length ≤ r ∧ t.dec.err ≠ .clear ∧ ¬ ValidSequence S)

theorem DecodeEnd.cons {S : List Byte} {j r : Nat} {e : LoopEnd} {bytes : List Byte} {t : State}
    (h : DecodeEnd S (j + 1) r e bytes t) : DecodeEnd S j (r + 1) e (decodedByte S j :: bytes) t := by
  obtain ⟨he, hb, ht⟩ | ⟨he, hb, ht⟩ := h
  · exact .inl ⟨he, by rw [hb, List.range'_succ, List.map_cons], ht⟩
  · exact .inr ⟨he, Nat.succ_le_succ hb, ht⟩

theorem decodeLoop_of_faulted {t : State} (h : t.dec.err ≠ .clear) (r : Nat) (out : List Byte) :
    decodeLoop (r + 1) out t = .next (.faulted, out, t.driveStatus t.status) := by
  have hcode : t.status.extractLsb' 4 2 ≠ 0#2 := by
    rw [status_extractLsb'_decErr, Ne, DecErr.code_eq_zero_iff]
    exact h
  rw [decodeLoop, exec, execStatusRd, andThen_next]
  exact if_pos hcode

/-- A faulted run ends the loop at once. -/
theorem decodeLoop_ends_of_faulted {S : List Byte} {t : State} (he : t.dec.err ≠ .clear) (hS : ¬ ValidSequence S)
    (j r : Nat) (out : List Byte) :
    ∃ e bytes u, decodeLoop (r + 1) out t = .next (e, out ++ bytes, u) ∧ DecodeEnd S j r e bytes u ∧
      SameOtherParts .decoder t u := by
  refine ⟨.faulted, [], t.driveStatus t.status, ?_, .inr ⟨rfl, Nat.zero_le r, he, hS⟩, .of_quiet (quiet_finish t _)⟩
  rw [decodeLoop_of_faulted he, List.append_nil]

theorem status_decErr_of_clear {t : State} (h : t.dec.err = .clear) : ¬ t.status.extractLsb' 4 2 ≠ 0#2 := by
  rw [status_extractLsb'_decErr, h]
  decide

theorem decodeLoop_of_done {t : State} (h : t.dec.err = .clear) (hd : t.dec.done = true) (r : Nat) (out : List Byte) :
    decodeLoop (r + 1) out t = .next (.finished, out, t.driveStatus t.status) := by
  rw [decodeLoop, exec, execStatusRd, andThen_next]
  exact (if_neg (status_decErr_of_clear h)).trans (if_pos ((status_getLsbD_three t).trans hd))

/-- A round of the loop in a run that goes on: it reads a byte. -/
theorem decodeLoop_of_emitted {t b : State} {u : Byte} (h : t.dec.err = .clear) (hd : ¬ t.dec.done = true)
    (he : decEmit (t.driveStatus t.status) = .next (.emitted u b)) (r : Nat) (out : List Byte) :
    decodeLoop (r + 1) out t = decodeLoop r (out ++ [u]) b := by
  rw [decodeLoop, exec, execStatusRd, andThen_next]
  refine (if_neg (status_decErr_of_clear h)).trans ((if_neg ((status_getLsbD_three t).symm ▸ hd)).trans ?_)
  rw [he, andThen_next]

/-- The loop ends on any input, with a byte for each advance of the run (rule R168). -/
theorem decodeLoop_ends {S : List Byte} (r : Nat) : ∀ {j : Nat} {t : State} (out : List Byte),
    t.RunsOrFaulted S j → j + r = 5 * S.length / 8 →
      ∃ e bytes u, decodeLoop (r + 1) out t = .next (e, out ++ bytes, u) ∧ DecodeEnd S j r e bytes u ∧
        SameOtherParts .decoder t u := by
  induction r with
  | zero =>
    rintro j t out (h | ⟨he, hS⟩) hj
    · refine ⟨.finished, [], t.driveStatus t.status, ?_, .inl ⟨rfl, rfl, ?_⟩, .of_quiet (quiet_finish t _)⟩
      · rw [decodeLoop_of_done h.bits.clear (h.done_iff.mpr (by omega)), List.append_nil]
      · exact (by omega : j = 5 * S.length / 8) ▸ h.of_quiet (quiet_finish t _)
    · exact decodeLoop_ends_of_faulted he hS j 0 out
  | succ r ih =>
    rintro j t out (h | ⟨he, hS⟩) hj
    · have hat : (t.driveStatus t.status).UnfaultedAt S j := h.of_quiet (quiet_finish t _)
      obtain ⟨u, hu, hau, hfu⟩ := hat.decEmit (by omega)
      obtain ⟨e, bytes, w, hw, hend, hfw⟩ := ih (out ++ [decodedByte S j]) hau (by omega)
      refine ⟨e, decodedByte S j :: bytes, w, ?_, hend.cons,
        (SameOtherParts.of_quiet (quiet_finish t _)).trans (hfu.trans hfw)⟩
      have hdone : ¬ t.dec.done = true := fun hd => by
        have hend := h.done_iff.mp hd
        omega
      rw [decodeLoop_of_emitted h.bits.clear hdone hu, hw, List.append_assoc, List.singleton_append]
    · exact decodeLoop_ends_of_faulted he hS j (r + 1) out

/-- `FROM_BASE32Z(S)` ends on any input (rules R102, R168), and changes nothing but the decoder. -/
theorem fromBase32z_ends (s : State) {S : List Byte} (hl : S.length ≤ Config.maxSymbols s.cntW) :
    ∃ e bytes t, fromBase32z S s = .next (e, bytes, t) ∧ DecodeEnd S 0 (5 * S.length / 8) e bytes t ∧
      SameOtherParts .decoder s t := by
  obtain ⟨a, ha, hat⟩ := execDecInit_runsOrFaulted s hl
  obtain ⟨e, bytes, t, ht, hend, hft⟩ := decodeLoop_ends (5 * S.length / 8) [] hat (Nat.zero_add _)
  have hset : SameOtherParts .decoder s (s.setDsrc S true) := fun u hu => by
    cases u with
    | decoder => exact absurd rfl hu
    | _ => rfl
  refine ⟨e, bytes, t, ?_, hend, hset.trans ((SameOtherParts.of_exec ha).trans hft)⟩
  rw [fromBase32z, ha, andThen_next, ht]
  rfl

/-- Settles O39: the loop ends in one of two ways (`fromBase32z_ends`), and its input is valid in the first alone
(`State.UnfaultedAt.validSequence`). -/
theorem fromBase32zGivesTheDecoding : Obligations.FromBase32zGivesTheDecoding := by
  intro s S hl
  obtain ⟨e, bytes, t, ht, hend, hframe⟩ := fromBase32z_ends s hl
  obtain ⟨henc, hesrc⟩ := hframe.encoder nofun
  refine ⟨e, bytes, t, ht, ?_, ?_, henc, hframe.validator nofun, hframe.opErr nofun, hesrc⟩
  · intro hS
    obtain ⟨he, hb, hat⟩ | ⟨-, -, -, hn⟩ := hend
    · have hdone := hat.done_iff.mpr (Nat.le_refl _)
      rw [DecCtx.done, decide_eq_true_iff] at hdone
      refine ⟨he, ?_, ?_, hat.bits.clear, hdone, hat.pos_at_end⟩
      · rw [hb, decodedSequence, List.range_eq_range']
      · rw [hb, List.length_map, List.length_range']
    · exact absurd hS hn
  · intro hn
    obtain ⟨-, -, hat⟩ | ⟨he, hb, herr, -⟩ := hend
    · exact absurd hat.validSequence hn
    · exact ⟨he, hb, herr⟩

end Sys2Proof.Machine
end

section
/-! The two table operations (rules R110 to R112). -/

namespace Sys2Proof.Machine

/-! ### What the operations drive -/

theorem exec_lutFwd (s : State) : exec .lutFwd s = .next (s.driveUnit (memReadFwd s.ports.valIn)) := rfl

theorem exec_lutInv (s : State) :
    exec .lutInv s =
      .next (s.driveValue (entryValue (memReadInv s.ports.unitIn)) (AlphabetUnit s.ports.unitIn)) := rfl

theorem quiet_driveUnit (s : State) (u : Byte) : Quiet s (s.driveUnit u) := quiet_finish s _

theorem quiet_driveValue (s : State) (v : SymVal) (valid : Bool) : Quiet s (s.driveValue v valid) := quiet_finish s _

@[simp] theorem State.driveUnit_raised (s : State) (u : Byte) : (s.driveUnit u).raised = none := rfl

@[simp] theorem State.driveUnit_unitOut (s : State) (u : Byte) : (s.driveUnit u).out.unitOut = u := rfl

@[simp] theorem State.driveValue_raised (s : State) (v : SymVal) (valid : Bool) :
    (s.driveValue v valid).raised = none := rfl

@[simp] theorem State.driveValue_valOut (s : State) (v : SymVal) (valid : Bool) :
    (s.driveValue v valid).out.valOut = v := rfl

@[simp] theorem State.driveValue_validOut (s : State) (v : SymVal) (valid : Bool) :
    (s.driveValue v valid).out.validOut = valid := rfl

/-! ### The entries they read -/

theorem entryValid_of_member (v : SymVal) : entryValid (1#1 ++ v) = true := by
  rw [entryValid, BitVec.getLsbD_append]
  rfl

theorem entryValue_eq_extractLsb' (e : InvEntry) : entryValue e = e.extractLsb' 0 5 :=
  BitVec.setWidth_eq_extractLsb' (by decide)

/-- Every symbol that `FWD` holds is an alphabet unit. -/
theorem alphabetUnit_memReadFwd (v : SymVal) : AlphabetUnit (memReadFwd v) = true := by
  rw [AlphabetUnit, memReadInv_memReadFwd, entryValid_of_member]

theorem entryValue_memReadInv_memReadFwd (v : SymVal) : entryValue (memReadInv (memReadFwd v)) = v := by
  rw [memReadInv_memReadFwd, entryValue_of_member]

/-- Every symbol that `FWD` holds is in canonical form: `FWD` and `INV` bring it back as it is. -/
theorem canonicalUnit_memReadFwd (v : SymVal) : canonicalUnit (memReadFwd v) = memReadFwd v := by
  rw [← memReadFwd_memReadInv _ (alphabetUnit_memReadFwd v), entryValue_memReadInv_memReadFwd]

/-- An entry is a member's with its value, or zero in both fields (rules R88, R89). -/
theorem memReadInv_cases (u : Byte) : (∃ v : SymVal, memReadInv u = 1#1 ++ v) ∨ memReadInv u = 0#1 ++ 0#5 := by
  rw [invIsTheInverse u]
  split
  · exact .inl ⟨_, rfl⟩
  · exact .inr rfl

theorem entryValue_of_not_alphabetUnit {u : Byte} (h : AlphabetUnit u = false) : entryValue (memReadInv u) = 0#5 := by
  obtain ⟨v, hv⟩ | hzero := memReadInv_cases u
  · rw [AlphabetUnit, hv, entryValid_of_member] at h
    cases h
  · rw [hzero]
    rfl

/-! ### The obligations -/

/-- Settles O8: what `LUT.FWD` drives is a symbol of the table, so an alphabet unit in canonical form. -/
theorem lutFwdGivesTheCanonicalSymbol : Obligations.LutFwdGivesTheCanonicalSymbol :=
  ⟨⟨rfl, rfl, rfl⟩, fun s => ⟨_, exec_lutFwd s, quiet_driveUnit s _, s.driveUnit_raised _, s.driveUnit_unitOut _,
    alphabetUnit_memReadFwd _, canonicalUnit_memReadFwd _⟩⟩

/-- Settles O9: the entry's fields by their definition, and the value of a unit outside the alphabet by rule R89. -/
theorem lutInvGivesValueAndMembership : Obligations.LutInvGivesValueAndMembership :=
  ⟨⟨rfl, rfl, rfl⟩, fun s => ⟨_, exec_lutInv s, quiet_driveValue s _ _, s.driveValue_raised _ _,
    (s.driveValue_valOut _ _).trans (entryValue_eq_extractLsb' _), s.driveValue_validOut _ _,
    entryValue_of_not_alphabetUnit⟩⟩

/-- Settles O11: what each operation drives is what the other reads, and the tables undo each other (rule R90). -/
theorem lutOperationsUndoEachOther : Obligations.LutOperationsUndoEachOther := by
  refine ⟨fun s a b v ha hb => ?_, fun s a b u ha hvalid hb => ?_⟩
  · rw [exec_lutFwd, Host.Outcome.next.injEq] at ha
    rw [exec_lutInv, Host.Outcome.next.injEq] at hb
    subst ha hb
    simp only [State.driveValue_valOut, State.driveValue_validOut, State.driveUnit_unitOut, State.present_ports,
      entryValue_memReadInv_memReadFwd, alphabetUnit_memReadFwd, and_self]
  · rw [exec_lutInv, Host.Outcome.next.injEq] at ha
    rw [exec_lutFwd, Host.Outcome.next.injEq] at hb
    subst ha hb
    simp only [State.driveValue_validOut, State.present_ports] at hvalid
    simp only [State.driveUnit_unitOut, State.driveValue_valOut, State.present_ports]
    exact memReadFwd_memReadInv u hvalid

end Sys2Proof.Machine
end

section
/-! The two size operations (rules R120 to R124). -/

namespace Sys2Proof.Machine

/-! ### What the operations drive -/

theorem exec_lenEnc (s : State) : exec .lenEnc s = .next (s.driveSymbolCount (encodedLength s.ports.bcntIn)) := rfl

theorem exec_lenDec (s : State) :
    exec .lenDec s =
      .next (s.driveByteCount (decodedLength s.ports.scntIn).1 (decodedLength s.ports.scntIn).2) := rfl

theorem toBase32zSize_eq (n : Nat) (s : State) :
    toBase32zSize n s = .next ((s.present { s.ports with bcntIn := n }).driveSymbolCount (encodedLength n)) := rfl

theorem fromBase32zSize_eq (k : Nat) (s : State) :
    fromBase32zSize k s =
      .next ((s.present { s.ports with scntIn := k }).driveByteCount (decodedLength k).1 (decodedLength k).2) := rfl

theorem quiet_driveSymbolCount (s : State) (k : Nat) : Quiet s (s.driveSymbolCount k) := quiet_finish s _

theorem quiet_driveByteCount (s : State) (n : Nat) (valid : Bool) : Quiet s (s.driveByteCount n valid) :=
  quiet_finish s _

@[simp] theorem State.driveSymbolCount_raised (s : State) (k : Nat) : (s.driveSymbolCount k).raised = none := rfl

@[simp] theorem State.driveSymbolCount_scntOut (s : State) (k : Nat) : (s.driveSymbolCount k).out.scntOut = k := rfl

@[simp] theorem State.driveByteCount_raised (s : State) (n : Nat) (valid : Bool) :
    (s.driveByteCount n valid).raised = none := rfl

@[simp] theorem State.driveByteCount_bcntOut (s : State) (n : Nat) (valid : Bool) :
    (s.driveByteCount n valid).out.bcntOut = n := rfl

@[simp] theorem State.driveByteCount_validOut (s : State) (n : Nat) (valid : Bool) :
    (s.driveByteCount n valid).out.validOut = valid := rfl

/-! ### The symbol count of a byte count -/

/-- The symbols hold the bytes, with fewer than five bits of padding (rule R120). -/
theorem encodedLength_bounds (n : Nat) : 8 * n ≤ 5 * encodedLength n ∧ 5 * encodedLength n < 8 * n + 5 := by
  rw [encodedLength]
  omega

/-- The bounds of `encodedLength_bounds` admit no other count. -/
theorem encodedLength_eq_of_bounds {n k : Nat} (hle : 8 * n ≤ 5 * k) (hlt : 5 * k < 8 * n + 5) :
    encodedLength n = k := by
  have := encodedLength_bounds n
  omega

/-- Five bytes fill eight symbols. -/
theorem encodedLength_five_mul_add (q r : Nat) : encodedLength (5 * q + r) = 8 * q + encodedLength r := by
  have := encodedLength_bounds r
  exact encodedLength_eq_of_bounds (by omega) (by omega)

/-- The symbols of an incomplete group of five bytes (rule R120). -/
theorem encodedLength_of_lt_five : ∀ r < 5, encodedLength r = [0, 2, 4, 5, 7].getD r 0 := by decide

/-- The padding bits by the residue of the byte count (rule R124). -/
theorem paddingBits_eq (n : Nat) : 5 * encodedLength n - 8 * n = [0, 2, 4, 1, 3].getD (n % 5) 0 := by
  have htable : ∀ r < 5, 5 * encodedLength r - 8 * r = [0, 2, 4, 1, 3].getD r 0 := by decide
  have hn : n = 5 * (n / 5) + n % 5 := (Nat.div_add_mod n 5).symm
  have hgroup := encodedLength_five_mul_add (n / 5) (n % 5)
  rw [← hn] at hgroup
  rw [← htable (n % 5) (Nat.mod_lt n (by decide)), hgroup]
  omega

/-! ### The byte count of a symbol count -/

theorem decodedLength_of_valid {k : Nat} (h : 5 * k % 8 < 5) : decodedLength k = (5 * k / 8, true) := if_pos h

theorem decodedLength_of_invalid {k : Nat} (h : ¬ 5 * k % 8 < 5) : decodedLength k = (0, false) := if_neg h

@[simp] theorem decodedLength_snd (k : Nat) : (decodedLength k).2 = decide (5 * k % 8 < 5) := by
  by_cases h : 5 * k % 8 < 5
  · rw [decodedLength_of_valid h, decide_eq_true h]
  · rw [decodedLength_of_invalid h, decide_eq_false h]

/-- Rule R123: the residue of a symbol count modulo 8 says whether an encoding has that many symbols. -/
theorem valid_iff_residue (k : Nat) : 5 * k % 8 < 5 ↔ k % 8 ≠ 1 ∧ k % 8 ≠ 3 ∧ k % 8 ≠ 6 := by
  have htable : ∀ r < 8, 5 * r % 8 < 5 ↔ r ≠ 1 ∧ r ≠ 3 ∧ r ≠ 6 := by decide
  rw [Nat.mul_mod]
  exact htable (k % 8) (Nat.mod_lt k (by decide))

/-- Eight symbols leave no bit unused. -/
theorem unusedBits_eight_mul_add (q r : Nat) : 5 * (8 * q + r) % 8 = 5 * r % 8 := by omega

/-- The unused bits by the residue of the symbol count (rule R123). -/
theorem unusedBits_eq {q r : Nat} (hr : r < 8) : 5 * (8 * q + r) % 8 = [0, 5, 2, 7, 4, 1, 6, 3].getD r 0 := by
  have htable : ∀ r < 8, 5 * r % 8 = [0, 5, 2, 7, 4, 1, 6, 3].getD r 0 := by decide
  rw [unusedBits_eight_mul_add, htable r hr]

/-- The byte count by the residue of a valid symbol count (rule R123). -/
theorem decodedLength_fst_of_residue {q r : Nat} (hr : r < 8) (h : 5 * (8 * q + r) % 8 < 5) :
    (decodedLength (8 * q + r)).1 = 5 * q + [0, 0, 1, 0, 2, 3, 0, 4].getD r 0 := by
  have htable : ∀ r < 8, 5 * r % 8 < 5 → 5 * r / 8 = [0, 0, 1, 0, 2, 3, 0, 4].getD r 0 := by decide
  rw [decodedLength_of_valid h, ← htable r hr (unusedBits_eight_mul_add q r ▸ h)]
  omega

/-! ### The two together -/

/-- Rule R124: the padding of an encoding is less than five bits, so its length is valid and gives the bytes back. -/
theorem decodedLength_encodedLength (n : Nat) : decodedLength (encodedLength n) = (n, true) := by
  obtain ⟨hle, hlt⟩ := encodedLength_bounds n
  have hbytes : 5 * encodedLength n / 8 = n := by omega
  have hbits : 5 * encodedLength n % 8 < 5 := by omega
  rw [decodedLength_of_valid hbits, hbytes]

/-- Rule R124: the bytes of a valid symbol count need just those symbols. -/
theorem encodedLength_decodedLength {k : Nat} (h : (decodedLength k).2 = true) :
    encodedLength (decodedLength k).1 = k := by
  have hvalid : 5 * k % 8 < 5 := by simpa using h
  rw [decodedLength_of_valid hvalid]
  exact encodedLength_eq_of_bounds (by omega) (by omega)

/-! ### The bounds of rule R122 -/

theorem encodedLength_le_two_mul (n : Nat) : encodedLength n ≤ 2 * n := by
  have := encodedLength_bounds n
  omega

theorem decodedLength_fst_le (k : Nat) : (decodedLength k).1 ≤ k := by
  by_cases h : 5 * k % 8 < 5
  · rw [decodedLength_of_valid h]
    omega
  · rw [decodedLength_of_invalid h]
    exact Nat.zero_le k

theorem ports_fit_iff (w : Nat) (p : OperandPorts) :
    p.fit w = true ↔ p.bcntIn < 2 ^ w ∧ p.scntIn < 2 ^ (w + 1) := by
  rw [OperandPorts.fit, Bool.and_eq_true, decide_eq_true_iff, decide_eq_true_iff]

/-! ### The obligations -/

/-- Settles O12: the count is the one within the bounds, and five bytes fill eight symbols. -/
theorem lenEncGivesTheCeiling : Obligations.LenEncGivesTheCeiling := by
  refine ⟨⟨rfl, rfl, rfl⟩, fun s => ⟨_, exec_lenEnc s, quiet_driveSymbolCount s _, s.driveSymbolCount_raised _, ?_⟩⟩
  rw [State.driveSymbolCount_scntOut]
  obtain ⟨hle, hlt⟩ := encodedLength_bounds s.ports.bcntIn
  refine ⟨hle, hlt, fun q r hr hn => ?_⟩
  rw [hn, encodedLength_five_mul_add, encodedLength_of_lt_five r hr]

/-- Settles O13: the verdict by its definition, and the table of rule R123 from the residues below 8. -/
theorem lenDecFollowsTheResidue : Obligations.LenDecFollowsTheResidue := by
  refine ⟨⟨rfl, rfl, rfl⟩, fun s => ⟨_, exec_lenDec s, quiet_driveByteCount s _ _, s.driveByteCount_raised _ _, ?_⟩,
    fun c => ?_⟩
  · simp only [State.driveByteCount_validOut, State.driveByteCount_bcntOut, decodedLength_snd, decide_eq_true_iff,
      decide_eq_false_iff_not, true_and]
    refine ⟨fun h => by rw [decodedLength_of_valid h], fun h => by rw [decodedLength_of_invalid h], fun q r hr hk => ?_⟩
    rw [hk]
    refine ⟨unusedBits_eq hr, ?_, decodedLength_fst_of_residue hr⟩
    rw [valid_iff_residue]
    omega
  · rw [lenOk_iff, BitVec.toNat_ofNat]

/-- Settles O14: each result is bounded by its operand (`encodedLength_le_two_mul`, `decodedLength_fst_le`), and each
operand by its port. -/
theorem sizeResultsFitTheirPorts : Obligations.SizeResultsFitTheirPorts := by
  intro s hfit
  obtain ⟨hn, hk⟩ := (ports_fit_iff _ _).mp hfit
  have hle := encodedLength_le_two_mul s.ports.bcntIn
  have hsucc : 2 ^ (s.cntW + 1) = 2 * 2 ^ s.cntW := Nat.pow_succ'
  have hwide : 2 ^ (s.cntW + 4) = 16 * 2 ^ s.cntW := by rw [Nat.pow_add, Nat.mul_comm]
  refine ⟨by omega, by omega, ⟨_, exec_lenEnc s, ?_, ?_⟩, ⟨_, exec_lenDec s, ?_, ?_⟩⟩
  · exact hle
  · rw [State.driveSymbolCount_scntOut]
    omega
  · exact decodedLength_fst_le _
  · exact Nat.lt_of_le_of_lt (decodedLength_fst_le _) hk

/-- Settles O15: the two lengths undo each other (`decodedLength_encodedLength`, `encodedLength_decodedLength`). -/
theorem sizeOperationsAreInverse : Obligations.SizeOperationsAreInverse := by
  refine ⟨fun s n => ⟨_, _, toBase32zSize_eq n s, fromBase32zSize_eq _ _, ?_⟩,
    fun s k => ⟨_, _, fromBase32zSize_eq k s, toBase32zSize_eq _ _, ?_⟩⟩
  · rw [State.driveByteCount_bcntOut, State.driveByteCount_validOut, State.driveSymbolCount_scntOut,
      decodedLength_encodedLength]
    exact ⟨rfl, rfl, paddingBits_eq n⟩
  · rw [State.driveByteCount_validOut, State.driveSymbolCount_scntOut, State.driveByteCount_bcntOut]
    exact encodedLength_decodedLength

end Sys2Proof.Machine
end

section
/-! The validator's operations, one by one (rules R130 to R132). -/

namespace Sys2Proof.Machine

/-! ### What the operations leave -/

theorem exec_valInit (s : State) :
    exec .valInit s = .next { s with val := { ok := true, cnt := 0#3 } }.finishSilent := rfl

theorem exec_valPush (s : State) :
    exec .valPush s =
      .next { s with val := { ok := s.val.ok && AlphabetUnit s.ports.unitIn, cnt := s.val.cnt + 1#3 } }.finishSilent :=
  rfl

theorem exec_valRes (s : State) : exec .valRes s = .next (s.driveValid s.val.verdict) := rfl

theorem quiet_driveValid (s : State) (valid : Bool) : Quiet s (s.driveValid valid) := quiet_finish s _

@[simp] theorem State.finishSilent_raised (s : State) : s.finishSilent.raised = none := rfl

@[simp] theorem State.finishSilent_val (s : State) : s.finishSilent.val = s.val := rfl

@[simp] theorem State.driveValid_raised (s : State) (valid : Bool) : (s.driveValid valid).raised = none := rfl

@[simp] theorem State.driveValid_validOut (s : State) (valid : Bool) : (s.driveValid valid).out.validOut = valid := rfl

/-! ### The verdict -/

/-- `LenOk` of a count modulo 8: so many symbols leave fewer than five bits unused (rules R123, R132). -/
theorem lenOk_iff_unusedBits (c : BitVec 3) : lenOk c = true ↔ 5 * c.toNat % 8 < 5 := by
  rw [lenOk_iff, valid_iff_residue, Nat.mod_eq_of_lt c.isLt]

theorem ValCtx.verdict_iff (v : ValCtx) : v.verdict = true ↔ v.ok = true ∧ 5 * v.cnt.toNat % 8 < 5 := by
  rw [verdict, Bool.and_eq_true, lenOk_iff_unusedBits]

/-- Bit 6 of `STATUS` is `VAL_RES` (rule R36): it stands above the four lower flags and the two bits of `DEC_ERR`. -/
theorem status_getLsbD_six (s : State) : s.status.getLsbD 6 = s.val.verdict := by
  rw [State.status]
  calc _ = _ := getLsbD_append_ofBool _ _ 5
    _ = _ := getLsbD_append_ofBool _ _ 4
    _ = _ := getLsbD_append_ofBool _ _ 3
    _ = _ := getLsbD_append_ofBool _ _ 2
    _ = (BitVec.ofBool s.opErr ++ BitVec.ofBool s.val.verdict).getLsbD 0 :=
      BitVec.getLsbD_append.trans (if_neg (by decide))
    _ = s.val.verdict := BitVec.getLsbD_append.trans (by simp)

/-! ### The obligations -/

/-- Settles O16: `VAL.INIT` writes the two registers and nothing else (`exec_valOnly`). -/
theorem valInitBeginsASequence : Obligations.ValInitBeginsASequence :=
  ⟨⟨rfl, rfl, rfl⟩, fun s =>
    ⟨_, exec_valInit s, exec_valOnly rfl (exec_valInit s), State.finishSilent_raised _, rfl, rfl⟩⟩

/-- Settles O17: the membership bit is bit 5 of the unit's entry, and a 3-bit count wraps at 8. -/
theorem valPushAccountsForOneUnit : Obligations.ValPushAccountsForOneUnit := by
  refine ⟨⟨rfl, rfl, rfl⟩, fun s =>
    ⟨_, exec_valPush s, exec_valOnly rfl (exec_valPush s), State.finishSilent_raised _, ?_, ?_⟩⟩
  · rw [State.finishSilent_val, Bool.and_eq_true, AlphabetUnit, entryValid]
  · rw [State.finishSilent_val]
    exact BitVec.toNat_add s.val.cnt 1#3

/-- Settles O18: the verdict by `ValCtx.verdict_iff`, its place in `STATUS` by `status_getLsbD_six`. -/
theorem valResGivesTheVerdict : Obligations.ValResGivesTheVerdict := by
  refine ⟨⟨rfl, rfl, rfl⟩, fun s => ⟨_, exec_valRes s, quiet_driveValid s _, s.driveValid_raised _, ?_, ?_⟩⟩
  · rw [State.driveValid_validOut, ValCtx.verdict_iff]
  · rw [State.driveValid_validOut, status_getLsbD_six]

end Sys2Proof.Machine
end

section
/-! The encoder's operations, one by one (rules R140 to R142). -/

namespace Sys2Proof.Machine

/-! ### ENC.INIT -/

theorem exec_encInit_of_unit {s : State} {b : Byte} (hl : s.esrc.remaining ≤ Config.maxBytes s.cntW)
    (hh : s.esrc.head = .unit b) :
    exec .encInit s = .next (State.finishSilent { s with
      enc := { acc := b.setWidth 16, cnt := 8#4, term := false, err := false, pos := 1 }
      esrc := s.esrc.pop, encRun := true }) := by
  rw [exec, execEncInit, attemptEncInit, if_neg (Nat.not_lt.mpr hl), hh]
  rfl

theorem exec_encInit_of_ended {s : State} (hl : s.esrc.remaining ≤ Config.maxBytes s.cntW) (hh : s.esrc.head = .ended) :
    exec .encInit s = .next (State.finishSilent { s with
      enc := { acc := 0#16, cnt := 0#4, term := false, err := false, pos := 0 }, encRun := true }) := by
  rw [exec, execEncInit, attemptEncInit, if_neg (Nat.not_lt.mpr hl), hh]
  rfl

theorem holds_encInit_of_unknown {s : State} (hl : s.esrc.remaining ≤ Config.maxBytes s.cntW)
    (hh : s.esrc.head = .unknown) : holds .encInit s = true :=
  (Attempt.holds_iff _).mpr ((attemptEncInit_hold_iff s).mpr ⟨hl, hh⟩)

/-! ### ENC.CUR -/

theorem exec_encCur_of_five_le {s : State} (h : 5 ≤ s.enc.cnt.toNat) :
    exec .encCur s = .next (s.driveUnit (memReadFwd s.enc.current)) := by
  rw [exec, execEncCur, if_neg (by omega), if_neg (by omega)]

theorem exec_encCur_of_exhausted {s : State} (h : s.enc.cnt = 0#4) : exec .encCur s = .next (s.raise .encSeq) := by
  rw [exec, execEncCur, if_pos ((cnt_eq_zero_iff _).mp h)]

/-- The five bits of rule R141 as a number: what stands above the lower `enc_cnt - 5` bits, modulo 32. -/
theorem EncCtx.current_eq (e : EncCtx) :
    e.current = BitVec.ofNat 5 (e.acc.toNat / 2 ^ (e.cnt.toNat - 5) % 32) := by
  refine BitVec.eq_of_toNat_eq ?_
  rw [current, BitVec.extractLsb'_toNat, Nat.shiftRight_eq_div_pow, BitVec.toNat_ofNat, Nat.mod_mod]

/-! ### ENC.ADV: the fault, the discard alone, the pull, the padding and the exhaustion -/

theorem exec_encAdv_of_exhausted {s : State} (h : s.enc.cnt = 0#4) : exec .encAdv s = .next (s.raise .encSeq) := by
  rw [exec, execEncAdv, attemptEncAdv, if_pos ((cnt_eq_zero_iff _).mp h), Attempt.outcome]

section

variable {s : State} {c : Nat}

theorem exec_encAdv_discard (hcnt : s.enc.cnt.toNat = c + 5) (hc : 5 ≤ c) :
    exec .encAdv s = .next (State.finishSilent { s with
      enc := { s.enc with acc := low s.enc.acc c, cnt := BitVec.ofNat 4 c } }) := by
  rw [exec, execEncAdv, attemptEncAdv, if_neg (by omega), if_neg (by omega), if_pos (by omega), EncCtx.discard, hcnt]
  rfl

/-- With fewer than five bits left, what follows the discard is the refill's. -/
theorem exec_encAdv_refill (hcnt : s.enc.cnt.toNat = c + 5) (hc : c < 5) :
    exec .encAdv s = (attemptEncRefill s c (low s.enc.acc c)).outcome s := by
  rw [exec, execEncAdv, attemptEncAdv, if_neg (by omega), if_neg (by omega), if_neg (by omega), EncCtx.discard, hcnt]
  rfl

theorem exec_encAdv_pull {b : Byte} (hcnt : s.enc.cnt.toNat = c + 5) (hc : c < 5) (hr : s.encReady)
    (hh : s.esrc.head = .unit b) :
    exec .encAdv s = .next (State.finishSilent { s with
      enc := { s.enc with
        acc := low s.enc.acc c <<< 8 ||| b.setWidth 16, cnt := BitVec.ofNat 4 (c + 8), pos := s.enc.pos + 1 }
      esrc := s.esrc.pop }) := by
  rw [exec_encAdv_refill hcnt hc, attemptEncRefill, (encSourceStop_eq_none_iff s).mpr hr, hh]
  rfl

theorem exec_encAdv_pad (hcnt : s.enc.cnt.toNat = c + 5) (hc : c < 5) (hr : s.encReady) (hh : s.esrc.head = .ended)
    (h0 : 0 < c) :
    exec .encAdv s = .next (State.finishSilent { s with
      enc := { s.enc with acc := low s.enc.acc c <<< (5 - c), cnt := 5#4, term := true } }) := by
  rw [exec_encAdv_refill hcnt hc, attemptEncRefill, (encSourceStop_eq_none_iff s).mpr hr, hh]
  exact congrArg (Attempt.outcome s) (if_pos h0)

theorem exec_encAdv_exhaust (hcnt : s.enc.cnt.toNat = 5) (hr : s.encReady) (hh : s.esrc.head = .ended) :
    exec .encAdv s = .next (State.finishSilent { s with enc := { s.enc with acc := 0#16, cnt := 0#4 } }) := by
  rw [exec_encAdv_refill hcnt (by decide), attemptEncRefill, (encSourceStop_eq_none_iff s).mpr hr, hh]
  rfl

/-! ### The accumulator after ENC.ADV, as a number -/

theorem encPull_acc_toNat (a : Acc) (b : Byte) (hc : c < 5) :
    (low a c <<< 8 ||| b.setWidth 16).toNat = a.toNat % 2 ^ c * 256 + b.toNat := by
  rw [append_bits_toNat _ b (by decide) (low_lt a (by omega)) (by omega : c + 8 ≤ 16), low_toNat a (by omega)]
  rfl

theorem encPad_acc_toNat (a : Acc) (hc : c < 5) :
    (low a c <<< (5 - c)).toNat = a.toNat % 2 ^ c * 2 ^ (5 - c) := by
  rw [pad_toNat _ (low_lt a (by omega)) (by omega), low_toNat a (by omega)]

end

/-! ### The obligations -/

/-- Settles O20: the equation of each head (`exec_encInit_of_unit`, `exec_encInit_of_ended`), and the hold. -/
theorem encInitSeedsFromTheHead : Obligations.EncInitSeedsFromTheHead := by
  refine ⟨⟨rfl, rfl, rfl⟩, fun s hl => ⟨fun b hu => ?_, fun hn he => ?_, fun hn he => ?_⟩⟩
  · have hx := exec_encInit_of_unit hl ((Stream.head_eq_unit_iff _ b).mpr hu)
    exact ⟨_, hx, exec_encOnly rfl hx, rfl, BitVec.toNat_setWidth_of_le (by decide), rfl, rfl, rfl, rfl, rfl, rfl⟩
  · have hx := exec_encInit_of_ended hl ((Stream.head_eq_ended_iff _).mpr ⟨hn, he⟩)
    exact ⟨_, hx, exec_encOnly rfl hx, rfl, rfl, rfl, rfl, rfl, rfl, rfl, rfl⟩
  · have hh := holds_encInit_of_unknown hl ((Stream.head_eq_unknown_iff _).mpr ⟨hn, he⟩)
    exact ⟨exec_of_holds hh, hh⟩

/-- Settles O21: the five bits by `EncCtx.current_eq`; driving a port leaves the context for the second `ENC.CUR`. -/
theorem encCurReadsTheTopFiveBits : Obligations.EncCurReadsTheTopFiveBits := by
  refine ⟨⟨rfl, rfl, rfl⟩, fun s => ⟨fun h5 => ?_, fun h0 => ⟨_, exec_encCur_of_exhausted h0, s.raise_raised _⟩⟩⟩
  refine ⟨_, exec_encCur_of_five_le h5, quiet_driveUnit s _, s.driveUnit_raised _, ?_, ?_⟩
  · rw [State.driveUnit_unitOut, EncCtx.current_eq]
  · exact ⟨_, exec_encCur_of_five_le (s := s.driveUnit _) h5, rfl, rfl⟩

/-- Settles O22: the equation of each branch of rule R142, with the accumulator as a number. -/
theorem encAdvDiscardsAndRefills : Obligations.EncAdvDiscardsAndRefills := by
  refine ⟨⟨rfl, rfl, rfl⟩, fun s h0 => ⟨_, exec_encAdv_of_exhausted h0, s.raise_raised _, quiet_raise s .encSeq⟩,
    fun s c hcnt => ?_⟩
  have hlt : s.enc.cnt.toNat < 16 := s.enc.cnt.isLt
  refine ⟨fun hc => ?discard, fun hc hr => ⟨fun b hh => ?pull, fun hh hpos => ?pad, fun hh hzero => ?exhaust⟩⟩
  case discard =>
    have hx := exec_encAdv_discard hcnt hc
    exact ⟨_, hx, exec_encOnly rfl hx, rfl, rfl, rfl, low_toNat _ (by omega), cnt_ofNat_toNat (by omega), rfl, rfl, rfl⟩
  case pull =>
    have hx := exec_encAdv_pull hcnt hc hr hh
    exact ⟨_, hx, exec_encOnly rfl hx, rfl, rfl, hr.1, encPull_acc_toNat _ b hc, cnt_ofNat_toNat (by omega), rfl, rfl, rfl⟩
  case pad =>
    have hx := exec_encAdv_pad hcnt hc hr hh hpos
    exact ⟨_, hx, exec_encOnly rfl hx, rfl, rfl, hr.1, encPad_acc_toNat _ hc, rfl, rfl, rfl, rfl⟩
  case exhaust =>
    subst hzero
    have hx := exec_encAdv_exhaust hcnt hr hh
    exact ⟨_, hx, exec_encOnly rfl hx, rfl, rfl, hr.1, rfl, rfl, rfl, rfl, rfl⟩

end Sys2Proof.Machine
end

section
/-! A decoder run over input that is not valid (rules R169, R195, R196): which advance faults, and how. -/

namespace Sys2Proof.Machine

/-- What a refill over `S` has met where it raises a fault: the end, with five bits or more held and every unit pulled an
alphabet unit (rule R196), or a unit outside the alphabet, the first (rule R195). -/
def Refill.FaultsOver (S : List Byte) (j : Nat) : Refill → Prop
  | .lengthFault d _ => d.HoldsBits S j ∧ MembersUpTo S d.pos ∧ d.pos = S.length ∧ d.cnt.toNat < 8
  | .symbolFault d _ => d.err = .clear ∧
      ∃ p u, d.pos = p + 1 ∧ S[p]? = some u ∧ AlphabetUnit u = false ∧ MembersUpTo S p
  | .settled _ _ => True
  | .hold => True

/-- A refill faults at the first unit outside the alphabet, or at the end of `S` (rule R163). -/
theorem decRefill_faultsOver {S : List Byte} {j : Nat} (n : Nat) : ∀ {d : DecCtx}, d.HoldsBits S j →
    MembersUpTo S d.pos → d.pos ≤ S.length →
      (decRefill n d { units := S, pos := d.pos, ended := true }).FaultsOver S j := by
  induction n with
  | zero => exact fun _ _ _ => trivial
  | succ n ih =>
    intro d hd hm hle
    by_cases hc : 8 ≤ d.cnt.toNat
    · rw [decRefill_of_enough _ _ _ hc]
      trivial
    · have hc' : d.cnt.toNat < 8 := Nat.not_le.mp hc
      cases hh : Stream.head { units := S, pos := d.pos, ended := true } with
      | unknown => cases ((Stream.head_eq_unknown_iff _).mp hh).2
      | ended =>
        have hend : S.length ≤ d.pos := List.getElem?_eq_none_iff.mp ((Stream.head_eq_ended_iff _).mp hh).1
        rw [decRefill_of_ended n hc' hh]
        split
        · exact ⟨hd, hm, Nat.le_antisymm hle hend, hc'⟩
        · trivial
      | unit u =>
        have hu : S[d.pos]? = some u := (Stream.head_eq_unit_iff _ u).mp hh
        cases hmem : AlphabetUnit u with
        | false =>
          rw [decRefill_of_stranger n hc' hh hmem]
          exact ⟨hd.clear, d.pos, u, rfl, hu, hmem, hm⟩
        | true =>
          obtain ⟨hlt, hget⟩ : d.pos < S.length ∧ S.getD d.pos 0x79#8 = u := Stream.getD_of_head_unit hh _
          have hpull := hd.pull hc'
          rw [hget] at hpull
          rw [decRefill_of_member n hc' hh hmem]
          exact ih hpull (hm.succ hu hmem) hlt

theorem raise_decLen_err {s : State} (h : s.dec.err = .clear) : (s.raise .decLen).dec.err = .len := by
  rw [State.raise_dec, State.recordFault, h]
  rfl

theorem raise_decSym_err {s : State} (h : s.dec.err = .clear) : (s.raise .decSym).dec.err = .sym := by
  rw [State.raise_dec, State.recordFault, h]
  rfl

/-- A decoder run over `S` that has just faulted: with `DEC_LEN` at the end of the source, or with `DEC_SYM` at the first
unit outside the alphabet (rules R195, R196). -/
def State.FaultedAt (S : List Byte) (t : State) : Prop :=
  (t.raised = some .decLen ∧ t.dec.err = .len ∧ MembersUpTo S S.length ∧ t.dec.pos = S.length ∧
    t.dec.cnt.toNat = 5 * S.length % 8) ∨
  (t.raised = some .decSym ∧ t.dec.err = .sym ∧
    ∃ p u, t.dec.pos = p + 1 ∧ S[p]? = some u ∧ AlphabetUnit u = false ∧ MembersUpTo S p)

/-- A refilling operation of a run over `S` that leaves a fault recorded has raised the one that `S` has there. -/
theorem faultedAt_of_outcome {S : List Byte} {j : Nat} {s a t : State} {d : DecCtx} (hd : d.HoldsBits S j)
    (hm : MembersUpTo S d.pos) (hle : d.pos ≤ S.length)
    (h : (settleRefill s (decRefill 2 d { units := S, pos := d.pos, ended := true })).outcome a = .next t)
    (he : t.dec.err ≠ .clear) : t.FaultedAt S := by
  have hover := decRefill_faultsOver 2 hd hm hle
  cases hR : decRefill 2 d { units := S, pos := d.pos, ended := true } with
  | settled d' S' =>
    rw [hR] at h
    cases h
    have herr : d'.err = d.err := (decRefill_frame 2 _ _ _ _ (.inl hR)).1
    exact absurd (herr.trans hd.clear) he
  | lengthFault d' S' =>
    rw [hR] at h hover
    cases h
    obtain ⟨hd', hm', hpos, h8⟩ := hover
    have hcount := hd'.count
    rw [hpos] at hm' hcount
    have hcnt : d'.cnt.toNat = 5 * S.length % 8 := by omega
    exact .inl ⟨rfl, raise_decLen_err hd'.clear, hm', hpos, hcnt⟩
  | symbolFault d' S' =>
    rw [hR] at h hover
    cases h
    obtain ⟨hclear, hsym⟩ := hover
    exact .inr ⟨rfl, raise_decSym_err hclear, hsym⟩
  | hold => exact absurd hR (decRefill_ne_hold_of_ended 2 _ _ rfl)

/-- `DEC.INIT` over an admitted source is a refill of an empty context (rule R160). -/
theorem exec_decInit_of_admitted {s : State} (hl : s.dsrc.remaining ≤ Config.maxSymbols s.cntW) :
    exec .decInit s = (settleRefill { s.clearDecFault with decRun := true }
      (decRefill 2 { acc := 0#16, cnt := 0#4, err := .clear, pos := 0 } s.dsrc)).outcome s := by
  rw [exec, execDecInit, attemptDecInit, if_neg (Nat.not_lt.mpr hl)]
  rfl

/-- `DEC.INIT` begins a run over any `S`, or faults as `S` says. -/
theorem execDecInit_faultedAt (s : State) {S : List Byte} (hl : S.length ≤ Config.maxSymbols s.cntW) :
    ∃ t, exec .decInit (s.setDsrc S true) = .next t ∧ (t.UnfaultedAt S 0 ∨ t.FaultedAt S) := by
  obtain ⟨t, ht, hat | ⟨he, -⟩⟩ := execDecInit_runsOrFaulted s hl
  · exact ⟨t, ht, .inl hat⟩
  · refine ⟨t, ht, .inr ?_⟩
    rw [exec_decInit_of_admitted (s := s.setDsrc S true) hl] at ht
    exact faultedAt_of_outcome .empty nofun (Nat.zero_le _) ht he

/-- `DEC.ADV` goes on with a run over any `S`, or faults as `S` says. -/
theorem State.UnfaultedAt.execDecAdv_faultedAt {S : List Byte} {j : Nat} {t : State} (h : t.UnfaultedAt S j)
    (hj : j < 5 * S.length / 8) :
    ∃ u, exec .decAdv t = .next u ∧ (u.UnfaultedAt S (j + 1) ∨ u.FaultedAt S) := by
  obtain ⟨u, hu, hat | ⟨he, -⟩⟩ := h.execDecAdv hj
  · exact ⟨u, hu, .inl hat⟩
  · refine ⟨u, hu, .inr ?_⟩
    have hle : t.dec.pos ≤ S.length := h.pulled ▸ min_le_left _ _
    rw [h.execDecAdv_eq hj] at hu
    exact faultedAt_of_outcome (h.bits.discard (h.eight_le hj)) h.members hle hu he

/-- The run over `S` from `s` faults at its `i`-th advance, as `S` says and with no fault before. -/
def FirstFaultAt (s : State) (S : List Byte) (i : Nat) : Prop :=
  (∃ t, runTo .decInit .decAdv i (s.setDsrc S true) = .next t ∧ t.FaultedAt S) ∧
    ∀ i' < i, ∃ t, runTo .decInit .decAdv i' (s.setDsrc S true) = .next t ∧ t.dec.err = .clear

/-- The run over `S` from `s` has made `j` advances with no fault. -/
def UnfaultedUpTo (s : State) (S : List Byte) (j : Nat) : Prop :=
  ∀ i ≤ j, ∃ t, runTo .decInit .decAdv i (s.setDsrc S true) = .next t ∧ t.UnfaultedAt S i

theorem UnfaultedUpTo.firstFault_or_succ {s : State} {S : List Byte} {j : Nat} (h : UnfaultedUpTo s S j)
    (hj : j < 5 * S.length / 8) : UnfaultedUpTo s S (j + 1) ∨ FirstFaultAt s S (j + 1) := by
  obtain ⟨t, ht, hat⟩ := h j (Nat.le_refl j)
  obtain ⟨u, hu, hau⟩ := hat.execDecAdv_faultedAt hj
  have hrun : runTo .decInit .decAdv (j + 1) (s.setDsrc S true) = .next u := by rw [runTo, ht, andThen_next, hu]
  rcases hau with hau | hau
  · refine .inl fun i hi => ?_
    rcases Nat.le_succ_iff.mp hi with hi | rfl
    · exact h i hi
    · exact ⟨u, hrun, hau⟩
  · refine .inr ⟨⟨u, hrun, hau⟩, fun i hi => ?_⟩
    obtain ⟨v, hv, hav⟩ := h i (Nat.lt_succ_iff.mp hi)
    exact ⟨v, hv, hav.bits.clear⟩

/-- Up to any advance, the run has raised no fault or has faulted as `S` says. -/
theorem unfaultedUpTo_or_firstFault (s : State) {S : List Byte} (hl : S.length ≤ Config.maxSymbols s.cntW) :
    ∀ j, j ≤ 5 * S.length / 8 → UnfaultedUpTo s S j ∨ ∃ i ≤ j, FirstFaultAt s S i := by
  intro j
  induction j with
  | zero =>
    intro _
    obtain ⟨t, ht, hat | hat⟩ := execDecInit_faultedAt s hl
    · exact .inl fun i hi => Nat.le_zero.mp hi ▸ ⟨t, ht, hat⟩
    · exact .inr ⟨0, Nat.le_refl 0, ⟨t, ht, hat⟩, nofun⟩
  | succ j ih =>
    intro hj
    obtain h | ⟨i, hi, h⟩ := ih (Nat.le_of_succ_le hj)
    · exact (h.firstFault_or_succ hj).imp_right fun hf => ⟨j + 1, Nat.le_refl _, hf⟩
    · exact .inr ⟨i, Nat.le_succ_of_le hi, h⟩

/-- A run over input that is not valid faults at one of its advances (rule R169). -/
theorem exists_firstFault (s : State) {S : List Byte} (hl : S.length ≤ Config.maxSymbols s.cntW)
    (hS : ¬ ValidSequence S) : ∃ i ≤ 5 * S.length / 8, FirstFaultAt s S i := by
  obtain h | h := unfaultedUpTo_or_firstFault s hl _ (Nat.le_refl _)
  · obtain ⟨t, -, hat⟩ := h _ (Nat.le_refl _)
    exact absurd hat.validSequence hS
  · exact h

/-- The first unit outside the alphabet is in one place. -/
theorem MembersUpTo.eq_length_of_stranger {good bad : List Byte} {u v : Byte} {p : Nat}
    (hm : MembersUpTo (good ++ u :: bad) p) (hv : (good ++ u :: bad)[p]? = some v) (hvs : AlphabetUnit v = false)
    (hu : AlphabetUnit u = false) (hgood : ∀ g ∈ good, AlphabetUnit g = true) : p = good.length := by
  rcases Nat.lt_trichotomy p good.length with hlt | heq | hgt
  · rw [List.getElem?_append_left hlt] at hv
    exact absurd (hgood v (List.mem_of_getElem? hv)) (Bool.eq_false_iff.mp hvs)
  · exact heq
  · have hmem : u ∈ (good ++ u :: bad).take p := by
      rw [List.take_append, List.mem_append]
      obtain ⟨q, hq⟩ : ∃ q, p - good.length = q + 1 := ⟨p - good.length - 1, by omega⟩
      rw [hq]
      exact .inr List.mem_cons_self
    exact absurd (hm u hmem) (Bool.eq_false_iff.mp hu)

namespace State.FaultedAt

variable {S : List Byte} {t : State}

theorem decLen_of_members (h : t.FaultedAt S) (hS : ∀ u ∈ S, AlphabetUnit u = true) :
    t.raised = some .decLen ∧ t.dec.err = .len ∧ t.dec.pos = S.length ∧ t.dec.cnt.toNat = 5 * S.length % 8 := by
  obtain ⟨hr, he, -, hend⟩ | ⟨-, -, p, u, -, hu, hn, -⟩ := h
  · exact ⟨hr, he, hend⟩
  · exact absurd (hS u (List.mem_of_getElem? hu)) (Bool.eq_false_iff.mp hn)

theorem decSym_of_stranger {good bad : List Byte} {u : Byte} (h : t.FaultedAt (good ++ u :: bad))
    (hu : AlphabetUnit u = false) (hgood : ∀ g ∈ good, AlphabetUnit g = true) :
    t.raised = some .decSym ∧ t.dec.err = .sym ∧ t.dec.pos = good.length + 1 := by
  obtain ⟨-, -, hm, -⟩ | ⟨hr, he, p, v, hpos, hv, hvs, hm⟩ := h
  · rw [MembersUpTo, List.take_length] at hm
    exact absurd (hm u (List.mem_append_right good List.mem_cons_self)) (Bool.eq_false_iff.mp hu)
  · exact ⟨hr, he, hm.eq_length_of_stranger hv hvs hu hgood ▸ hpos⟩

end State.FaultedAt

/-- Settles O38: a run over valid input stays on its schedule (`runTo_decoderAt`); a run over any other has a first fault
(`exists_firstFault`), whose kind and place the input fixes. -/
theorem invalidInputFaults : Obligations.InvalidInputFaults := by
  intro s S hl
  refine ⟨fun hS j hj => ?_, fun hS => ?_⟩
  · obtain ⟨t, ht, hat, hr⟩ := runTo_decoderAt s hl hS j hj
    exact ⟨t, ht, hat.bits.clear, hr⟩
  · obtain ⟨j, hj, ⟨t, ht, hft⟩, hbefore⟩ := exists_firstFault s hl hS
    refine ⟨j, t, hj, ht, hbefore, hft.decLen_of_members, ?_⟩
    rintro good bad u rfl hu hgood
    exact hft.decSym_of_stranger hu hgood

end Sys2Proof.Machine
end

section
/-! What a decoded sequence depends on: not on the padding bits (rule R165), not on the case of a letter (rule R166). -/

namespace Sys2Proof.Machine

theorem bitsNumber_congr {W W' : Nat → Bool} {t n : Nat} (h : ∀ i, t ≤ i → i < t + n → W i = W' i) :
    bitsNumber W t n = bitsNumber W' t n := by
  induction n with
  | zero => rfl
  | succ n ih => rw [bitsNumber, bitsNumber, ih fun i hi hn => h i hi (by omega), h (t + n) (by omega) (by omega)]

/-- The bytes that `S` decodes to are read from its bits up to the last whole byte (rule R164). -/
theorem decodedSequence_congr {S S' : List Byte} (hlen : S.length = S'.length)
    (h : ∀ t, t < 8 * (5 * S.length / 8) → symbolBit S t = symbolBit S' t) : decodedSequence S = decodedSequence S' := by
  rw [decodedSequence, decodedSequence, ← hlen]
  refine List.map_congr_left fun j hj => ?_
  have hj' : j < 5 * S.length / 8 := List.mem_range.mp hj
  rw [decodedByte, decodedByte, bitsNumber_congr fun i _ hi => h i (by omega)]

/-- `FROM_BASE32Z` over a valid sequence finishes with its bytes and with no fault, and leaves the encoder. -/
theorem fromBase32z_of_valid (s : State) {S : List Byte} (hl : S.length ≤ Config.maxSymbols s.cntW)
    (hS : ValidSequence S) :
    ∃ t, fromBase32z S s = .next (.finished, decodedSequence S, t) ∧ t.dec.err = .clear ∧ t.enc = s.enc := by
  obtain ⟨e, bytes, t, ht, hvalid, -, henc, -⟩ := fromBase32zGivesTheDecoding s S hl
  obtain ⟨rfl, rfl, -, herr, -⟩ := hvalid hS
  exact ⟨t, ht, herr, henc⟩

/-- Two valid sequences of one length that spell the same bytes decode to the same bytes. -/
theorem fromBase32z_eq_of_decodedSequence_eq (s : State) {S S' : List Byte} (hl : S.length ≤ Config.maxSymbols s.cntW)
    (hS : ValidSequence S) (hS' : ValidSequence S') (hlen : S.length = S'.length)
    (h : decodedSequence S = decodedSequence S') :
    ∃ (out : List Byte) (a b : State),
      fromBase32z S s = .next (.finished, out, a) ∧ fromBase32z S' s = .next (.finished, out, b) := by
  obtain ⟨a, ha, -⟩ := fromBase32z_of_valid s hl hS
  obtain ⟨b, hb, -⟩ := fromBase32z_of_valid s (hlen ▸ hl) hS'
  exact ⟨_, a, b, ha, h ▸ hb⟩

/-- Settles O40: no decoded byte has a bit after the last whole byte (`decodedSequence_congr`). -/
theorem paddingBitsAreIgnored : Obligations.PaddingBitsAreIgnored :=
  fun s _ _ hl hS hS' hlen h => fromBase32z_eq_of_decodedSequence_eq s hl hS hS' hlen (decodedSequence_congr hlen h)

/-! ### The case of a letter -/

theorem canonicalUnit_otherCase (u : Byte) : canonicalUnit (otherCase u) = canonicalUnit u :=
  forall_byte_of_nibbles (P := fun u => canonicalUnit (otherCase u) = canonicalUnit u) (by decide) u

/-- The two cases of a letter have one entry, that of its canonical form (rules R87, R88). -/
theorem memReadInv_otherCase (u : Byte) : memReadInv (otherCase u) = memReadInv u := by
  rw [invIsTheInverse, invIsTheInverse u, canonicalUnit_otherCase]

/-- Units that differ in case at most have the same entries. -/
theorem map_memReadInv_eq {S S' : List Byte} (h : List.Forall₂ (fun u v => v = u ∨ v = otherCase u) S S') :
    S'.map memReadInv = S.map memReadInv := by
  induction h with
  | nil => rfl
  | cons huv _ ih =>
    rw [List.map_cons, List.map_cons, ih]
    rcases huv with rfl | rfl
    · rfl
    · rw [memReadInv_otherCase]

/-- The bits of a sequence are read from its entries. -/
theorem symbolBit_eq_of_entries {S S' : List Byte} (h : S'.map memReadInv = S.map memReadInv) (t : Nat) :
    symbolBit S t = symbolBit S' t := by
  rw [symbolBit, symbolBit, ← List.getD_map (f := memReadInv), ← List.getD_map (f := memReadInv), h]

/-- Whether a sequence is valid is read from its entries (rule R133). -/
theorem ValidSequence.of_entries {S S' : List Byte} (hS : ValidSequence S) (h : S'.map memReadInv = S.map memReadInv) :
    ValidSequence S' := by
  obtain ⟨hmem, hres⟩ := hS
  have hlen : S'.length = S.length := by simpa using congrArg List.length h
  refine ⟨fun u hu => ?_, hlen ▸ hres⟩
  obtain ⟨v, hv, hvu⟩ := List.mem_map.mp (h ▸ List.mem_map_of_mem hu)
  rw [AlphabetUnit, ← hvu]
  exact hmem v hv

theorem isBase32z_of_valid {S : List Byte} (hS : ValidSequence S) (s : State) :
    ∃ t, isBase32z S s = .next (true, t) ∧ SameOtherParts .validator s t := by
  obtain ⟨t, ht, -, hframe⟩ := isBase32z_verdict S s
  rw [(ValCtx.verdict_judged_iff S).mpr hS] at ht
  exact ⟨t, ht, hframe⟩

/-- Settles O41: the verdict and the bytes are read from the units' entries, which are the same in both cases
(`map_memReadInv_eq`). -/
theorem decodingIsCaseInsensitive : Obligations.DecodingIsCaseInsensitive := by
  intro s S S' hl hS hcase
  have hentries := map_memReadInv_eq hcase
  have hS' := hS.of_entries hentries
  have hlen := hcase.length_eq
  obtain ⟨t, ht, -⟩ := isBase32z_of_valid hS' s
  exact ⟨⟨t, ht⟩, fromBase32z_eq_of_decodedSequence_eq s hl hS hS' hlen
    (decodedSequence_congr hlen fun i _ => symbolBit_eq_of_entries hentries i)⟩

end Sys2Proof.Machine
end

section
/-! The round trip (rule R167): the encoding of a byte sequence is valid, and it spells the bytes. -/

namespace Sys2Proof.Machine

theorem length_encodedSequence (B : List Byte) : (encodedSequence B).length = encodedLength B.length := by
  rw [encodedSequence, List.length_map, List.length_range, encodedLength]

/-- The whole bytes that the symbols of `n` bytes hold are those `n` (rule R124). -/
theorem wholeBytes_encodedLength (n : Nat) : 5 * encodedLength n / 8 = n := by
  have := encodedLength_bounds n
  omega

/-- An encoding is valid: its units are symbols of the table, and its padding is fewer than five bits (rule R124). -/
theorem validSequence_encodedSequence (B : List Byte) : ValidSequence (encodedSequence B) := by
  refine ⟨fun u hu => ?_, (valid_iff_residue _).mp ?_⟩
  · obtain ⟨i, -, rfl⟩ := List.mem_map.mp hu
    exact alphabetUnit_memReadFwd _
  · have hbounds := encodedLength_bounds B.length
    have hwhole := wholeBytes_encodedLength B.length
    rw [length_encodedSequence]
    omega

/-- The value of a symbol of the encoding, and of the zero symbol after its end: five bits of the bytes' string
(rule R143). -/
theorem entryValue_encodedSequence (B : List Byte) (i : Nat) :
    entryValue (memReadInv ((encodedSequence B).getD i 0x79#8)) = BitVec.ofNat 5 (bitsNumber (byteBit B) (5 * i) 5) := by
  by_cases hi : i < (encodedSequence B).length
  · have hget : (encodedSequence B).getD i 0x79#8 = encodedSymbol B i := by
      rw [List.getD_eq_getElem _ _ hi]
      simp only [encodedSequence, List.getElem_map, List.getElem_range]
    rw [hget, encodedSymbol, entryValue_memReadInv_memReadFwd]
  · obtain ⟨hle, -⟩ := encodedLength_bounds B.length
    rw [length_encodedSequence] at hi
    rw [List.getD_eq_default _ _ (by rw [length_encodedSequence]; omega), bitsNumber_after_end B (by omega)]
    exact ((alphabetUnit_zero_value_iff _).mpr (.inr rfl)).2

/-- A bit of a number that a string spells is the bit of the string. -/
theorem bitsNumber_testBit (W : Nat → Bool) (t k m : Nat) : (bitsNumber W t (k + 1 + m)).testBit m = W (t + k) := by
  rw [Nat.testBit_eq_decide_div_mod_eq, bitsNumber_div, bitsNumber]
  cases W (t + k) <;> simp

/-- The string of the encoding's symbol values is that of the bytes. -/
theorem symbolBit_encodedSequence (B : List Byte) (t : Nat) : symbolBit (encodedSequence B) t = byteBit B t := by
  have hk : t % 5 + 1 + (4 - t % 5) = 5 := by omega
  have hbit := bitsNumber_testBit (byteBit B) (5 * (t / 5)) (t % 5) (4 - t % 5)
  rw [hk, Nat.div_add_mod] at hbit
  rw [symbolBit, entryValue_encodedSequence, BitVec.getLsbD_ofNat, hbit, decide_eq_true (by omega : 4 - t % 5 < 5),
    Bool.true_and]

/-- The encoding spells the bytes, which are all of its whole bytes. -/
theorem decodedSequence_encodedSequence (B : List Byte) : decodedSequence (encodedSequence B) = B := by
  have hlen : 5 * (encodedSequence B).length / 8 = B.length := by
    rw [length_encodedSequence, wholeBytes_encodedLength]
  refine List.ext_getElem (by rw [decodedSequence, List.length_map, List.length_range, hlen]) fun j hj hjB => ?_
  have hbits : symbolBit (encodedSequence B) = byteBit B := funext (symbolBit_encodedSequence B)
  simp only [decodedSequence, List.getElem_map, List.getElem_range]
  rw [decodedByte, hbits, bitsNumber_byte, List.getD_eq_getElem _ _ hjB, BitVec.ofNat_toNat, BitVec.setWidth_eq]

/-! ### The width over a validation -/

theorem exec_present_cntW {i : Instr} {s t : State} {p : OperandPorts} (h : exec i (s.present p) = .next t) :
    t.cntW = s.cntW := (exec_present_frame h).2.1

theorem pushAll_cntW {S : List Byte} : ∀ {s t : State}, pushAll S s = .next t → t.cntW = s.cntW := by
  induction S with
  | nil =>
    intro s t h
    cases h
    rfl
  | cons u S ih =>
    intro s t h
    obtain ⟨a, ha, ht⟩ := (andThen_eq_next_iff _ _ _).mp h
    exact (ih ht).trans (exec_present_cntW ha)

theorem isBase32z_cntW {S : List Byte} {s t : State} {v : Bool} (h : isBase32z S s = .next (v, t)) :
    t.cntW = s.cntW := by
  obtain ⟨a, ha, h⟩ := (andThen_eq_next_iff _ _ _).mp h
  obtain ⟨b, hb, h⟩ := (andThen_eq_next_iff _ _ _).mp h
  obtain ⟨c, hc, h⟩ := (andThen_eq_next_iff _ _ _).mp h
  cases h
  exact (exec_present_cntW (p := b.ports) hc).trans ((pushAll_cntW hb).trans (exec_present_cntW (p := s.ports) ha))

/-- The encoding of an admitted byte sequence is an admitted symbol sequence (rules R53, R122). -/
theorem encodedSequence_admitted {B : List Byte} {w : Nat} (hB : B.length ≤ Config.maxBytes w) :
    (encodedSequence B).length ≤ Config.maxSymbols w := by
  have hle := encodedLength_le_two_mul B.length
  have hsucc : 2 ^ (w + 1) = 2 * 2 ^ w := Nat.pow_succ'
  rw [length_encodedSequence]
  rw [Config.maxBytes] at hB
  rw [Config.maxSymbols]
  omega

/-- Settles O42: the encoding is valid, so that both the validator and the decoder accept it, and it spells the bytes
(`decodedSequence_encodedSequence`). -/
theorem decodingUndoesEncoding : Obligations.DecodingUndoesEncoding := by
  intro s B hB
  have hvalid := validSequence_encodedSequence B
  obtain ⟨a, ha, hat, -⟩ := toBase32z_encodes s hB
  obtain ⟨b, hb, hfb⟩ := isBase32z_of_valid hvalid a
  have hadmitted : (encodedSequence B).length ≤ Config.maxSymbols b.cntW :=
    isBase32z_cntW hb ▸ encodedSequence_admitted hat.admitted
  obtain ⟨c, hc, herr, henc⟩ := fromBase32z_of_valid b hadmitted hvalid
  rw [decodedSequence_encodedSequence] at hc
  have hencb := (hfb.encoder nofun).1
  exact ⟨_, a, b, c, ha, hb, hc, by rw [henc, hencb, hat.clear], herr⟩

end Sys2Proof.Machine
end

section
/-! The decoder's operations, one by one (rules R160 to R163). -/

namespace Sys2Proof.Machine

/-! ### DEC.CUR -/

theorem exec_decCur_of_eight_le {s : State} (he : s.dec.err = .clear) (h : 8 ≤ s.dec.cnt.toNat) :
    exec .decCur s = .next (s.driveUnit s.dec.current) := by
  rw [exec, execDecCur, if_neg (not_not.mpr he), if_neg (Nat.not_lt.mpr h)]

theorem exec_decCur_of_exhausted {s : State} (he : s.dec.err = .clear) (h : s.dec.cnt.toNat < 8) :
    exec .decCur s = .next (s.raise .decSeq) := by
  rw [exec, execDecCur, if_neg (not_not.mpr he), if_pos h]

theorem exec_decCur_of_faulted {s : State} (he : s.dec.err ≠ .clear) : exec .decCur s = .next s.finishSilent := by
  rw [exec, execDecCur, if_pos he]

/-- The eight bits of rule R161 as a number: what stands above the lower `dec_cnt - 8` bits, modulo 256. -/
theorem DecCtx.current_toNat (d : DecCtx) : d.current.toNat = d.acc.toNat / 2 ^ (d.cnt.toNat - 8) % 256 := by
  rw [current, BitVec.extractLsb'_toNat, Nat.shiftRight_eq_div_pow]

/-- Settles O29: the byte by `DecCtx.current_toNat`; driving a port leaves the context for the second `DEC.CUR`. -/
theorem decCurReadsTheTopEightBits : Obligations.DecCurReadsTheTopEightBits := by
  refine ⟨⟨rfl, rfl, rfl⟩, fun s => ⟨fun he h => ?exhausted, fun he h8 => ?reads, fun he => ?faulted⟩⟩
  case exhausted => exact ⟨_, exec_decCur_of_exhausted he h, s.raise_raised _⟩
  case reads =>
    exact ⟨_, exec_decCur_of_eight_le he h8, quiet_driveUnit s _, s.driveUnit_raised _, s.dec.current_toNat, _,
      exec_decCur_of_eight_le (s := s.driveUnit _) he h8, rfl, rfl⟩
  case faulted => exact ⟨_, exec_decCur_of_faulted he, quiet_finishSilent s, s.finishSilent_raised⟩

/-! ### The pulls of a refill -/

/-- More pulls change nothing where those there are reach eight bits (rule R163). -/
theorem decRefill_add_pulls (n m : Nat) : ∀ (d : DecCtx) (S : Stream), 8 ≤ d.cnt.toNat + 5 * n →
    decRefill (n + m) d S = decRefill n d S := by
  induction n with
  | zero => exact fun d S h8 => decRefill_of_enough _ d S h8
  | succ n ih =>
    intro d S h8
    rw [Nat.add_right_comm n 1 m]
    by_cases hc : 8 ≤ d.cnt.toNat
    · rw [decRefill_of_enough _ _ _ hc, decRefill_of_enough _ _ _ hc]
    · have hc' : d.cnt.toNat < 8 := Nat.not_le.mp hc
      cases hh : S.head with
      | unknown => rw [decRefill_of_unknown _ hc' hh, decRefill_of_unknown _ hc' hh]
      | ended => rw [decRefill_of_ended _ hc' hh, decRefill_of_ended _ hc' hh]
      | unit u =>
        cases hu : AlphabetUnit u with
        | false => rw [decRefill_of_stranger _ hc' hh hu, decRefill_of_stranger _ hc' hh hu]
        | true =>
          have hcnt : (d.pull (entryValue (memReadInv u))).cnt.toNat = d.cnt.toNat + 5 := DecCtx.pull_cnt _ hc'
          rw [decRefill_of_member _ hc' hh hu, decRefill_of_member _ hc' hh hu]
          exact ih (d.pull _) _ (by omega)

/-- With pulls enough a refill settles with eight bits, or at the end with fewer than five; and what it pulls leaves no more
than twelve (rule R163). -/
theorem decRefill_settled_cnt (n : Nat) : ∀ {d d' : DecCtx} {S S' : Stream}, 8 ≤ d.cnt.toNat + 5 * n →
    decRefill n d S = .settled d' S' →
    (8 ≤ d'.cnt.toNat ∨ (d'.cnt.toNat < 5 ∧ S'.head = .ended)) ∧ d'.cnt.toNat ≤ max d.cnt.toNat 12 := by
  induction n with
  | zero =>
    intro d d' S S' h8 h
    cases h
    exact ⟨.inl h8, le_max_left _ _⟩
  | succ n ih =>
    intro d d' S S' h8 h
    by_cases hc : 8 ≤ d.cnt.toNat
    · rw [decRefill_of_enough _ _ _ hc] at h
      cases h
      exact ⟨.inl hc, le_max_left _ _⟩
    · have hc' : d.cnt.toNat < 8 := Nat.not_le.mp hc
      cases hh : S.head with
      | unknown => rw [decRefill_of_unknown n hc' hh] at h; cases h
      | ended =>
        rw [decRefill_of_ended n hc' hh] at h
        split at h
        · cases h
        · cases h
          exact ⟨.inr ⟨by omega, hh⟩, le_max_left _ _⟩
      | unit u =>
        cases hu : AlphabetUnit u with
        | false => rw [decRefill_of_stranger n hc' hh hu] at h; cases h
        | true =>
          have hcnt : (d.pull (entryValue (memReadInv u))).cnt.toNat = d.cnt.toNat + 5 := DecCtx.pull_cnt _ hc'
          rw [decRefill_of_member n hc' hh hu] at h
          obtain ⟨hend, hmax⟩ := ih (d := d.pull _) (by omega) h
          exact ⟨hend, by omega⟩

/-- Settles O31: from any count two pulls reach eight bits (`decRefill_add_pulls`); how a refill settles is
`decRefill_settled_cnt`, and the two positions move together (`decRefill_frame`). -/
theorem refillPullsAtMostTwice : Obligations.RefillPullsAtMostTwice := by
  intro n d S
  have h8 : 8 ≤ d.cnt.toNat + 5 * 2 := by omega
  refine ⟨Nat.add_comm n 2 ▸ decRefill_add_pulls 2 n d S h8, fun d' S' hR => ?_⟩
  obtain ⟨hend, hmax⟩ := decRefill_settled_cnt 2 h8 hR
  obtain ⟨-, -, -, -, hpos, hmove, -⟩ := decRefill_frame 2 d S d' S' (.inl hR)
  exact ⟨hend, hpos, by omega, fun hc => by omega⟩

/-! ### What a refill meets, by the units that remain -/

section

variable {S : Stream} {u v : Byte} {rest : List Byte}

theorem Stream.head_of_drop_cons (h : S.units.drop S.pos = u :: rest) : S.head = .unit u := by
  rw [Stream.head_eq_unit_iff, ← List.head?_drop, h, List.head?_cons]

theorem Stream.drop_pop_of_drop_cons (h : S.units.drop S.pos = u :: rest) : S.pop.units.drop S.pop.pos = rest := by
  rw [Stream.pop_units, Stream.pop_pos, ← List.tail_drop, h, List.tail_cons]

theorem Stream.head_of_drop_nil (h : S.units.drop S.pos = []) (he : S.ended = true) : S.head = .ended :=
  (Stream.head_eq_ended_iff S).mpr ⟨List.getElem?_eq_none_iff.mpr (List.drop_eq_nil_iff.mp h), he⟩

end

/-- The pull of a unit at the head, counted and appended (rule R163). -/
def DecCtx.pullUnit (d : DecCtx) (u : Byte) : DecCtx := d.pull (entryValue (memReadInv u))

section

variable {d : DecCtx} {S : Stream} {u v : Byte} {rest : List Byte}

theorem decRefill_member (n : Nat) (hc : d.cnt.toNat < 8) (hdrop : S.units.drop S.pos = u :: rest)
    (hu : AlphabetUnit u = true) : decRefill (n + 1) d S = decRefill n (d.pullUnit u) S.pop :=
  decRefill_of_member n hc (Stream.head_of_drop_cons hdrop) hu

theorem pullUnit_cnt (u : Byte) (hc : d.cnt.toNat < 8) : (d.pullUnit u).cnt.toNat = d.cnt.toNat + 5 :=
  DecCtx.pull_cnt _ hc

/-- From three bits or more one pull is enough. -/
theorem decRefill_one_member (h3 : 3 ≤ d.cnt.toNat) (hc : d.cnt.toNat < 8) (hdrop : S.units.drop S.pos = u :: rest)
    (hu : AlphabetUnit u = true) : decRefill 2 d S = .settled (d.pullUnit u) S.pop := by
  have hcnt := pullUnit_cnt u hc
  rw [decRefill_member 1 hc hdrop hu, decRefill_of_enough _ _ _ (by omega)]

theorem decRefill_two_members (hc : d.cnt.toNat ≤ 2) (hdrop : S.units.drop S.pos = u :: v :: rest)
    (hu : AlphabetUnit u = true) (hv : AlphabetUnit v = true) :
    decRefill 2 d S = .settled ((d.pullUnit u).pullUnit v) S.pop.pop := by
  have hcnt := pullUnit_cnt u (d := d) (by omega)
  rw [decRefill_member 1 (by omega) hdrop hu,
    decRefill_member 0 (by omega) (Stream.drop_pop_of_drop_cons hdrop) hv]
  rfl

theorem decRefill_no_unit (hc : d.cnt.toNat ≤ 4) (hdrop : S.units.drop S.pos = []) (he : S.ended = true) :
    decRefill 2 d S = .settled d S := by
  rw [decRefill_of_ended 1 (by omega) (Stream.head_of_drop_nil hdrop he), if_neg (by omega)]

/-- One alphabet unit alone leaves five to seven bits at the end (rule R196). -/
theorem decRefill_last_member (hc : d.cnt.toNat ≤ 2) (hdrop : S.units.drop S.pos = [u]) (he : S.ended = true)
    (hu : AlphabetUnit u = true) : decRefill 2 d S = .lengthFault (d.pullUnit u) S.pop := by
  have hcnt := pullUnit_cnt u (d := d) (by omega)
  rw [decRefill_member 1 (by omega) hdrop hu,
    decRefill_of_ended 0 (by omega) (Stream.head_of_drop_nil (Stream.drop_pop_of_drop_cons hdrop) he),
    if_pos (by omega)]

theorem decRefill_first_stranger (hc : d.cnt.toNat < 8) (hdrop : S.units.drop S.pos = u :: rest)
    (hu : AlphabetUnit u = false) : decRefill 2 d S = .symbolFault { d with pos := d.pos + 1 } S.pop :=
  decRefill_of_stranger 1 hc (Stream.head_of_drop_cons hdrop) hu

theorem decRefill_second_stranger (hc : d.cnt.toNat ≤ 2) (hdrop : S.units.drop S.pos = u :: v :: rest)
    (hu : AlphabetUnit u = true) (hv : AlphabetUnit v = false) :
    decRefill 2 d S = .symbolFault { d.pullUnit u with pos := d.pos + 2 } S.pop.pop := by
  have hcnt := pullUnit_cnt u (d := d) (by omega)
  rw [decRefill_member 1 (by omega) hdrop hu,
    decRefill_of_stranger 0 (by omega) (Stream.head_of_drop_cons (Stream.drop_pop_of_drop_cons hdrop)) hv]
  rfl

/-! ### The accumulator after the pulls, as a number -/

theorem pullUnit_acc (u : Byte) (hc : d.cnt.toNat < 8) (ha : d.acc.toNat < 2 ^ d.cnt.toNat) :
    (d.pullUnit u).acc.toNat = d.acc.toNat * 32 + (entryValue (memReadInv u)).toNat :=
  DecCtx.pull_acc _ hc ha

theorem pullUnit_pullUnit_acc (u v : Byte) (hc : d.cnt.toNat ≤ 2) (ha : d.acc.toNat < 2 ^ d.cnt.toNat) :
    ((d.pullUnit u).pullUnit v).acc.toNat =
      d.acc.toNat * 1024 + (entryValue (memReadInv u)).toNat * 32 + (entryValue (memReadInv v)).toNat := by
  have hcnt := pullUnit_cnt u (d := d) (by omega)
  have hlt : (d.pullUnit u).acc.toNat < 2 ^ (d.pullUnit u).cnt.toNat :=
    append_acc_lt (d := { d with pos := d.pos + 1 }) _ (by omega : d.cnt.toNat < 8) ha
  rw [pullUnit_acc v (by omega) hlt, pullUnit_acc u (by omega) ha]
  ring

theorem pullUnit_pullUnit_cnt (u v : Byte) (hc : d.cnt.toNat ≤ 2) :
    ((d.pullUnit u).pullUnit v).cnt.toNat = d.cnt.toNat + 10 := by
  have hcnt := pullUnit_cnt u (d := d) (by omega)
  rw [pullUnit_cnt v (by omega), hcnt]

end

/-! ### How a refilling operation ends -/

section

variable {a s : State} {R : Refill} {d : DecCtx} {S : Stream}

theorem outcome_of_settled (hR : R = .settled d S) :
    (settleRefill a R).outcome s = .next (a.withDec d S).finishSilent := by rw [hR]; rfl

theorem outcome_of_lengthFault (hR : R = .lengthFault d S) :
    (settleRefill a R).outcome s = .next ((a.withDec d S).raise .decLen) := by rw [hR]; rfl

theorem outcome_of_symbolFault (hR : R = .symbolFault d S) :
    (settleRefill a R).outcome s = .next ((a.withDec d S).loseDecBits.raise .decSym) := by rw [hR]; rfl

end

/-! ### DEC.INIT -/

/-- Settles O28: `DEC.INIT` is a refill of an empty context (`exec_decInit_of_admitted`), which meets what the clause says
remains. -/
theorem decInitSeedsFromTheHead : Obligations.DecInitSeedsFromTheHead := by
  refine ⟨⟨rfl, rfl, rfl⟩, fun s hl => ?_⟩
  have hinit := exec_decInit_of_admitted hl
  refine ⟨fun hh => ?empty, fun u v rest hdrop hu hv => ?seeded, fun u hdrop he hu => ?short,
    fun u rest hdrop hu => ?first, fun u v rest hdrop hu hv => ?second⟩
  case empty =>
    have hx := hinit.trans (outcome_of_settled (decRefill_of_ended 1 (by decide) hh))
    exact ⟨_, hx, exec_decOnly rfl hx, rfl, rfl, rfl, rfl, rfl, rfl, rfl⟩
  case seeded =>
    have hx := hinit.trans (outcome_of_settled (decRefill_two_members (by decide) hdrop hu hv))
    refine ⟨_, hx, exec_decOnly rfl hx, rfl, ?_, rfl, rfl, rfl, rfl, rfl⟩
    exact (pullUnit_pullUnit_acc u v (by decide) (by decide)).trans (by rw [BitVec.toNat_zero, Nat.zero_mul, Nat.zero_add])
  case short =>
    have hx := hinit.trans (outcome_of_lengthFault (decRefill_last_member (by decide) hdrop he hu))
    refine ⟨_, hx, exec_decOnly rfl hx, rfl, ?_, rfl, rfl, rfl, rfl⟩
    exact (pullUnit_acc u (by decide) (by decide)).trans (by rw [BitVec.toNat_zero, Nat.zero_mul, Nat.zero_add])
  case first =>
    have hx := hinit.trans (outcome_of_symbolFault (decRefill_first_stranger (by decide) hdrop hu))
    exact ⟨_, hx, exec_decOnly rfl hx, rfl, rfl, rfl, rfl⟩
  case second =>
    have hx := hinit.trans (outcome_of_symbolFault (decRefill_second_stranger (by decide) hdrop hu hv))
    exact ⟨_, hx, exec_decOnly rfl hx, rfl, rfl, rfl, rfl⟩

/-! ### DEC.ADV -/

theorem exec_decAdv_of_faulted {s : State} (he : s.dec.err ≠ .clear) :
    exec .decAdv s = .next s.scrambleDec.finishSilent := by
  rw [exec, execDecAdv, attemptDecAdv, if_pos he, Attempt.outcome]

theorem exec_decAdv_of_exhausted {s : State} (he : s.dec.err = .clear) (h : s.dec.cnt.toNat < 8) :
    exec .decAdv s = .next (s.raise .decSeq) := by
  rw [exec, execDecAdv, attemptDecAdv, if_neg (not_not.mpr he), if_pos h, Attempt.outcome]

theorem exec_decAdv_of_ready {s : State} (he : s.dec.err = .clear) (h8 : 8 ≤ s.dec.cnt.toNat) (hr : s.decReady) :
    exec .decAdv s = (settleRefill s (decRefill 2 s.dec.discard s.dsrc)).outcome s := by
  rw [exec, execDecAdv, attemptDecAdv, if_neg (not_not.mpr he), if_neg (Nat.not_lt.mpr h8),
    (decSourceStop_eq_none_iff s).mpr hr]

/-- Settles O35: the state of a faulted run after `DEC.ADV` is `State.scrambleDec`, whose positions are in range. -/
theorem decAdvInAFaultedRunKeepsTheFault : Obligations.DecAdvInAFaultedRunKeepsTheFault := by
  intro s he
  have hx := exec_decAdv_of_faulted he
  exact ⟨_, hx, exec_decOnly rfl hx, rfl, s.scrambleDec_err, rfl, s.scrambleDec_pos_lt, s.scrambleDec_dsrc_pos_le⟩

theorem discard_acc_toNat {d : DecCtx} {c : Nat} (h : d.cnt.toNat = c + 8) : d.discard.acc.toNat = d.acc.toNat % 2 ^ c := by
  have hlt := d.cnt.isLt
  rw [DecCtx.discard, h, Nat.add_sub_cancel]
  exact low_toNat _ (by omega)

/-- Settles O30: with a byte held `DEC.ADV` is a refill of what the discard leaves (`exec_decAdv_of_ready`), which meets
what the clause says remains. -/
theorem decAdvDiscardsAndRefills : Obligations.DecAdvDiscardsAndRefills := by
  refine ⟨⟨rfl, rfl, rfl⟩, fun s he => ?faulted,
    fun s he h => ⟨_, exec_decAdv_of_exhausted he h, s.raise_raised _, ?exhausted⟩, fun s c he hcnt hc4 hr => ?_⟩
  case faulted =>
    have hx := exec_decAdv_of_faulted he
    exact ⟨_, hx, exec_decOnly rfl hx, s.scrambleDec_err⟩
  case exhausted =>
    have hq := quiet_raise s .decSeq
    rwa [State.recordFault, he] at hq
  have hadv := exec_decAdv_of_ready he (by omega) hr
  have hd : s.dec.discard.cnt.toNat = c := by rw [discard_cnt_toNat, hcnt, Nat.add_sub_cancel]
  have hacc := discard_acc_toNat hcnt
  have hlt := discard_acc_lt s.dec
  refine ⟨fun u rest h3 hdrop hu => ?one, fun u v rest hc hdrop hu hv => ?two, fun hdrop hend => ?no_unit,
    fun u hc hdrop hend hu => ?last, fun u rest hdrop hu => ?first, fun u v rest hc hdrop hu hv => ?second⟩
  case one =>
    have hx := hadv.trans (outcome_of_settled (decRefill_one_member (hd ▸ h3) (by omega) hdrop hu))
    exact ⟨_, hx, exec_decOnly rfl hx, rfl, he, hr.1, hacc ▸ pullUnit_acc u (by omega) hlt,
      hd ▸ pullUnit_cnt u (by omega), rfl, rfl⟩
  case two =>
    have hx := hadv.trans (outcome_of_settled (decRefill_two_members (hd ▸ hc) hdrop hu hv))
    exact ⟨_, hx, exec_decOnly rfl hx, rfl, he, hr.1, hacc ▸ pullUnit_pullUnit_acc u v (hd ▸ hc) hlt,
      hd ▸ pullUnit_pullUnit_cnt u v (hd ▸ hc), rfl, rfl⟩
  case no_unit =>
    have hx := hadv.trans (outcome_of_settled (decRefill_no_unit (hd ▸ hc4) hdrop hend))
    exact ⟨_, hx, exec_decOnly rfl hx, rfl, he, hr.1, hacc, hd, rfl, rfl⟩
  case last =>
    have hx := hadv.trans (outcome_of_lengthFault (decRefill_last_member (hd ▸ hc) hdrop hend hu))
    exact ⟨_, hx, exec_decOnly rfl hx, rfl, raise_decLen_err he, hacc ▸ pullUnit_acc u (by omega) hlt,
      hd ▸ pullUnit_cnt u (by omega), rfl, rfl⟩
  case first =>
    have hx := hadv.trans (outcome_of_symbolFault (decRefill_first_stranger (by omega) hdrop hu))
    exact ⟨_, hx, exec_decOnly rfl hx, rfl, raise_decSym_err he, rfl, rfl⟩
  case second =>
    have hx := hadv.trans (outcome_of_symbolFault (decRefill_second_stranger (hd ▸ hc) hdrop hu hv))
    exact ⟨_, hx, exec_decOnly rfl hx, rfl, raise_decSym_err he, rfl, rfl⟩

end Sys2Proof.Machine
end

section
/-! The housekeeping operations, `IDLE` and `STATUS.RD` (rules R180 and R181). -/

namespace Sys2Proof.Machine

/-! ### IDLE -/

theorem exec_idle (s : State) : exec .idle s = .next s.finishSilent := rfl

theorem quiet_of_sameMachine {a b : State} (h : SameMachine a b) (hp : b.ports = a.ports) : Quiet a b := by
  rw [SameMachine, hp] at h
  exact h

/-- States that differ in the result ports, the fault event and the ports' free values at most have the same part of every
unit. -/
theorem part_of_quiet {s t : State} (h : Quiet s t) (u : BlockUnit) : t.part u = s.part u := by
  rw [Quiet] at h
  rw [h]
  cases u <;> rfl

/-- The width, the operand ports and the caller's side are no part of what `Quiet` lets differ. -/
theorem environment_of_quiet {s t : State} (h : Quiet s t) :
    t.cntW = s.cntW ∧ t.ports = s.ports ∧ t.caller = s.caller ∧ t.arrivals = s.arrivals := by
  rw [Quiet] at h
  rw [h]
  exact ⟨rfl, rfl, rfl, rfl⟩

theorem status_of_quiet {s t : State} (h : Quiet s t) : t.status = s.status := by
  rw [Quiet] at h
  rw [h]
  rfl

/-- The same operation from two states that agree in all but what an earlier operation left on the result ports: it has the
same effect on its own unit. This holds of `STATUS.RD` too, which reads several units. -/
theorem exec_sameEffect_of_quiet {i : Instr} {s s' t : State} (hq : Quiet s s') (hh : holds i s = false)
    (h : exec i s = .next t) : ∃ t', exec i s' = .next t' ∧ SameEffect i s t t' := by
  by_cases hi : i = .statusRd
  · subst hi
    cases h
    exact ⟨_, rfl, ⟨part_of_quiet hq .housekeeping, rfl⟩, fun _ => (status_of_quiet hq).symm⟩
  · obtain ⟨hw, hports, -⟩ := environment_of_quiet hq
    exact exec_of_part hi (part_of_quiet hq _) hw hports hh h

/-- No operation reads the result ports, the fault event or the ports' free values: what differs in these alone goes on to
differ in these alone. -/
theorem exec_of_quiet {i : Instr} {s s' t : State} (hq : Quiet s s') (hh : holds i s = false) (h : exec i s = .next t) :
    ∃ t', exec i s' = .next t' ∧ Quiet t t' ∧ t'.raised = t.raised ∧ (DrivesIn i s → SameResults i t.out t'.out) := by
  obtain ⟨t', h', ⟨hpart, hraised⟩, hres⟩ := exec_sameEffect_of_quiet hq hh h
  obtain ⟨hws, hps, hcs, has⟩ := environment_of_quiet hq
  obtain ⟨-, -, -, -, -, -, hw, hp, hc, ha⟩ := unitsShareNoMutableState i s t h
  obtain ⟨-, -, -, -, -, -, hw', hp', hc', ha'⟩ := unitsShareNoMutableState i s' t' h'
  have hparts : ∀ u, t'.part u = t.part u := by
    intro u
    by_cases hu : u = i.blockUnit
    · rw [hu, hpart]
    · rw [exec_part_of_ne h' hu, exec_part_of_ne h hu, part_of_quiet hq]
  have hsame : SameMachine t t' :=
    sameMachine_of_parts hparts (by rw [hw', hws, hw]) (by rw [hc', hcs, hc]) (by rw [ha', has, ha])
  exact ⟨t', h', quiet_of_sameMachine hsame (by rw [hp', hps, hp]), hraised, hres⟩

/-- Settles O43: `IDLE` changes what the result ports carry at most, and no operation reads that (`exec_of_quiet`). -/
theorem idleChangesNothing : Obligations.IdleChangesNothing := by
  refine ⟨⟨rfl, rfl, rfl⟩, fun s => ⟨_, exec_idle s, quiet_finishSilent s, s.finishSilent_raised⟩, ?_⟩
  intro i s a b ha hb hh
  cases hb
  exact exec_of_quiet (quiet_finishSilent s) hh ha

/-! ### STATUS.RD -/

theorem exec_statusRd (s : State) : exec .statusRd s = .next (s.driveStatus s.status) := rfl

theorem quiet_driveStatus (s : State) (w : BitVec 8) : Quiet s (s.driveStatus w) := quiet_finish s _

@[simp] theorem State.driveStatus_raised (s : State) (w : BitVec 8) : (s.driveStatus w).raised = none := rfl

@[simp] theorem State.driveStatus_statusOut (s : State) (w : BitVec 8) : (s.driveStatus w).out.statusOut = w := rfl

/-- The last bit of a concatenation. -/
theorem getLsbD_zero_append_ofBool {w : Nat} (x : BitVec w) (b : Bool) : (x ++ BitVec.ofBool b).getLsbD 0 = b :=
  BitVec.getLsbD_append.trans (by simp)

/-- Bit 1 of `STATUS` is `ENC_TERM` (rule R36). -/
theorem status_getLsbD_one (s : State) : s.status.getLsbD 1 = s.enc.term := by
  rw [State.status]
  calc _ = _ := getLsbD_append_ofBool _ _ 0
    _ = s.enc.term := getLsbD_zero_append_ofBool _ _

/-- Bit 2 of `STATUS` is `ENC_ERR` (rule R36). -/
theorem status_getLsbD_two (s : State) : s.status.getLsbD 2 = s.enc.err := by
  rw [State.status]
  calc _ = _ := getLsbD_append_ofBool _ _ 1
    _ = _ := getLsbD_append_ofBool _ _ 0
    _ = s.enc.err := getLsbD_zero_append_ofBool _ _

/-- Bit 7 of `STATUS` is `OP_ERR` (rule R36), above the four lower flags, the two bits of `DEC_ERR` and the verdict. -/
theorem status_getLsbD_seven (s : State) : s.status.getLsbD 7 = s.opErr := by
  rw [State.status]
  calc _ = _ := getLsbD_append_ofBool _ _ 6
    _ = _ := getLsbD_append_ofBool _ _ 5
    _ = _ := getLsbD_append_ofBool _ _ 4
    _ = _ := getLsbD_append_ofBool _ _ 3
    _ = (BitVec.ofBool s.opErr ++ BitVec.ofBool s.val.verdict).getLsbD 1 :=
      BitVec.getLsbD_append.trans (if_neg (by decide))
    _ = (BitVec.ofBool s.opErr).getLsbD 0 := getLsbD_append_ofBool _ _ 0
    _ = s.opErr := by simp

theorem EncCtx.done_iff (e : EncCtx) : e.done = true ↔ e.cnt = 0#4 := beq_iff_eq

theorem DecCtx.done_iff (d : DecCtx) : d.done = true ↔ d.cnt.toNat < 8 := decide_eq_true_iff

/-- The verdict by the three counts that `LenOk` excludes (rule R132). -/
theorem ValCtx.verdict_iff_cnt_ne (v : ValCtx) :
    v.verdict = true ↔ v.ok = true ∧ v.cnt ≠ 1#3 ∧ v.cnt ≠ 3#3 ∧ v.cnt ≠ 6#3 := by
  simp only [verdict, lenOk, Bool.and_eq_true, bne_iff_ne, and_assoc]

/-- Settles O44: `STATUS.RD` drives `State.status`, whose fields are read one by one. -/
theorem statusRdReportsEveryField : Obligations.StatusRdReportsEveryField := by
  refine ⟨⟨rfl, rfl, rfl⟩, fun s => ⟨_, exec_statusRd s, quiet_driveStatus s _, s.driveStatus_raised _, ?_⟩⟩
  rw [State.driveStatus_statusOut]
  refine ⟨?enc_done, status_getLsbD_one s, status_getLsbD_two s, ?dec_done, ?dec_err, ?val_res, status_getLsbD_seven s⟩
  case enc_done => rw [status_getLsbD_zero, EncCtx.done_iff]
  case dec_done => rw [status_getLsbD_three, DecCtx.done_iff]
  case dec_err =>
    rw [status_extractLsb'_decErr]
    cases s.dec.err <;> rfl
  case val_res => rw [status_getLsbD_six, ValCtx.verdict_iff_cnt_ne]

end Sys2Proof.Machine
end

section
/-! The faults (rules R191 to R201): which operation raises which, what stands when one is raised, and how long it stays
recorded. -/

namespace Sys2Proof.Machine

/-! ### What an operation may raise (rule R191) -/

/-- The operations whose refill may raise `DEC_SYM` or `DEC_LEN`: `DEC.INIT`, and `DEC.ADV` where no fault is recorded. -/
def Refills (i : Instr) (s : State) : Prop := i = .decInit ∨ (i = .decAdv ∧ s.dec.err = .clear)

/-- The operations that may raise a fault, and where (rule R191). -/
def MayRaise (i : Instr) (s : State) : FaultCause → Prop
  | .illegalOp => i = .reserved
  | .encSeq => (i = .encCur ∨ i = .encAdv) ∧ s.enc.cnt = 0#4
  | .decSeq => (i = .decCur ∨ i = .decAdv) ∧ s.dec.cnt.toNat < 8 ∧ s.dec.err = .clear
  | .decSym => Refills i s
  | .decLen => Refills i s

theorem mayRaise_of_settleRefill {i : Instr} {s a t : State} {R : Refill} {c : FaultCause}
    (h : settleRefill a R = .done t) (hi : Refills i s) (hr : t.raised = some c) : MayRaise i s c := by
  obtain ⟨d, S, -, rfl⟩ | ⟨d, S, -, rfl⟩ | ⟨d, S, -, rfl⟩ := settleRefill_done h
  · cases hr
  · cases hr
    exact hi
  · cases hr
    exact hi

/-- No operation raises a fault but those listed for it, and none elsewhere than listed. -/
theorem mayRaise_of_raised {i : Instr} {s t : State} {c : FaultCause} (h : exec i s = .next t) (hh : holds i s = false)
    (hr : t.raised = some c) : MayRaise i s c := by
  cases i with
  | encInit =>
    obtain ⟨-, ⟨b, -, rfl⟩ | ⟨-, rfl⟩⟩ := attemptEncInit_done (Attempt.done_of_not_holds h hh)
    · cases hr
    · cases hr
  | encCur =>
    obtain ⟨h0, rfl⟩ | ⟨-, rfl⟩ := execEncCur_next h
    · cases hr
      exact ⟨.inl rfl, (cnt_eq_zero_iff _).mpr h0⟩
    · cases hr
  | encAdv =>
    obtain ⟨h0, rfl⟩ | ⟨c, -, ⟨-, rfl⟩ | ⟨-, -, -, ⟨b, -, rfl⟩ | ⟨-, -, rfl⟩ | ⟨-, -, rfl⟩⟩⟩ :=
      attemptEncAdv_done (Attempt.done_of_not_holds h hh)
    · cases hr
      exact ⟨.inr rfl, (cnt_eq_zero_iff _).mpr h0⟩
    all_goals cases hr
  | decInit => exact mayRaise_of_settleRefill (attemptDecInit_done (Attempt.done_of_not_holds h hh)).2 (.inl rfl) hr
  | decCur =>
    obtain ⟨-, rfl⟩ | ⟨he, h8, rfl⟩ | ⟨-, -, rfl⟩ := execDecCur_next h
    · cases hr
    · cases hr
      exact ⟨.inl rfl, h8, he⟩
    · cases hr
  | decAdv =>
    obtain ⟨-, rfl⟩ | ⟨he, h8, rfl⟩ | ⟨he, -, -, -, hs⟩ := attemptDecAdv_done (Attempt.done_of_not_holds h hh)
    · cases hr
    · cases hr
      exact ⟨.inr rfl, h8, he⟩
    · exact mayRaise_of_settleRefill hs (.inr ⟨rfl, he⟩) hr
  | reserved =>
    cases h
    cases hr
    rfl
  | _ =>
    cases h
    cases hr

/-! ### The two cursors where they are exhausted (rules R193, R194) -/

section

variable {i : Instr} {s t : State}

theorem exec_encCursor_of_exhausted (hi : i = .encCur ∨ i = .encAdv) (h0 : s.enc.cnt = 0#4) :
    exec i s = .next (s.raise .encSeq) := by
  obtain rfl | rfl := hi
  · exact exec_encCur_of_exhausted h0
  · exact exec_encAdv_of_exhausted h0

theorem exec_decCursor_of_exhausted (hi : i = .decCur ∨ i = .decAdv) (he : s.dec.err = .clear)
    (h8 : s.dec.cnt.toNat < 8) : exec i s = .next (s.raise .decSeq) := by
  obtain rfl | rfl := hi
  · exact exec_decCur_of_exhausted he h8
  · exact exec_decAdv_of_exhausted he h8

/-- An operation that raises a fault in a state raises it in every outcome from that state. -/
theorem raised_of_exec_raise {c : FaultCause} (h : exec i s = .next t) (hx : exec i s = .next (s.raise c)) :
    t.raised = some c := by
  rw [h] at hx
  cases hx
  exact s.raise_raised c

end

theorem quiet_raise_decSeq {s : State} (he : s.dec.err = .clear) :
    Quiet { s with dec := { s.dec with err := .seq } } (s.raise .decSeq) := by
  have hq := quiet_raise s .decSeq
  rwa [State.recordFault, he] at hq

/-- `ENC_SEQ` once recorded is recorded again with no effect. -/
theorem quiet_raise_encSeq_of_recorded {s : State} (he : s.enc.err = true) : Quiet s (s.raise .encSeq) := by
  have hq := quiet_raise s .encSeq
  rwa [State.recordFault, ← he] at hq

theorem encInit_clears_encErr {s t : State} (h : attemptEncInit s = .done t) : t.enc.err = false := by
  obtain ⟨-, ⟨b, -, rfl⟩ | ⟨-, rfl⟩⟩ := attemptEncInit_done h <;> rfl

/-- Settles O24: the fault is what either operation comes to (`exec_encCursor_of_exhausted`), the second time too, and
`ENC.INIT` writes a context with none recorded. -/
theorem exhaustedEncoderRaisesEncSeq : Obligations.ExhaustedEncoderRaisesEncSeq := by
  refine ⟨fun s i h0 hi => ?_, fun s t h hh => encInit_clears_encErr (Attempt.done_of_not_holds h hh), fun s => rfl⟩
  refine ⟨_, exec_encCursor_of_exhausted hi h0, s.raise_raised _, quiet_raise s .encSeq, fun j hj => ?_⟩
  exact ⟨_, exec_encCursor_of_exhausted hj h0, State.raise_raised _ _, quiet_raise_encSeq_of_recorded rfl⟩

/-- What a refill of a context with no fault recorded leaves in `dec_err` is the fault that it raises. -/
theorem settleRefill_decErr {a t : State} {n : Nat} {d : DecCtx} {S : Stream} (hd : d.err = .clear)
    (h : settleRefill a (decRefill n d S) = .done t) :
    t.dec.err = if t.raised = some .decSym then .sym else if t.raised = some .decLen then .len else .clear := by
  obtain ⟨d', S', hR, rfl⟩ | ⟨d', S', hR, rfl⟩ | ⟨d', S', hR, rfl⟩ := settleRefill_done h
  · exact (decRefill_frame n d S d' S' (.inl hR)).1.trans hd
  · exact raise_decLen_err ((decRefill_frame n d S d' S' (.inr (.inl hR))).1.trans hd)
  · exact raise_decSym_err ((decRefill_frame n d S d' S' (.inr (.inr hR))).1.trans hd)

/-- Settles O32: the fault is what either operation comes to (`exec_decCursor_of_exhausted`), and `DEC.INIT` refills a
context with none recorded (`settleRefill_decErr`). -/
theorem exhaustedDecoderRaisesDecSeq : Obligations.ExhaustedDecoderRaisesDecSeq := by
  refine ⟨fun s i he h8 hi => ?raises, fun s t h hh => ?init, fun s => rfl⟩
  case raises => exact ⟨_, exec_decCursor_of_exhausted hi he h8, s.raise_raised _, quiet_raise_decSeq he⟩
  case init => exact settleRefill_decErr rfl (attemptDecInit_done (Attempt.done_of_not_holds h hh)).2

/-- Settles O47: what is raised is listed (`mayRaise_of_raised`), and where the first three are listed they are raised. -/
theorem onlyTheListedOperationsRaise : Obligations.OnlyTheListedOperationsRaise := by
  intro i s t h hh
  have listed {c : FaultCause} (hr : t.raised = some c) : MayRaise i s c := mayRaise_of_raised h hh hr
  refine ⟨⟨listed, ?illegalOp⟩, ⟨listed, ?encSeq⟩, ⟨listed, ?decSeq⟩, listed, listed⟩
  case illegalOp =>
    rintro rfl
    exact raised_of_exec_raise h rfl
  case encSeq =>
    rintro ⟨hi, h0⟩
    exact raised_of_exec_raise h (exec_encCursor_of_exhausted hi h0)
  case decSeq =>
    rintro ⟨hi, h8, he⟩
    exact raised_of_exec_raise h (exec_decCursor_of_exhausted hi he h8)

/-! ### What a refill finds in its source (rules R195, R196) -/

/-- Every unit from position `p` up to position `q` is an alphabet unit. -/
def MembersBetween (units : List Byte) (p q : Nat) : Prop :=
  ∀ k u, p ≤ k → k < q → units[k]? = some u → AlphabetUnit u = true

theorem membersBetween_self (units : List Byte) (p : Nat) : MembersBetween units p p :=
  fun _ _ hle hlt => absurd hle (Nat.not_le.mpr hlt)

/-- What the end of a refill over `S` says of the units pulled: all are alphabet units but the last of a `DEC_SYM`; and a
`DEC_LEN` is met at the end of the source with five to seven bits held. -/
def Refill.FoundIn (S : Stream) : Refill → Prop
  | .settled _ S' => MembersBetween S.units S.pos S'.pos
  | .lengthFault d' S' =>
    MembersBetween S.units S.pos S'.pos ∧ S'.head = .ended ∧ 5 ≤ d'.cnt.toNat ∧ d'.cnt.toNat ≤ 7
  | .symbolFault _ S' =>
    S.pos < S'.pos ∧ (∃ u, S.units[S'.pos - 1]? = some u ∧ AlphabetUnit u = false) ∧
      MembersBetween S.units S.pos (S'.pos - 1)
  | .hold => True

section

variable {S : Stream} {u : Byte}

/-- The alphabet unit at the head joins those that are pulled after it. -/
theorem MembersBetween.of_pop {q : Nat} (hh : S.head = .unit u) (hu : AlphabetUnit u = true)
    (h : MembersBetween S.pop.units S.pop.pos q) : MembersBetween S.units S.pos q := by
  intro k v hle hlt hv
  obtain rfl | hne := Nat.eq_or_lt_of_le hle
  · rw [(Stream.head_eq_unit_iff S u).mp hh] at hv
    cases hv
    exact hu
  · exact h k v hne hlt hv

theorem Refill.FoundIn.of_pop {R : Refill} (hh : S.head = .unit u) (hu : AlphabetUnit u = true) (h : R.FoundIn S.pop) :
    R.FoundIn S := by
  cases R with
  | settled d' S' => exact MembersBetween.of_pop hh hu h
  | lengthFault d' S' =>
    obtain ⟨hm, hend⟩ := h
    exact ⟨hm.of_pop hh hu, hend⟩
  | symbolFault d' S' =>
    obtain ⟨hlt, hlast, hm⟩ := h
    exact ⟨Nat.lt_of_succ_lt hlt, hlast, hm.of_pop hh hu⟩
  | hold => trivial

end

theorem decRefill_foundIn (n : Nat) : ∀ (d : DecCtx) (S : Stream), (decRefill n d S).FoundIn S := by
  induction n with
  | zero => exact fun d S => membersBetween_self _ _
  | succ n ih =>
    intro d S
    by_cases hc : 8 ≤ d.cnt.toNat
    · rw [decRefill_of_enough _ _ _ hc]
      exact membersBetween_self _ _
    · have hc' : d.cnt.toNat < 8 := Nat.not_le.mp hc
      cases hh : S.head with
      | unknown =>
        rw [decRefill_of_unknown n hc' hh]
        trivial
      | ended =>
        rw [decRefill_of_ended n hc' hh]
        split
        · exact ⟨membersBetween_self _ _, hh, ‹_›, Nat.le_of_lt_succ hc'⟩
        · exact membersBetween_self _ _
      | unit u =>
        cases hu : AlphabetUnit u with
        | false =>
          rw [decRefill_of_stranger n hc' hh hu]
          exact ⟨Nat.lt_succ_self _, ⟨u, (Stream.head_eq_unit_iff S u).mp hh, hu⟩, membersBetween_self _ _⟩
        | true =>
          rw [decRefill_of_member n hc' hh hu]
          exact (ih _ _).of_pop hh hu

/-- What an operation that refills comes to: the refill of a context with no fault recorded, unless the cursor was
exhausted. -/
theorem Refills.exec_done {i : Instr} {s t : State} (hi : Refills i s) (h : exec i s = .next t)
    (hh : holds i s = false) :
    t = s.raise .decSeq ∨ ∃ a d, d.err = .clear ∧ settleRefill a (decRefill 2 d s.dsrc) = .done t := by
  obtain rfl | ⟨rfl, he⟩ := hi
  · exact .inr ⟨_, _, rfl, (attemptDecInit_done (Attempt.done_of_not_holds h hh)).2⟩
  · obtain ⟨hne, -⟩ | ⟨-, -, ht⟩ | ⟨-, -, -, -, hs⟩ := attemptDecAdv_done (Attempt.done_of_not_holds h hh)
    · exact absurd he hne
    · exact .inl ht
    · exact .inr ⟨s, s.dec.discard, he, hs⟩

theorem Refills.instr {i : Instr} {s : State} (hi : Refills i s) : i = .decInit ∨ i = .decAdv := hi.imp_right And.left

theorem Refills.decOnly {i : Instr} {s t : State} (hi : Refills i s) (h : exec i s = .next t) : DecOnly s t := by
  obtain rfl | rfl := hi.instr
  · exact exec_decOnly rfl h
  · exact exec_decOnly rfl h

/-- Where `DEC_SYM` is raised, the refill has met a unit outside the alphabet. -/
theorem Refills.symbolFault {i : Instr} {s t : State} (hi : Refills i s) (h : exec i s = .next t)
    (hh : holds i s = false) (hr : t.raised = some .decSym) :
    t.dec.err = .sym ∧ t.dsrc.pos ≤ s.dsrc.pos + 2 ∧ ∃ d, (Refill.symbolFault d t.dsrc).FoundIn s.dsrc := by
  obtain rfl | ⟨a, d, hd, hs⟩ := hi.exec_done h hh
  · cases hr
  · have herr := settleRefill_decErr hd hs
    rw [if_pos hr] at herr
    refine ⟨herr, (settleRefill_pulls hs).1.2, ?_⟩
    obtain ⟨d', S', -, rfl⟩ | ⟨d', S', -, rfl⟩ | ⟨d', S', hR, rfl⟩ := settleRefill_done hs
    · cases hr
    · cases hr
    · exact ⟨d', hR ▸ decRefill_foundIn 2 d s.dsrc⟩

/-- Where `DEC_LEN` is raised, the refill has met the end of the source with too many bits held to be padding. -/
theorem Refills.lengthFault {i : Instr} {s t : State} (hi : Refills i s) (h : exec i s = .next t)
    (hh : holds i s = false) (hr : t.raised = some .decLen) :
    t.dec.err = .len ∧ t.dsrc.head = .ended ∧ 5 ≤ t.dec.cnt.toNat ∧ t.dec.cnt.toNat ≤ 7 := by
  obtain rfl | ⟨a, d, hd, hs⟩ := hi.exec_done h hh
  · cases hr
  · have herr := settleRefill_decErr hd hs
    rw [hr] at herr
    refine ⟨herr, ?_⟩
    obtain ⟨d', S', -, rfl⟩ | ⟨d', S', hR, rfl⟩ | ⟨d', S', -, rfl⟩ := settleRefill_done hs
    · cases hr
    · have hfound := decRefill_foundIn 2 d s.dsrc
      rw [hR] at hfound
      exact hfound.2
    · cases hr

/-- An operation that refills and does not raise `DEC_SYM` has pulled alphabet units alone. -/
theorem Refills.members_of_not_decSym {i : Instr} {s t : State} (hi : Refills i s) (h : exec i s = .next t)
    (hr : t.raised ≠ some .decSym) : MembersBetween s.dsrc.units s.dsrc.pos t.dsrc.pos := by
  cases hh : holds i s with
  | true =>
    rw [exec_of_holds hh] at h
    cases h
    exact membersBetween_self _ _
  | false =>
    obtain rfl | ⟨a, d, -, hs⟩ := hi.exec_done h hh
    · exact membersBetween_self _ _
    · have hfound := decRefill_foundIn 2 d s.dsrc
      obtain ⟨d', S', hR, rfl⟩ | ⟨d', S', hR, rfl⟩ | ⟨d', S', -, rfl⟩ := settleRefill_done hs
      · rw [hR] at hfound
        exact hfound
      · rw [hR] at hfound
        exact hfound.1
      · exact absurd rfl hr

/-- Settles O33: the refill has met the unit (`Refills.symbolFault`), and where none is raised it has met none
(`Refills.members_of_not_decSym`). -/
theorem decSymNamesThePulledUnit : Obligations.DecSymNamesThePulledUnit := by
  refine fun s t i h => ⟨fun hr hh => ?raised, fun hi ⟨p, u, hle, hlt, hu, hstranger⟩ => ?pulled⟩
  case raised =>
    have hi : Refills i s := mayRaise_of_raised h hh hr
    obtain ⟨herr, hmax, d, hlt, hlast, hm⟩ := hi.symbolFault h hh hr
    exact ⟨hi.instr, hi.decOnly h, herr, hlt, hmax, hlast, hm⟩
  case pulled =>
    by_contra hr
    have hmember := Refills.members_of_not_decSym hi h hr p u hle hlt hu
    exact absurd hmember (Bool.eq_false_iff.mp hstranger)

/-- Settles O34: the refill has met the end (`Refills.lengthFault`), and fewer than eight bits are what `DEC_DONE` says. -/
theorem decLenMeetsTheEnd : Obligations.DecLenMeetsTheEnd := by
  intro s t i h hh hr
  have hi : Refills i s := mayRaise_of_raised h hh hr
  obtain ⟨herr, hend, h5, h7⟩ := hi.lengthFault h hh hr
  have hdone : t.status.getLsbD 3 = true := by
    rw [status_getLsbD_three, DecCtx.done_iff]
    exact Nat.lt_succ_of_le h7
  exact ⟨hi.instr, hi.decOnly h, herr, hend, h5, h7, hdone⟩

/-! ### How long a fault stays recorded (rules R35, R199, R201) -/

/-- What an operation does to `enc_err`: nothing, but for `ENC.INIT`, which clears it, and the raising of `ENC_SEQ`. -/
theorem exec_encErr {i : Instr} {s t : State} (h : exec i s = .next t) :
    t.enc.err = s.enc.err ∨ (i = .encInit ∧ t.enc.err = false) ∨
      ((i = .encCur ∨ i = .encAdv) ∧ t.raised = some .encSeq ∧ t.enc.err = true) := by
  obtain ⟨henc, -⟩ := unitsShareNoMutableState i s t h
  cases i with
  | encInit =>
    obtain hd | ⟨-, rfl⟩ := (Attempt.outcome_eq_next_iff _ _ _).mp h
    · exact .inr (.inl ⟨rfl, encInit_clears_encErr hd⟩)
    · exact .inl rfl
  | encCur =>
    obtain ⟨-, rfl⟩ | ⟨-, rfl⟩ := execEncCur_next h
    · exact .inr (.inr ⟨.inl rfl, rfl, rfl⟩)
    · exact .inl rfl
  | encAdv =>
    obtain hd | ⟨-, rfl⟩ := (Attempt.outcome_eq_next_iff _ _ _).mp h
    · obtain ⟨-, rfl⟩ | ⟨c, -, ⟨-, rfl⟩ | ⟨-, -, -, ⟨b, -, rfl⟩ | ⟨-, -, rfl⟩ | ⟨-, -, rfl⟩⟩⟩ := attemptEncAdv_done hd
      · exact .inr (.inr ⟨.inr rfl, rfl, rfl⟩)
      all_goals exact .inl rfl
    · exact .inl rfl
  | _ => exact .inl (by rw [(henc nofun).1])

/-- Only `DEC.INIT` writes `dec_err` where a fault is recorded: first fault wins (rule R199). -/
theorem exec_decErr_of_recorded {i : Instr} {s t : State} (h : exec i s = .next t) (he : s.dec.err ≠ .clear)
    (hi : i ≠ .decInit) : t.dec.err = s.dec.err := by
  obtain ⟨-, hdec, -⟩ := unitsShareNoMutableState i s t h
  cases i with
  | decInit => exact absurd rfl hi
  | decCur =>
    rw [exec_decCur_of_faulted he] at h
    cases h
    rfl
  | decAdv =>
    rw [exec_decAdv_of_faulted he] at h
    cases h
    exact s.scrambleDec_err
  | _ => rw [(hdec nofun).1]

/-- `op_err` is set by the reserved code and kept by every other operation (rule R35). -/
theorem exec_opErr {i : Instr} {s t : State} (h : exec i s = .next t) :
    (i = .reserved ∧ t.opErr = true) ∨ t.opErr = s.opErr := by
  by_cases hi : i = .reserved
  · subst hi
    cases h
    exact .inl ⟨rfl, rfl⟩
  · obtain ⟨-, -, -, hop, -⟩ := unitsShareNoMutableState i s t h
    exact .inr (hop hi)

/-- Settles O46: what an operation does to each of the three error fields is said above. -/
theorem onlyInitLeavesAFault : Obligations.OnlyInitLeavesAFault := by
  refine fun i s t h => ⟨fun hs hi => ?enc_stays, exec_decErr_of_recorded h, fun hs => ?op_stays, fun ht => ?enc_set,
    fun ht => ?op_set⟩
  case enc_stays =>
    obtain hkept | ⟨hinit, -⟩ | ⟨-, -, hset⟩ := exec_encErr h
    · exact hkept.trans hs
    · exact absurd hinit hi
    · exact hset
  case enc_set =>
    obtain hkept | ⟨-, hclear⟩ | ⟨hi, hr, -⟩ := exec_encErr h
    · exact .inl (hkept.symm.trans ht)
    · rw [hclear] at ht
      cases ht
    · exact .inr ⟨hi, hr⟩
  case op_stays =>
    obtain ⟨-, hset⟩ | hkept := exec_opErr h
    · exact hset
    · exact hkept.trans hs
  case op_set =>
    obtain ⟨hi, -⟩ | hkept := exec_opErr h
    · exact .inr hi
    · exact .inl (hkept.symm.trans ht)

end Sys2Proof.Machine
end

section
/-! The reset event (rule R220), and where the two codecs stop outside their contracts (rules R38, R53, R227). -/

namespace Sys2Proof.Machine

/-! ### The reset event -/

theorem step_of_reset {s : State} {rest : List CallerEvent} (hc : s.caller = .reset :: rest) :
    step s = .next (State.resetBlock { s with caller := rest }) :=
  step_of_caller_cons hc

/-- The reset event that withdraws the operation that holds takes it out of the caller's list; the other leaves the list
as it is (log entry 22). -/
theorem deliver_reset_caller {s : State} {e : CallerEvent} {rest : List CallerEvent} (w : Bool)
    (hc : s.caller = e :: rest) : (s.deliver (.reset w)).caller = if w then rest else s.caller := by
  rw [State.deliver, hc, List.tail_cons]

/-- Settles O6: between operations the event is `State.resetBlock`; during a hold it is the arrival's `State.deliver`,
which differs from it in the caller's list only. -/
theorem resetEventRestoresTheBlock : Obligations.ResetEventRestoresTheBlock := by
  refine ⟨fun s rest hc => ?between, fun s x rest w as hc hw hh ha => ?during⟩
  case between =>
    exact ⟨_, step_of_reset hc, rfl, rfl, rfl, rfl, status_of_reset rfl rfl rfl rfl, rfl, rfl, rfl, rfl, rfl, rfl⟩
  case during =>
    exact ⟨_, step_of_hold_cons hc hw hh ha, rfl, rfl, rfl, rfl, status_of_reset rfl rfl rfl rfl, rfl, rfl, rfl, rfl, rfl,
      deliver_reset_caller (s := { s with arrivals := as }) w hc, rfl⟩

/-! ### Where the encoder stops -/

section

variable {s : State}

theorem encSourceStop_of_changed (hr : s.encRun = false) : s.encSourceStop = some .sourceChanged := by
  rw [State.encSourceStop, if_pos hr]

theorem encSourceStop_of_tooLong (hr : s.encRun = true) (hl : Config.maxBytes s.cntW < s.enc.pos + s.esrc.remaining) :
    s.encSourceStop = some .streamTooLong := by
  rw [State.encSourceStop, hr, if_neg nofun, if_pos hl]

/-- From a count of 5 to 9 fewer than five bits are left after the discard, so that `ENC.ADV` reads the head and stops
where the source does (rule R142). -/
theorem exec_encAdv_of_sourceStop {r : Refusal} (h5 : 5 ≤ s.enc.cnt.toNat) (h10 : s.enc.cnt.toNat < 10)
    (hs : s.encSourceStop = some r) : exec .encAdv s = .refused r := by
  rw [exec_encAdv_refill (c := s.enc.cnt.toNat - 5) (by omega) (by omega), attemptEncRefill, hs]
  rfl

theorem exec_encInit_of_tooLong (hl : Config.maxBytes s.cntW < s.esrc.remaining) :
    exec .encInit s = .refused .streamTooLong := by
  rw [exec, execEncInit, attemptEncInit, if_pos hl, Attempt.outcome]

theorem exec_encCur_of_below_five (h1 : 1 ≤ s.enc.cnt.toNat) (h5 : s.enc.cnt.toNat < 5) :
    exec .encCur s = .fault .encCountBelowFive := by
  rw [exec, execEncCur, if_neg (by omega), if_pos h5]

theorem exec_encAdv_of_below_five (h1 : 1 ≤ s.enc.cnt.toNat) (h5 : s.enc.cnt.toNat < 5) :
    exec .encAdv s = .fault .encCountBelowFive := by
  rw [exec, execEncAdv, attemptEncAdv, if_neg (by omega), if_pos h5, Attempt.outcome]

end

/-- Settles O23: the count below five by the two cursor operations, the refusals of `ENC.ADV` by the stop of its source. -/
theorem encoderStopsOutsideItsContract : Obligations.EncoderStopsOutsideItsContract := fun _ =>
  ⟨fun h1 h5 => ⟨exec_encCur_of_below_five h1 h5, exec_encAdv_of_below_five h1 h5⟩,
    fun h5 h10 hr => exec_encAdv_of_sourceStop h5 h10 (encSourceStop_of_changed hr),
    fun h5 h10 hr hl => exec_encAdv_of_sourceStop h5 h10 (encSourceStop_of_tooLong hr hl),
    exec_encInit_of_tooLong⟩

/-! ### Where the decoder stops -/

section

variable {s : State}

theorem decSourceStop_of_changed (hr : s.decRun = false) : s.decSourceStop = some .sourceChanged := by
  rw [State.decSourceStop, if_pos hr]

theorem decSourceStop_of_tooLong (hr : s.decRun = true)
    (hl : Config.maxSymbols s.cntW < s.dec.pos + s.dsrc.remaining) : s.decSourceStop = some .streamTooLong := by
  rw [State.decSourceStop, hr, if_neg nofun, if_pos hl]

/-- With a byte held and no fault recorded `DEC.ADV` goes on to refill, and stops where the source does (rule R162). -/
theorem exec_decAdv_of_sourceStop {r : Refusal} (he : s.dec.err = .clear) (h8 : 8 ≤ s.dec.cnt.toNat)
    (hs : s.decSourceStop = some r) : exec .decAdv s = .refused r := by
  rw [exec, execDecAdv, attemptDecAdv, if_neg (not_not.mpr he), if_neg (Nat.not_lt.mpr h8), hs]
  rfl

theorem exec_decInit_of_tooLong (hl : Config.maxSymbols s.cntW < s.dsrc.remaining) :
    exec .decInit s = .refused .streamTooLong := by
  rw [exec, execDecInit, attemptDecInit, if_pos hl, Attempt.outcome]

end

/-- Settles O36: the refusals of `DEC.ADV` by the stop of its source, that of `DEC.INIT` by the source's length. -/
theorem decoderStopsOutsideItsContract : Obligations.DecoderStopsOutsideItsContract := fun _ =>
  ⟨exec_decInit_of_tooLong,
    fun he h8 hr => exec_decAdv_of_sourceStop he h8 (decSourceStop_of_changed hr),
    fun he h8 hr hl => exec_decAdv_of_sourceStop he h8 (decSourceStop_of_tooLong hr hl)⟩

end Sys2Proof.Machine
end
